-- ==== Sys2Proof/Word.lean ====
section
/-! DEFINITION. The word types of the block: the three element widths the spec gives its storage
(R36, R54, R90). -/

namespace Sys2Proof

/-- One word of the sample buffer and one noise word: 16 bits, two's complement (R10, R51, R100).
Its value as an integer is `BitVec.toInt`, the spec's `sext_16`. -/
abbrev Sample := BitVec 16

/-- The 32-bit pattern of an IEEE 754 binary32 value, the format `FMT` of the spec (R10, R90; 92 D1).
The pattern is what a descriptor carries (R72); what the pattern means is `Machine.fVal`. -/
abbrev F32 := BitVec 32

/-- One stage descriptor `D[71:0]` (R70). -/
abbrev Descr := BitVec 72

end Sys2Proof
end

