-- ==== Sys2Proof/Machine/Float.lean ====
section
/-! DEFINITION. Binary32 arithmetic, written out exactly: the operators of R11 and R91 (round to nearest,
ties to even, one rounding for each operation, subnormals kept), the comparisons, the conversions of
R92, and `normalize` (R98). -/

namespace Sys2Proof.Machine

/-! ## The value of a pattern

Every finite binary32 value is a whole number of units of 2^-149, the smallest subnormal. So the exact
value of a pattern is an integer of such units, and all arithmetic before the one rounding is exact
integer arithmetic. -/

/-- How many units of 2^-149 the value 1 is. -/
def fOneUnits : Nat := 2 ^ 149

/-- The magnitude pattern of +inf: every pattern above it is a NaN. -/
def fInfMag : Nat := 0x7F800000

/-- The sign bit, bit 31. -/
def fNeg (a : F32) : Bool := a.msb

/-- The magnitude pattern, bits 30..0: the exponent field above the fraction field. -/
def fMag (a : F32) : Nat := a.toNat % 2 ^ 31

/-- The value of a magnitude pattern in units of 2^-149: exponent field 0 is zero or a subnormal, any
other has the hidden bit (R90: 8 exponent bits, bias 127, 23 fraction bits). On the pattern of +inf
it gives 2^277, above every finite value, so that comparing values also orders the infinities. -/
def magVal (p : Nat) : Nat :=
  if p / 2 ^ 23 = 0 then p % 2 ^ 23 else (2 ^ 23 + p % 2 ^ 23) * 2 ^ (p / 2 ^ 23 - 1)

/-- The exact value of a pattern that is no NaN, in units of 2^-149 (R10: `float32`). -/
def fVal (a : F32) : Int := if fNeg a then -(magVal (fMag a) : Int) else magVal (fMag a)

/-- `isNaN` (R11). -/
def fIsNaN (a : F32) : Bool := decide (fInfMag < fMag a)

/-- True of the two infinities. -/
def fIsInf (a : F32) : Bool := decide (fMag a = fInfMag)

/-- True of the finite values, the two zeros among them. -/
def fIsFin (a : F32) : Bool := decide (fMag a < fInfMag)

/-- True of the two zeros. -/
def fIsZero (a : F32) : Bool := decide (fMag a = 0)

/-- The pattern with the given sign and magnitude pattern. -/
def fPack (neg : Bool) (p : Nat) : F32 := BitVec.ofNat 32 (if neg then 2 ^ 31 + p else p)

/-- The one NaN the operators give. NaN sign and payload are never observable (R93; DESIGN CHOICE, log 12). -/
def fNaN : F32 := 0x7FC00000

/-- Negation: the sign bit flipped. -/
def fNegate (a : F32) : F32 := fPack (!fNeg a) (fMag a)

/-! ## Rounding -/

/-- The integer nearest to `n / d`, ties to even (R91). -/
def rne (n d : Nat) : Nat :=
  if 2 * (n % d) < d then n / d
  else if d < 2 * (n % d) then n / d + 1
  else n / d + n / d % 2

/-- The magnitude pattern of the binary32 value nearest to `n / d` units of 2^-149, ties to even (R91).
`k` says how many bits lie below the 24 of the significand; where it is 0 the unit itself is the last
place, so subnormals are kept. A result past the largest finite value is the infinity (R93). -/
def roundMag (n d : Nat) : Nat :=
  let k := Nat.log2 (n / d) - 23
  min fInfMag (k * 2 ^ 23 + rne n (d * 2 ^ k))

/-! ## The four operators (R11, R91, R93) -/

/-- `a ⊕ b`. An exact sum of zero is +0 unless both operands are negative (PRESUMED, log 21). -/
def fAdd (a b : F32) : F32 :=
  if fIsNaN a || fIsNaN b then fNaN
  else if fIsInf a then (if fIsInf b && fNeg a != fNeg b then fNaN else a)
  else if fIsInf b then b
  else if fVal a + fVal b = 0 then fPack (fNeg a && fNeg b) 0
  else fPack (decide (fVal a + fVal b < 0)) (roundMag (fVal a + fVal b).natAbs 1)

/-- `a ⊖ b`. -/
def fSub (a b : F32) : F32 := fAdd a (fNegate b)

/-- `a ⊗ b`. -/
def fMul (a b : F32) : F32 :=
  if fIsNaN a || fIsNaN b then fNaN
  else if fIsInf a || fIsInf b then
    (if fIsZero a || fIsZero b then fNaN else fPack (fNeg a != fNeg b) fInfMag)
  else fPack (fNeg a != fNeg b) (roundMag (magVal (fMag a) * magVal (fMag b)) fOneUnits)

/-- `a ⊘ b`. -/
def fDiv (a b : F32) : F32 :=
  if fIsNaN a || fIsNaN b then fNaN
  else if fIsInf a then (if fIsInf b then fNaN else fPack (fNeg a != fNeg b) fInfMag)
  else if fIsInf b then fPack (fNeg a != fNeg b) 0
  else if fIsZero b then (if fIsZero a then fNaN else fPack (fNeg a != fNeg b) fInfMag)
  else fPack (fNeg a != fNeg b) (roundMag (magVal (fMag a) * fOneUnits) (magVal (fMag b)))

/-! ## Comparisons (R11): false whenever an operand is a NaN, and +0 = -0 -/

/-- `a < b`. -/
def fLt (a b : F32) : Bool := !fIsNaN a && !fIsNaN b && decide (fVal a < fVal b)

/-- `a <= b`. -/
def fLe (a b : F32) : Bool := !fIsNaN a && !fIsNaN b && decide (fVal a ≤ fVal b)

/-- `a > b`. -/
def fGt (a b : F32) : Bool := fLt b a

/-! ## Conversions (R10, R92) -/

/-- `f(n)`: an integer as a float, rounded to nearest even; exact for magnitudes up to 2^24. -/
def fOfInt (n : Int) : F32 := fPack (decide (n < 0)) (roundMag (n.natAbs * fOneUnits) 1)

/-- `f(x)` of a Sample or of a noise word. -/
def fOfSample (x : Sample) : F32 := fOfInt x.toInt

/-- `f(SRATE)` of an unsigned 32-bit word. -/
def fOfWord (w : BitVec 32) : F32 := fOfInt w.toNat

/-- A decimal or other rational constant `± n / d` rounded to nearest even: RNE(c) of R13. -/
def fOfRat (neg : Bool) (n d : Nat) : F32 := fPack neg (roundMag (n * fOneUnits) d)

/-- `trunc(v)` of a finite value: the fraction is dropped, toward zero (R11). -/
def fTrunc (a : F32) : Int := (fVal a).tdiv fOneUnits

/-! ## Named constants (R13) -/

/-- `TWO_PI`, RNE(2π). -/
def fTwoPi : F32 := 0x40C90FDB

/-- `MAXMAG`, 32767.0 (92 D5). -/
def fMaxMag : F32 := 0x46FFFE00

/-- -32767.0, the floor of `normalize` (90 C1). -/
def fMinMag : F32 := 0xC6FFFE00

/-- 32768.0. -/
def f32768 : F32 := 0x47000000

/-- 1.0. -/
def fOne : F32 := 0x3F800000

/-- -1.0. -/
def fMinusOne : F32 := 0xBF800000

/-- 0.5. -/
def fHalf : F32 := 0x3F000000

/-- `TEL_BOOST`, 1.5. -/
def fTelBoost : F32 := 0x3FC00000

/-- +0.0, the value of every stage-private float at entry and at reset (R29). -/
def fZero : F32 := 0x00000000

/-- -0.0. -/
def fMinusZero : F32 := 0x80000000

/-- +inf. -/
def fPosInf : F32 := 0x7F800000

/-- -inf. -/
def fNegInf : F32 := 0xFF800000

/-! ## normalize (unit U7) -/

/-- `int16(v)`: the 16-bit pattern of an integer in the Sample range (R9). -/
def int16 (v : Int) : Sample := BitVec.ofInt 16 v

/-- `normalize(v)` as an integer (R98): NaN to 0 (`NANPOL`, 92 D4), clamp to [-32767, 32767], then
truncate toward zero. -/
def normalizeInt (v : F32) : Int :=
  if fIsNaN v then 0
  else if fGt v fMaxMag then 32767
  else if fLt v fMinMag then -32767
  else fTrunc v

/-- `normalize(v)` as the Sample that is stored (R55: `int16`). -/
def normalize (v : F32) : Sample := int16 (normalizeInt v)

/-! ## Sine and hyperbolic tangent: what R96 asks of every instantiation -/

/-- Properties S1 to S3 of R96. -/
structure SinAdmissible (sin : F32 → F32) : Prop where
  /-- S1: `fsin(+0) = +0`. -/
  zero : sin fZero = fZero
  /-- S2: on finite arguments the result is finite and lies in [-1, 1]. -/
  finite : ∀ x, fIsFin x = true →
    fIsFin (sin x) = true ∧ fLe fMinusOne (sin x) = true ∧ fLe (sin x) fOne = true
  /-- S3: both infinities and every NaN give a NaN. -/
  nonfinite : ∀ x, fIsFin x = false → fIsNaN (sin x) = true

/-- Properties T1 to T4 of R96. -/
structure TanhAdmissible (tanh : F32 → F32) : Prop where
  /-- T1 at +0. -/
  zero : tanh fZero = fZero
  /-- T1 at -0. -/
  minusZero : tanh fMinusZero = fMinusZero
  /-- T2: on every argument but a NaN the result lies in [-1, 1]. -/
  range : ∀ x, fIsNaN x = false → fLe fMinusOne (tanh x) = true ∧ fLe (tanh x) fOne = true
  /-- T2 at +inf. -/
  posInf : tanh fPosInf = fOne
  /-- T2 at -inf. -/
  negInf : tanh fNegInf = fMinusOne
  /-- T3: a NaN gives a NaN. -/
  nan : ∀ x, fIsNaN x = true → fIsNaN (tanh x) = true
  /-- T4: non-decreasing. -/
  mono : ∀ x y, fLe x y = true → fLe (tanh x) (tanh y) = true
  /-- T4: odd. -/
  odd : ∀ x, fIsNaN x = false → tanh (fNegate x) = fNegate (tanh x)

/-- `p` is the real `y` rounded once to binary32, to nearest, ties to the pattern that ends in 0; the sign
bit is that of `y` where `y` is not 0. Both sides are counted in units of 2^-149. -/
def IsRounded (y : ℝ) (p : F32) : Prop :=
  fIsFin p = true ∧
  (∀ q, fIsFin q = true → |y * 2 ^ 149 - (fVal p : ℝ)| ≤ |y * 2 ^ 149 - (fVal q : ℝ)|) ∧
  (∀ q, fIsFin q = true → |y * 2 ^ 149 - (fVal p : ℝ)| = |y * 2 ^ 149 - (fVal q : ℝ)| →
    fVal q ≠ fVal p → p.getLsbD 0 = false) ∧
  (y < 0 → fNeg p = true) ∧ (0 < y → fNeg p = false)

/-- The default instantiation of `fsin` (R95): correctly rounded on finite arguments. The model does not
fix it: the vectors of 95 marked [R95] need it, no rule does. -/
def SinIsDefault (sin : F32 → F32) : Prop :=
  SinAdmissible sin ∧
    ∀ x, fIsFin x = true → IsRounded (Real.sin ((fVal x : ℝ) / 2 ^ 149)) (sin x)

/-- The default instantiation of `ftanh` (R95): correctly rounded on finite arguments. -/
def TanhIsDefault (tanh : F32 → F32) : Prop :=
  TanhAdmissible tanh ∧
    ∀ x, fIsFin x = true → IsRounded (Real.tanh ((fVal x : ℝ) / 2 ^ 149)) (tanh x)

end Sys2Proof.Machine
end

