-- ==== Sys2Proof/Config.lean ====
section
/-! DEFINITION. What an implementation fixes and the spec leaves open (R7, 93 part 1). A parameter the spec
gives no value is an opaque constant with no body: every theorem about the model holds whatever it is.
A parameter the spec bounds is built from an opaque constant so that it meets the bound. -/

namespace Sys2Proof.Config

/-- The noise stream `ν`, from draw number to noise word, under no law (R100; 92 D7; U1). -/
opaque noise : Nat → Sample

/-- The sine of the implementation, if it is given: any function with properties S1 to S3 (R94, R96; U2).
`Machine.fsin` reads it. -/
opaque sinChoice : Option { f : F32 → F32 // Machine.SinAdmissible f }

/-- The hyperbolic tangent of the implementation, if it is given: any function with properties T1 to T4
(R94, R96; U2). `Machine.ftanh` reads it. -/
opaque tanhChoice : Option { f : F32 → F32 // Machine.TanhAdmissible f }

/-- The constant record `PINK` of the pink shaper (R107). -/
structure Pink where
  /-- decay constants `d[0..5]` -/
  d0 : F32
  d1 : F32
  d2 : F32
  d3 : F32
  d4 : F32
  d5 : F32
  /-- gains `g[0..5]` -/
  g0 : F32
  g1 : F32
  g2 : F32
  g3 : F32
  g4 : F32
  g5 : F32
  /-- gain of the one-sample-delayed white term -/
  g6 : F32
  /-- gain of the direct white term -/
  gw : F32
  /-- the DC offset -/
  dc : F32
  /-- the attenuation -/
  att : F32
deriving DecidableEq, Repr, Inhabited

/-- The attenuation, 0.11, the one constant of the record that the source gives (R8, R13, R107). -/
def pinkAtt : F32 := 0x3DE147AE

/-- The fifteen constants of the record that the source does not give (R107; 92 D10; U6). Its `att` is
not read. -/
opaque pinkOpen : Pink

/-- The record the block uses. -/
def pink : Pink := { pinkOpen with att := pinkAtt }

/-- Paul Kellet's constants, the default of R107. The spec marks them as general knowledge; no meaning of
the model reads them, the tests of the vectors marked [PINK] do. -/
def pinkKellet : Pink where
  d0 := 0x3F7FB54A
  d1 := 0x3F7E4A38
  d2 := 0x3F781062
  d3 := 0x3F5DD2F2
  d4 := 0x3F0CCCCD
  d5 := 0xBF42F838
  g0 := 0x3D6366BD
  g1 := 0x3D99C165
  g2 := 0x3E1D8B61
  g3 := 0x3E9EF7F8
  g4 := 0x3F086F8E
  g5 := 0xBC8A6DAD
  g6 := 0x3DED6A9C
  gw := 0x3F094467
  dc := 0x00000000
  att := pinkAtt

/-- The two orders in which the spec writes SCD's scaling: `(f(x) ⊗ gain) ⊘ MAXMAG`, the pseudocode of R130,
and `(f(x) ⊘ MAXMAG) ⊗ gain`, the ruling 92 D9. -/
inductive ScdOrder where
  | gainFirst
  | divideFirst
deriving DecidableEq, Repr, Inhabited

/-- Which of the two orders the block has. R130 and 92 D9 contradict each other and 90_conflicts.md names
neither, so the model leaves the order open between them (DESIGN CHOICE, log 14). -/
opaque scdOrder : ScdOrder

/-- `DEF_WHITE_LEVEL` (R7; 92 D11; U8). -/
opaque defWhiteLevel : F32

/-- `DEF_PINK_LEVEL`. -/
opaque defPinkLevel : F32

/-- `DEF_GAIN`. -/
opaque defGain : F32

/-- `DEF_RATE`, 6 Hz, from the source (R7, R13). -/
def defRate : F32 := 0x40C00000

/-- `DEF_DEPTH`, 0.2, from the source (R7). -/
def defDepth : F32 := 0x3E4CCCCD

/-- `DEF_ALPHA`. -/
opaque defAlpha : F32

/-- `DEF_RING_HZ`. -/
opaque defRingHz : F32

/-- `DEF_BITS`. -/
opaque defBits : BitVec 32

/-- What `NMAX` would be if the spec did not bound it. -/
opaque nmaxOpen : Nat

/-- `NMAX`, the capacity of the sample buffer: open, with `1 <= NMAX <= 2^32 - 1` (R7; 92 D19; U9). -/
def nmax : Nat := max 1 (min nmaxOpen (2 ^ 32 - 1))

/-- `NSLOT`, the number of program slots (R7; 92 D14). -/
abbrev nslot : Nat := 7

/-- The unspecified values a host read of the buffer may return (R53, R57, R210; U12, U13), one for each
such read. -/
opaque freeSample : Nat → Sample

end Sys2Proof.Config
end

