-- ==== Sys2Proof/Syntax.lean ====
section
/-! DEFINITION. The instruction set: the seven stage operations of R2 and R74, one constructor for each row
of spec/opcode_table.json. Beside it, the assembly language of R79 and R80 as data. -/

namespace Sys2Proof

/-- A stage operation with the operands its descriptor carries (R72, R73). A float operand is its
binary32 pattern; `bits` is an unsigned 32-bit integer. -/
inductive Instr where
  /-- AWN, AdditiveWhiteNoise(level) (R120) -/
  | awn (level : F32)
  /-- APN, AdditivePinkNoise(level) (R122) -/
  | apn (level : F32)
  /-- SCD, SoftClipDistortion(gain) (R130) -/
  | scd (gain : F32)
  /-- TRM, Tremolo(rateHz, depth) (R135) -/
  | trm (rateHz depth : F32)
  /-- TEL, TelephoneFilter(alpha) (R140) -/
  | tel (alpha : F32)
  /-- RMD, RingModulator(frequencyHz) (R145) -/
  | rmd (frequencyHz : F32)
  /-- BCR, BitCrusher(bits) (R150) -/
  | bcr (bits : BitVec 32)
deriving DecidableEq, Repr

/-- A float operand as the assembler reads it (R79): a decimal literal `± digits / 10^scale`, or a pattern
written `0x` and eight hex digits. -/
inductive FloatLit where
  | decimal (neg : Bool) (digits scale : Nat)
  | pattern (p : F32)
deriving DecidableEq, Repr

/-- One line of assembly (R79): an operation and its operands as written. -/
inductive AsmLine where
  | awn (level : FloatLit)
  | apn (level : FloatLit)
  | scd (gain : FloatLit)
  | trm (rateHz depth : FloatLit)
  | tel (alpha : FloatLit)
  | rmd (frequencyHz : FloatLit)
  | bcr (bits : Nat)
deriving DecidableEq, Repr

/-- A source text: lines in slot order, or the pseudo-instruction `PIPELINE` standing alone (R80). -/
inductive AsmProgram where
  | lines (ls : List AsmLine)
  | pipeline
deriving DecidableEq, Repr

end Sys2Proof
end

