-- ==== Sys2Proof/WellFormed.lean ====
section
/-! DEFINITION. Which terms are well formed. Every operand pattern of every operation is legal (R72), so an
`Instr` is always well formed; what can be ill formed is a descriptor (R76), a program (R28, R79) and an
assembly operand (R79). -/

namespace Sys2Proof

/-- Every operand value is accepted: the types already bound the widths (R72, R73). -/
def Instr.wellFormed : Instr → Bool
  | .awn _ => true
  | .apn _ => true
  | .scd _ => true
  | .trm _ _ => true
  | .tel _ => true
  | .rmd _ => true
  | .bcr _ => true

/-- The OP field names one of the seven operations (R74, R76 case a). -/
def Descr.opDefined (d : Descr) : Bool :=
  decide (1 ≤ (d.extractLsb' 64 8).toNat ∧ (d.extractLsb' 64 8).toNat ≤ 7)

/-- Field `B` is zero, or the operation is TRM, the only one that uses it (R73, R76 case b). -/
def Descr.reservedZero (d : Descr) : Bool :=
  d.extractLsb' 64 8 == 0x04#8 || d.extractLsb' 0 32 == 0#32

/-- A descriptor that encodes an operation (R76). -/
def Descr.wellFormed (d : Descr) : Bool := Descr.opDefined d && Descr.reservedZero d

/-- A program fits the store: at most seven descriptors (R28, R171), each well formed. -/
def Program.wellFormed (ds : List Descr) : Bool := decide (ds.length ≤ 7) && ds.all Descr.wellFormed

/-- A `bits` operand fits the 32 bits of field `A` (R72, R79). A float operand is always well formed. -/
def AsmLine.wellFormed : AsmLine → Bool
  | .awn _ => true
  | .apn _ => true
  | .scd _ => true
  | .trm _ _ => true
  | .tel _ => true
  | .rmd _ => true
  | .bcr bits => decide (bits < 2 ^ 32)

/-- At most seven lines, each well formed (R79: "more than 7 lines is an assembly error"). -/
def AsmProgram.wellFormed : AsmProgram → Bool
  | .lines ls => decide (ls.length ≤ 7) && ls.all AsmLine.wellFormed
  | .pipeline => true

end Sys2Proof
end

