-- ==== Sys2Proof/Decode.lean ====
section
/-! DEFINITION. Decoding a descriptor, total and rejecting by name (R75, R76), the encoder (R74, R75), and
the default chain as data (R170). -/

namespace Sys2Proof

/-- Why a descriptor is illegal (R76). -/
inductive IllegalKind where
  /-- `OP` = 0x00 or `OP` >= 0x08 -/
  | illegalOp
  /-- a one-parameter `OP` with `B` not zero -/
  | reservedField
deriving DecidableEq, Repr

/-- The result of decoding (R75: `Op + Illegal`). -/
inductive Decoded where
  | legal (i : Instr)
  | illegal (why : IllegalKind)
deriving DecidableEq, Repr

/-! ## Fields (R70) -/

/-- `OP`, bits [71:64]. -/
def opField (d : Descr) : BitVec 8 := d.extractLsb' 64 8

/-- `A`, bits [63:32]. -/
def aField (d : Descr) : BitVec 32 := d.extractLsb' 32 32

/-- `B`, bits [31:0]. -/
def bField (d : Descr) : BitVec 32 := d.extractLsb' 0 32

/-! ## Decoding -/

/-- The one-parameter operation an opcode names, with its operand (R72, R74). -/
def oneParamOp (op : BitVec 8) (a : BitVec 32) : Option Instr :=
  if op = 0x01 then some (.awn a)
  else if op = 0x02 then some (.apn a)
  else if op = 0x03 then some (.scd a)
  else if op = 0x05 then some (.tel a)
  else if op = 0x06 then some (.rmd a)
  else if op = 0x07 then some (.bcr a)
  else none

/-- `decode` of R75. `OP` is tested before `B`. -/
def decode (d : Descr) : Decoded :=
  if opField d = 0x04 then .legal (.trm (aField d) (bField d))
  else
    match oneParamOp (opField d) (aField d) with
    | some i => if bField d = 0 then .legal i else .illegal .reservedField
    | none => .illegal .illegalOp

/-- The descriptor whose bits are `w`, of which the table gives `nbits`; the bits above are zero. A
descriptor is one word, so there is no order of words to lay out (R52, R78). -/
def tableDescr (nbits w : Nat) : Descr := BitVec.ofNat 72 (w % 2 ^ nbits)

/-- What the decoder reads from a word numbered as spec/opcode_table.json numbers it. -/
def decodeTableWord (nbits w : Nat) : Option Instr :=
  if nbits ≤ 72 then
    match decode (tableDescr nbits w) with
    | .legal i => some i
    | .illegal _ => none
  else none

/-! ## Encoding -/

/-- The `OP` value of an operation (R71, R74). -/
def Instr.opcode : Instr → BitVec 8
  | .awn _ => 0x01
  | .apn _ => 0x02
  | .scd _ => 0x03
  | .trm _ _ => 0x04
  | .tel _ => 0x05
  | .rmd _ => 0x06
  | .bcr _ => 0x07

/-- Field `A` of an operation (R72). -/
def Instr.operandA : Instr → BitVec 32
  | .awn level => level
  | .apn level => level
  | .scd gain => gain
  | .trm rateHz _ => rateHz
  | .tel alpha => alpha
  | .rmd frequencyHz => frequencyHz
  | .bcr bits => bits

/-- Field `B` of an operation: `depth` for TRM, zero for every other (R73). -/
def Instr.operandB : Instr → BitVec 32
  | .awn _ => 0
  | .apn _ => 0
  | .scd _ => 0
  | .trm _ depth => depth
  | .tel _ => 0
  | .rmd _ => 0
  | .bcr _ => 0

/-- `encode` of R75: `OP ++ A ++ B`. -/
def encode (i : Instr) : Descr := (i.opcode ++ i.operandA ++ i.operandB : BitVec (8 + 32 + 32))

/-- The row's `mask` of R74. -/
def Instr.tableMask : Instr → Descr
  | .awn _ => 0xFF00000000FFFFFFFF
  | .apn _ => 0xFF00000000FFFFFFFF
  | .scd _ => 0xFF00000000FFFFFFFF
  | .trm _ _ => 0xFF0000000000000000
  | .tel _ => 0xFF00000000FFFFFFFF
  | .rmd _ => 0xFF00000000FFFFFFFF
  | .bcr _ => 0xFF00000000FFFFFFFF

/-- The row's `match` of R74. -/
def Instr.tableMatch : Instr → Descr
  | .awn _ => 0x010000000000000000
  | .apn _ => 0x020000000000000000
  | .scd _ => 0x030000000000000000
  | .trm _ _ => 0x040000000000000000
  | .tel _ => 0x050000000000000000
  | .rmd _ => 0x060000000000000000
  | .bcr _ => 0x070000000000000000

/-! ## The default chain (R8, R170) -/

/-- The operation in slot 0..6 of the default chain, in the source's order. -/
def defaultChain : List Instr :=
  [ .awn Config.defWhiteLevel, .apn Config.defPinkLevel, .scd Config.defGain,
    .trm Config.defRate Config.defDepth, .tel Config.defAlpha, .rmd Config.defRingHz,
    .bcr Config.defBits ]

/-- The reset content of the program store. -/
def defaultProgram : Vector Descr Config.nslot :=
  #v[ encode (.awn Config.defWhiteLevel), encode (.apn Config.defPinkLevel),
      encode (.scd Config.defGain), encode (.trm Config.defRate Config.defDepth),
      encode (.tel Config.defAlpha), encode (.rmd Config.defRingHz),
      encode (.bcr Config.defBits) ]

end Sys2Proof
end

