-- ==== Sys2Proof/Machine/State.lean ====
section
/-! DEFINITION. The machine's state as plain data (R20 to R39), its reset value (R39, R200), and the reasons a
step can stop. -/

namespace Sys2Proof.Machine

/-- The `STATE` field of `STATUS` (R23). -/
inductive RunState where
  | idle
  | busy
  | done
  | err
deriving DecidableEq, Repr

/-- The `ECODE` field of `STATUS`: no fault, or one of the four faults of R181. The values 5 to 15 are never
produced (U21). -/
inductive ECode where
  | none
  | illegalOp
  | reservedField
  | badLen
  | badPlen
deriving DecidableEq, Repr

/-- The sample buffer `BUF` (R51): the words that hold a value, by index, strictly rising. It is indexed by
sample, never by byte (R50, R52), so a cell is an index and a whole 16-bit word. A word that is not
listed holds no value (R57), so there is no listed word that could equal what an unlisted one reads as. -/
abbrev Memory := List (Nat × Sample)

/-- The `PinkFilterState` of unit U1 (R30): six feedback terms and the delayed white term. -/
structure PinkRegs where
  b0 : F32
  b1 : F32
  b2 : F32
  b3 : F32
  b4 : F32
  b5 : F32
  b6 : F32
deriving DecidableEq, Repr

/-- What the host does at one point in time: one of its five operations (R204), or no move. -/
inductive HostMove where
  /-- no transaction: the block has the turn -/
  | noMove
  /-- `HostRegWrite(n, v)`; a register narrower than `v` takes its low bits (DESIGN CHOICE, log 13) -/
  | regWrite (n : Nat) (v : BitVec 72)
  /-- `HostRegRead(n)` -/
  | regRead (n : Nat)
  /-- `HostBufWrite(i, v)` -/
  | bufWrite (i : Nat) (v : Sample)
  /-- `HostBufRead(i)` -/
  | bufRead (i : Nat)
  /-- the Reset event (R200) -/
  | reset
deriving DecidableEq, Repr

/-- What the host gets back from a read (R204). -/
inductive HostReply where
  | reg (n : Nat) (v : BitVec 72)
  | sample (i : Nat) (v : Sample)
deriving DecidableEq, Repr

/-- The whole state. The fields down to `npos` are the block's (R20: "Nothing else is state"); the last
three are the model's own and belong to the host agent (R15; DESIGN CHOICE, logs 7 and 8). -/
structure State where
  /-- `BUF` -/
  buf : Memory
  /-- `LEN`, register 2 (R25) -/
  len : BitVec 32
  /-- `SRATE`, register 3 (R26) -/
  srate : BitVec 32
  /-- `FMETA`, register 4 (R27) -/
  fmeta : BitVec 32
  /-- `PLEN`, register 5, bits [3:0] (R24, R28) -/
  plen : BitVec 4
  /-- `PROG[0..6]`, registers 8..14 (R24, R28) -/
  prog : Vector Descr Config.nslot
  /-- `STATE` (R23) -/
  state : RunState
  /-- `ECODE` (R23, R181) -/
  ecode : ECode
  /-- `ESLOT` (R23, R181) -/
  eslot : BitVec 3
  /-- `SP`, the stage pointer (R22) -/
  sp : BitVec 3
  /-- `IDX`, the sample index (R22) -/
  idx : BitVec 32
  /-- `B0..B6` (R30) -/
  pinkRegs : PinkRegs
  /-- `PH_T` (R31) -/
  phT : F32
  /-- `PH_R` (R32) -/
  phR : F32
  /-- `INC` (R33) -/
  inc : F32
  /-- `PREV` (R34) -/
  prev : F32
  /-- `NPOS`, how many noise words have been drawn (R37) -/
  npos : Nat
  /-- the host's moves still to come, the next first: the model's own -/
  host : List HostMove
  /-- what the host has read, the latest first: the model's own -/
  replies : List HostReply
  /-- how many unspecified values host reads have taken: the model's own -/
  freeCount : Nat
deriving DecidableEq, Repr

/-- Why the machine stops. None is an architectural fault: the four faults of R181 are next states with
`STATE` = ERR. -/
inductive Fault where
  /-- A sample step reads a word of `BUF` that holds no value (R57: "a stage step that reads an unwritten
  word faults in the model"; U11). Raised by every stage operation through `sampleStep`. Safe. -/
  | unwrittenSample
  /-- Stage entry or a sample step at a slot the program store does not have (R53: "`SP < PLEN <= 7` at
  every fetch"). Raised by `fetchSlot`'s callers, in states no run reaches. Safe. -/
  | noSuchSlot
  /-- Stage entry or a sample step at a slot whose descriptor is illegal: START has checked every slot
  below `PLEN` (R161), so no run reaches it. Safe. -/
  | illegalDescriptor
  /-- BUSY with `IDX` past `LEN`: neither step of R163 and R165 is enabled and no run reaches it (R22:
  `IDX <= LEN`). Safe. -/
  | idxPastLen
deriving DecidableEq, Repr

/-- Why the model gives no meaning. -/
inductive Refusal where
  /-- An instruction that has no meaning in the model yet; raised by `exec` alone. Safe. No arm raises it. -/
  | notModelled (mnemonic : String)
deriving DecidableEq, Repr

/-- `B0..B6` all +0.0 (R30). -/
def PinkRegs.zero : PinkRegs := ⟨fZero, fZero, fZero, fZero, fZero, fZero, fZero⟩

/-- The state after Reset (R39, R200): every value the spec's own, but the three fields of the host agent,
which are empty. -/
def State.reset : State where
  buf := []
  len := 0
  srate := 0
  fmeta := 0
  plen := 7
  prog := defaultProgram
  state := .idle
  ecode := .none
  eslot := 0
  sp := 0
  idx := 0
  pinkRegs := .zero
  phT := fZero
  phR := fZero
  inc := fZero
  prev := fZero
  npos := 0
  host := []
  replies := []
  freeCount := 0

end Sys2Proof.Machine
end

