-- ==== Sys2Proof/Machine/Flags.lean ====
section
/-! DEFINITION. The status register. The block has no arithmetic condition codes (R23); its only flag-like
state is the three fields of `STATUS`, which this file lays out as the host reads them. -/

namespace Sys2Proof.Machine

/-- The value of `STATE` in bits [1:0] of `STATUS` (R23). -/
def stateBits : RunState → BitVec 2
  | .idle => 0
  | .busy => 1
  | .done => 2
  | .err => 3

/-- The value of `ECODE` in bits [7:4] of `STATUS` (R181). -/
def ecodeBits : ECode → BitVec 4
  | .none => 0
  | .illegalOp => 1
  | .reservedField => 2
  | .badLen => 3
  | .badPlen => 4

/-- `STATUS` (R23): `STATE` in [1:0], `ECODE` in [7:4], `ESLOT` in [10:8], every other bit 0. -/
def statusWord (s : State) : BitVec 32 :=
  (0#21 ++ s.eslot ++ ecodeBits s.ecode ++ 0#2 ++ stateBits s.state : BitVec (21 + 3 + 4 + 2 + 2))

/-- The fault code for an illegal descriptor (R161, R181). -/
def illegalCode : IllegalKind → ECode
  | .illegalOp => .illegalOp
  | .reservedField => .reservedField

end Sys2Proof.Machine
end

