-- ==== Sys2Proof/Machine/Operands.lean ====
section
/-! DEFINITION. The operand forms. A stage operation has immediate operands, carried in its descriptor, and
the Sample at `IDX` (R21, R72): there are no register operands and no addressing modes. A float operand
is used as it stands; this file holds the two other forms and the arithmetic on them. -/

namespace Sys2Proof.Machine

/-- `w`, the Sample widened to `WIDE` (R109 item 1). `WIDE` is 32-bit signed and no value of BCR leaves it
(R109 items 3 to 5), so the integer itself is the model's wide value (DEDUCED, log 18). -/
def wideOf (x : Sample) : Int := x.toInt

/-- `shift = 16 - min(bits, 16)` of the operand `bits`, read unsigned (R72, R109 item 2, R150). -/
def bcrShift (bits : BitVec 32) : Nat := 16 - min bits.toNat 16

/-- `step = 1 << shift` (R109 item 3, R150). -/
def bcrStep (bits : BitVec 32) : Int := 2 ^ bcrShift bits

/-- `tdiv(a, b)`: division truncating toward zero, no arithmetic shift (R109 item 4; 90 C2). -/
def tdiv (a b : Int) : Int := a.tdiv b

/-- `clamp(q, lo, hi)` (R150). -/
def clamp (q lo hi : Int) : Int := if q < lo then lo else if q > hi then hi else q

end Sys2Proof.Machine
end

