-- ==== Sys2Proof/Machine/Trig.lean ====
section
/-! DEFINITION. `fsin` and `ftanh` (R94): the functions the implementation supplies, uninterpreted but for
the properties of R96. Whatever `Config` holds, both are admissible, and every admissible pair is what
some implementation supplies; so a theorem about the model holds for exactly the instantiations R96
allows. -/

namespace Sys2Proof.Machine

/-- The admissible sine that stands in where `Config` supplies none: +0 on finite arguments. -/
def sinFallback (x : F32) : F32 := if fIsFin x then fZero else fNaN

/-- The admissible hyperbolic tangent that stands in where `Config` supplies none: the identity clamped
to [-1, 1]. -/
def tanhFallback (x : F32) : F32 :=
  if fIsNaN x then fNaN
  else if fMag fOne < fMag x then fPack (fNeg x) (fMag fOne)
  else x

/-- `fsin` (R94). -/
def fsin (x : F32) : F32 :=
  match Config.sinChoice with
  | some f => f.1 x
  | none => sinFallback x

/-- `ftanh` (R94). -/
def ftanh (x : F32) : F32 :=
  match Config.tanhChoice with
  | some f => f.1 x
  | none => tanhFallback x

end Sys2Proof.Machine
end

