-- ==== Sys2Proof/Machine/Ops.lean ====
section
/-! DEFINITION. The shared operations: the sample buffer (R51, R55), the noise draw (R100), the phase
accumulator (R102, R103), one sample step (R163, R164, R168) and raising a fault (R183). -/

namespace Sys2Proof.Machine

/-- The outcome of a step of this machine. -/
abbrev Outcome := Host.Outcome State Fault Refusal

/-! ## The sample buffer -/

/-- What a word of `BUF` that is not listed reads as: it holds no value (R57, R39; 92 D25). -/
def Memory.unlisted : Option Sample := none

/-- `MemRead(BUF, i)` (R55): the Sample at index `i`, if the word holds a value. -/
def Memory.read : Memory → Nat → Option Sample
  | [], _ => Memory.unlisted
  | (j, v) :: rest, i => if j = i then some v else Memory.read rest i

/-- `MemWrite(BUF, i, v)` (R55). -/
def Memory.write : Memory → Nat → Sample → Memory
  | [], i, v => [(i, v)]
  | (j, w) :: rest, i, v =>
    if i < j then (i, v) :: (j, w) :: rest
    else if i = j then (i, v) :: rest
    else (j, w) :: Memory.write rest i v

/-- The canonical form: indices strictly rising. An unlisted word holds no value, so no listed word can
equal what it reads as. -/
def Memory.wf : Memory → Bool
  | [] => true
  | [_] => true
  | (i, _) :: (j, w) :: rest => decide (i < j) && Memory.wf ((j, w) :: rest)

/-! ## The noise draw (unit U0) -/

/-- The word `Draw16()` returns (R100). -/
def drawnWord (s : State) : Sample := Config.noise s.npos

/-- What `Draw16()` does to the state: the word is consumed (R37, R100). -/
def State.consumeDraw (s : State) : State := { s with npos := s.npos + 1 }

/-- The unit-range white value of a drawn word (R101). -/
def whiteOf (r : Sample) : F32 := fDiv (fOfSample r) f32768

/-! ## The phase accumulators (units U3 and U5) -/

/-- The phase step `(TWO_PI ⊗ hz) ⊘ f(SRATE)` (R102). -/
def phaseStep (hz : F32) (srate : BitVec 32) : F32 := fDiv (fMul fTwoPi hz) (fOfWord srate)

/-- `advance(ph, inc)` (R103): the comparison is strict and there is at most one subtraction. -/
def advance (ph inc : F32) : F32 :=
  if fGt (fAdd ph inc) fTwoPi then fSub (fAdd ph inc) fTwoPi else fAdd ph inc

/-! ## One sample step -/

/-- The end of a sample step: the one store at `IDX`, then `IDX <- IDX + 1` (R164, R168). -/
def State.finishSample (s : State) (y : Sample) : State :=
  { s with buf := s.buf.write s.idx.toNat y, idx := s.idx + 1 }

/-- One sample step (R163, R168): one load `x <- BUF[IDX]`, the stage's own result and new private state
from `x`, one store at the same index. Reading a word that holds no value stops (R57). -/
def sampleStep (result : Sample → Sample) (privateState : Sample → State) (s : State) : Outcome :=
  match s.buf.read s.idx.toNat with
  | none => .fault .unwrittenSample
  | some x => .next ((privateState x).finishSample (result x))

/-! ## Faults -/

/-- `raise Fault(code, slot)` (R183): three writes and nothing else. No state is saved and control goes
nowhere; there is no return from it (R184). -/
def raiseFault (code : ECode) (slot : BitVec 3) (s : State) : State :=
  { s with ecode := code, eslot := slot, state := .err }

end Sys2Proof.Machine
end

