-- ==== Sys2Proof/Machine/BitCrusher.lean ====
section
/-! DEFINITION. The bit-crusher stage BCR (R150, R151): integer only, and the one stage that does not call
`normalize`. -/

namespace Sys2Proof.Machine

/-- `q`: the sample truncated toward zero to a multiple of `step` (R150). -/
def bcrQuantize (bits : BitVec 32) (w : Int) : Int := tdiv w (bcrStep bits) * bcrStep bits

/-- The result of BCR for the sample `x` (R150): clamped to the full Sample range (90 C3). -/
def bcrSample (bits : BitVec 32) (x : Sample) : Sample :=
  int16 (clamp (bcrQuantize bits (wideOf x)) (-32768) 32767)

/-- Stage entry of BCR: nothing (R162). -/
def enterBcr (_bits : BitVec 32) (s : State) : State := s

/-- BCR, one sample step (R150): no private state and no draw. -/
def execBcr (bits : BitVec 32) (s : State) : Outcome :=
  sampleStep (bcrSample bits) (fun _ => s) s

end Sys2Proof.Machine
end

