-- ==== Sys2Proof/Machine/Noise.lean ====
section
/-! DEFINITION. The noise-injection stages AWN and APN (R120 to R123), and the pink shaper U1 (R106). -/

namespace Sys2Proof.Machine

/-! ## AWN -/

/-- The result of AWN for the sample `x` and the drawn word `r` (R120). -/
def awnSample (level : F32) (x r : Sample) : Sample :=
  normalize (fAdd (fOfSample x) (fMul (fOfSample r) level))

/-- Stage entry of AWN: nothing (R162). -/
def enterAwn (_level : F32) (s : State) : State := s

/-- AWN, one sample step (R120): one draw for each sample. -/
def execAwn (level : F32) (s : State) : Outcome :=
  sampleStep (fun x => awnSample level x (drawnWord s)) (fun _ => s.consumeDraw) s

/-! ## The pink shaper -/

/-- One feedback term: `(d ⊗ B) ⊕ (g ⊗ white)` (R106). -/
def pinkTerm (d g b white : F32) : F32 := fAdd (fMul d b) (fMul g white)

/-- The state of the shaper after a call of `generate()` that drew `r` (R106). The delayed term `B6`
becomes this call's. -/
def pinkNext (c : Config.Pink) (b : PinkRegs) (r : Sample) : PinkRegs where
  b0 := pinkTerm c.d0 c.g0 b.b0 (whiteOf r)
  b1 := pinkTerm c.d1 c.g1 b.b1 (whiteOf r)
  b2 := pinkTerm c.d2 c.g2 b.b2 (whiteOf r)
  b3 := pinkTerm c.d3 c.g3 b.b3 (whiteOf r)
  b4 := pinkTerm c.d4 c.g4 b.b4 (whiteOf r)
  b5 := pinkTerm c.d5 c.g5 b.b5 (whiteOf r)
  b6 := fMul c.g6 (whiteOf r)

/-- The value that call returns (R106): the six updated terms, then the previous call's `B6`, then the
direct white term and the DC offset, summed from the left, and the attenuation last. -/
def pinkValue (c : Config.Pink) (b : PinkRegs) (r : Sample) : F32 :=
  let n := pinkNext c b r
  let terms := fAdd (fAdd (fAdd (fAdd (fAdd n.b0 n.b1) n.b2) n.b3) n.b4) n.b5
  fMul (fAdd (fAdd (fAdd terms b.b6) (fMul c.gw (whiteOf r))) c.dc) c.att

/-! ## APN -/

/-- `scale <- MAXMAG ⊗ level` (R122). -/
def apnScale (level : F32) : F32 := fMul fMaxMag level

/-- The result of APN for the sample `x` and the shaper's value `p` (R122). -/
def apnSample (level : F32) (x : Sample) (p : F32) : Sample :=
  normalize (fAdd (fOfSample x) (fMul p (apnScale level)))

/-- Stage entry of APN: `B0..B6 <- +0.0` (R162). -/
def enterApn (_level : F32) (s : State) : State := { s with pinkRegs := .zero }

/-- APN, one sample step (R122): one draw for each sample, inside `generate()`. -/
def execApn (level : F32) (s : State) : Outcome :=
  sampleStep (fun x => apnSample level x (pinkValue Config.pink s.pinkRegs (drawnWord s)))
    (fun _ => { s.consumeDraw with pinkRegs := pinkNext Config.pink s.pinkRegs (drawnWord s) }) s

end Sys2Proof.Machine
end

