-- ==== Sys2Proof/Machine/RingMod.lean ====
section
/-! DEFINITION. The ring modulator stage RMD (R145, R146). -/

namespace Sys2Proof.Machine

/-- The result of RMD for the sample `x` at the phase `ph`, before the advance, with the sine as an
argument (R145). -/
def rmdSample (sin : F32 → F32) (ph : F32) (x : Sample) : Sample :=
  normalize (fMul (fOfSample x) (sin ph))

/-- Stage entry of RMD: its own phase is +0.0 and `INC` is latched from `frequencyHz` and `SRATE` (R162,
R102). -/
def enterRmd (frequencyHz : F32) (s : State) : State :=
  { s with phR := fZero, inc := phaseStep frequencyHz s.srate }

/-- RMD, one sample step (R145). `frequencyHz` acts at stage entry alone, through `INC`. -/
def execRmd (_frequencyHz : F32) (s : State) : Outcome :=
  sampleStep (rmdSample fsin s.phR) (fun _ => { s with phR := advance s.phR s.inc }) s

end Sys2Proof.Machine
end

