-- ==== Sys2Proof/Machine/SoftClip.lean ====
section
/-! DEFINITION. The soft-clip distortion stage SCD (R130, R131). -/

namespace Sys2Proof.Machine

/-- The argument of SCD's hyperbolic tangent: the sample's value scaled by `gain` and by `1 / MAXMAG`, in the
order of R130 or in that of 92 D9 (log 14). -/
def scdInput (order : Config.ScdOrder) (gain v : F32) : F32 :=
  match order with
  | .gainFirst => fDiv (fMul v gain) fMaxMag
  | .divideFirst => fMul (fDiv v fMaxMag) gain

/-- The result of SCD for the sample `x`, with the order of the scaling and the hyperbolic tangent as arguments
(R130): scale, `tanh`, multiply by `MAXMAG`, normalize. -/
def scdSample (order : Config.ScdOrder) (tanh : F32 → F32) (gain : F32) (x : Sample) : Sample :=
  normalize (fMul (tanh (scdInput order gain (fOfSample x))) fMaxMag)

/-- Stage entry of SCD: nothing (R162). -/
def enterScd (_gain : F32) (s : State) : State := s

/-- SCD, one sample step (R130): no private state and no draw. -/
def execScd (gain : F32) (s : State) : Outcome :=
  sampleStep (scdSample Config.scdOrder ftanh gain) (fun _ => s) s

end Sys2Proof.Machine
end

