-- ==== Sys2Proof/Machine/Telephone.lean ====
section
/-! DEFINITION. The telephone filter stage TEL (R140, R141). -/

namespace Sys2Proof.Machine

/-- The result of TEL for the sample `x` after the original sample `prev` (R140): the boost is the fixed
1.5. -/
def telSample (alpha prev : F32) (x : Sample) : Sample :=
  normalize (fMul (fSub (fOfSample x) (fMul alpha prev)) fTelBoost)

/-- Stage entry of TEL: `PREV <- +0.0` (R162). -/
def enterTel (_alpha : F32) (s : State) : State := { s with prev := fZero }

/-- TEL, one sample step (R140): `PREV` takes the unfiltered sample, not the output. -/
def execTel (alpha : F32) (s : State) : Outcome :=
  sampleStep (telSample alpha s.prev) (fun x => { s with prev := fOfSample x }) s

end Sys2Proof.Machine
end

