-- ==== Sys2Proof/Machine/Tremolo.lean ====
section
/-! DEFINITION. The tremolo stage TRM (R135, R136). -/

namespace Sys2Proof.Machine

/-- `lfo`: the sine `s` of [-1, 1] mapped into [0, 1] (R135). -/
def trmLfo (s : F32) : F32 := fMul (fAdd s fOne) fHalf

/-- The modulation factor `1 - depth * (1 - lfo)` (R135). -/
def trmFactor (depth s : F32) : F32 := fSub fOne (fMul depth (fSub fOne (trmLfo s)))

/-- The result of TRM for the sample `x` at the phase `ph`, before the advance, with the sine as an
argument (R135). -/
def trmSample (sin : F32 → F32) (depth ph : F32) (x : Sample) : Sample :=
  normalize (fMul (fOfSample x) (trmFactor depth (sin ph)))

/-- Stage entry of TRM: the phase is +0.0 and `INC` is latched from `rateHz` and `SRATE` (R162, R102). -/
def enterTrm (rateHz _depth : F32) (s : State) : State :=
  { s with phT := fZero, inc := phaseStep rateHz s.srate }

/-- TRM, one sample step (R135). `rateHz` acts at stage entry alone, through `INC`. -/
def execTrm (_rateHz depth : F32) (s : State) : Outcome :=
  sampleStep (trmSample fsin depth s.phT) (fun _ => { s with phT := advance s.phT s.inc }) s

end Sys2Proof.Machine
end

