-- ==== Sys2Proof/Machine/Dispatch.lean ====
section
/-! DEFINITION. The meaning of every stage operation as one sample step (R163): one arm for each constructor. -/

namespace Sys2Proof.Machine

def exec (i : Instr) (s : State) : Host.Outcome State Fault Refusal :=
  match i with
  | .awn level => Sys2Proof.Machine.execAwn level s
  | .apn level => Sys2Proof.Machine.execApn level s
  | .scd gain => Sys2Proof.Machine.execScd gain s
  | .trm rateHz depth => Sys2Proof.Machine.execTrm rateHz depth s
  | .tel alpha => Sys2Proof.Machine.execTel alpha s
  | .rmd frequencyHz => Sys2Proof.Machine.execRmd frequencyHz s
  | .bcr bits => Sys2Proof.Machine.execBcr bits s

end Sys2Proof.Machine
end

