-- ==== Sys2Proof/Machine/Sequencer.lean ====
section
/-! DEFINITION. The sequencer: validation and START (R160, R161), stage entry (R162), and its two steps (R163,
R165). -/

namespace Sys2Proof.Machine

/-! ## Stage entry -/

/-- What the entry of a stage does to its private state (R162). -/
def stageEntry (i : Instr) (s : State) : State :=
  match i with
  | .awn level => enterAwn level s
  | .apn level => enterApn level s
  | .scd gain => enterScd gain s
  | .trm rateHz depth => enterTrm rateHz depth s
  | .tel alpha => enterTel alpha s
  | .rmd frequencyHz => enterRmd frequencyHz s
  | .bcr bits => enterBcr bits s

/-- The descriptor in slot `k`, one whole slot (R53, R63). The store has seven. -/
def fetchSlot (s : State) (k : Nat) : Option Descr := s.prog[k]?

/-- `enter(k)` (R162). At the end of the program the run is over and nothing but `STATE` changes (R166).
After validation the slot exists and is legal; where it is not, the model stops. -/
def enter (k : Nat) (s : State) : Outcome :=
  if k = s.plen.toNat then .next { s with state := .done }
  else
    match fetchSlot s k with
    | none => .fault .noSuchSlot
    | some d =>
      match decode d with
      | .legal i => .next (stageEntry i { s with sp := BitVec.ofNat 3 k, idx := 0 })
      | .illegal _ => .fault .illegalDescriptor

/-! ## START -/

/-- The first illegal descriptor of a program, with its slot; `k` is the slot of the first one (R161). -/
def firstIllegal : List Descr → Nat → Option (ECode × BitVec 3)
  | [], _ => none
  | d :: rest, k =>
    match decode d with
    | .legal _ => firstIllegal rest (k + 1)
    | .illegal why => some (illegalCode why, BitVec.ofNat 3 k)

/-- The descriptors a run uses, `PROG[0..PLEN-1]` (R28). -/
def activeSlots (s : State) : List Descr := s.prog.toList.take s.plen.toNat

/-- `validate()` (R161): the first failing check, in the order of R182, or none. The capacity is an
argument. -/
def validate (capacity : Nat) (s : State) : Option (ECode × BitVec 3) :=
  if s.len.toNat > capacity then some (.badLen, 0)
  else if s.plen.toNat > 7 then some (.badPlen, 0)
  else firstIllegal (activeSlots s) 0

/-- A run begins at slot 0 with no fault recorded (R160). -/
def beginRun (s : State) : Outcome :=
  enter 0 { s with ecode := .none, eslot := 0, state := .busy }

/-- A START request (R160): from IDLE and DONE it validates and begins a run or raises a fault; in BUSY and
ERR it is ignored. -/
def startRequest (s : State) : Outcome :=
  match s.state with
  | .idle | .done =>
    match validate Config.nmax s with
    | none => beginRun s
    | some (code, slot) => .next (raiseFault code slot s)
  | .busy | .err => .next s

/-! ## The sequencer's step -/

/-- The sample step (R163): the operation of `PROG[SP]` on index `IDX`. -/
def runSample (s : State) : Outcome :=
  match fetchSlot s s.sp.toNat with
  | none => .fault .noSuchSlot
  | some d =>
    match decode d with
    | .legal i => exec i s
    | .illegal _ => .fault .illegalDescriptor

/-- One step of the sequencer. In BUSY the sample step (R163) or the stage end (R165) is enabled; in IDLE,
DONE and ERR no step is, and the block waits (R201, R166, R184, R195): a step there changes nothing (DESIGN
CHOICE, log 9). -/
def sequencerStep (s : State) : Outcome :=
  match s.state with
  | .busy =>
    if s.idx.toNat < s.len.toNat then runSample s
    else if s.idx = s.len then enter (s.sp.toNat + 1) s
    else .fault .idxPastLen
  | .idle | .done | .err => .next s

end Sys2Proof.Machine
end

