-- ==== Sys2Proof/Machine/HostPort.lean ====
section
/-! DEFINITION. The host interface: the five operations of R204, with the register map of R24 and the rule for
accesses while BUSY (R210). -/

namespace Sys2Proof.Machine

/-! ## Registers -/

/-- The value of register `n` (R24): `CTRL` and the reserved numbers read 0, `PROG[k]` is register `8 + k`,
and a register narrower than 72 bits reads with zeros above it. -/
def regValue (n : Nat) (s : State) : BitVec 72 :=
  if n = 1 then (statusWord s).setWidth 72
  else if n = 2 then s.len.setWidth 72
  else if n = 3 then s.srate.setWidth 72
  else if n = 4 then s.fmeta.setWidth 72
  else if n = 5 then s.plen.setWidth 72
  else if 8 ≤ n then (fetchSlot s (n - 8)).getD 0
  else 0

/-- What a write of `v` to register `n`, other than `CTRL`, leaves (R24): writes to `STATUS` and to reserved
numbers are ignored, as are the bits of `PLEN` above [3:0]. -/
def regUpdate (n : Nat) (v : BitVec 72) (s : State) : State :=
  if n = 2 then { s with len := v.setWidth 32 }
  else if n = 3 then { s with srate := v.setWidth 32 }
  else if n = 4 then { s with fmeta := v.setWidth 32 }
  else if n = 5 then { s with plen := v.setWidth 4 }
  else if 8 ≤ n then { s with prog := s.prog.setIfInBounds (n - 8) v }
  else s

/-- `HostRegWrite(n, v)` (R204): ignored while BUSY (R210); to `CTRL`, bit 0 requests a run and the other
bits are ignored (R24, R160). -/
def hostRegWrite (n : Nat) (v : BitVec 72) (s : State) : Outcome :=
  if s.state = .busy then .next s
  else if n = 0 then (if v.getLsbD 0 then startRequest s else .next s)
  else .next (regUpdate n v s)

/-- `HostRegRead(n)` (R204), the same in every `STATE` (R210). A read has no side effect on the block
(R54). -/
def hostRegRead (n : Nat) (s : State) : State :=
  { s with replies := .reg n (regValue n s) :: s.replies }

/-! ## The buffer -/

/-- `HostBufWrite(i, v)` (R56, R204): ignored while BUSY (R210) and for `i >= NMAX` (R53). The capacity is
an argument. -/
def hostBufWrite (capacity i : Nat) (v : Sample) (s : State) : State :=
  if s.state = .busy then s
  else if i < capacity then { s with buf := s.buf.write i v }
  else s

/-- The Sample a host read of index `i` is owed, where the spec gives one: not while BUSY (R210), not for
`i >= NMAX` (R53), not for a word that holds no value (R57). -/
def hostBufValue (capacity i : Nat) (s : State) : Option Sample :=
  if s.state = .busy then none
  else if i < capacity then s.buf.read i
  else none

/-- `HostBufRead(i)` (R56, R204). Where the spec gives no value the host gets a free one (U12, U13;
DESIGN CHOICE, log 7). -/
def hostBufRead (capacity i : Nat) (s : State) : State :=
  match hostBufValue capacity i s with
  | some v => { s with replies := .sample i v :: s.replies }
  | none =>
    { s with
      replies := .sample i (Config.freeSample s.freeCount) :: s.replies
      freeCount := s.freeCount + 1 }

/-! ## Reset and one move -/

/-- The Reset event (R200), in every `STATE`: every piece of the block's state takes its reset value. The
host is another agent (R15): its coming moves, and what it has read, stay (DESIGN CHOICE, log 16). -/
def hostReset (s : State) : State :=
  { State.reset with host := s.host, replies := s.replies, freeCount := s.freeCount }

/-- One move of the host, atomic (R204). Where it makes none the sequencer has the turn (R15). -/
def hostMove (m : HostMove) (s : State) : Outcome :=
  match m with
  | .noMove => sequencerStep s
  | .regWrite n v => hostRegWrite n v s
  | .regRead n => .next (hostRegRead n s)
  | .bufWrite i v => .next (hostBufWrite Config.nmax i v s)
  | .bufRead i => .next (hostBufRead Config.nmax i s)
  | .reset => .next (hostReset s)

end Sys2Proof.Machine
end

