-- ==== Sys2Proof/Machine/Step.lean ====
section
/-! DEFINITION. One step of the machine, and the word a step runs next. -/

namespace Sys2Proof.Machine

/-- One step. Two agents can move: the host, by the next move of its list, and the sequencer, wherever the
host makes none (R15, R204). Every interleaving of the two is the run of some list. -/
def step (s : State) : Host.Outcome State Fault Refusal :=
  match s.host with
  | [] => sequencerStep s
  | m :: rest => hostMove m { s with host := rest }

/-- What stage entry does to the private state, where the descriptor is legal (R162). -/
def State.enteredAt (s : State) (d : Descr) : State :=
  match decode d with
  | .legal i => stageEntry i s
  | .illegal _ => s

/-- `s` with the descriptor of `w` as its whole program, loaded and started: one slot, one sample, BUSY at
slot 0, sample 0, the stage entered, and no move of the host before it. The one sample is the one that
stands in the buffer, or 0. So the very next step is the first sample step of that operation (DESIGN CHOICE,
log 11). -/
def State.withFetchWord (s : State) (nbits w : Nat) : State :=
  State.enteredAt
    { s with
      buf := s.buf.write 0 ((s.buf.read 0).getD 0)
      len := 1
      plen := 1
      prog := s.prog.setIfInBounds 0 (tableDescr nbits w)
      state := .busy
      ecode := .none
      eslot := 0
      sp := 0
      idx := 0
      host := [] }
    (tableDescr nbits w)

end Sys2Proof.Machine
end

