-- ==== Sys2Proof/Machine/Assembler.lean ====
section
/-! DEFINITION. The assembler of R79 and R80, from text to descriptors, and the host's own sequence for one
run (R203). None of it is the block's: it says what a host writes into `PROG` and `PLEN`. -/

namespace Sys2Proof.Machine

/-! ## From assembly lines to descriptors -/

/-- The pattern a float literal stands for: RNE of a decimal, or the pattern as written (R13, R79). RNE fixes no
sign for zero: a literal -0 is the pattern of -0, 0x80000000 (DESIGN CHOICE, log 19). -/
def FloatLit.value : FloatLit → F32
  | .decimal neg digits scale => fOfRat neg digits (10 ^ scale)
  | .pattern p => p

/-- The operation a line stands for. -/
def AsmLine.toInstr : AsmLine → Instr
  | .awn level => .awn (FloatLit.value level)
  | .apn level => .apn (FloatLit.value level)
  | .scd gain => .scd (FloatLit.value gain)
  | .trm rateHz depth => .trm (FloatLit.value rateHz) (FloatLit.value depth)
  | .tel alpha => .tel (FloatLit.value alpha)
  | .rmd frequencyHz => .rmd (FloatLit.value frequencyHz)
  | .bcr bits => .bcr (BitVec.ofNat 32 bits)

/-- The operations of a source text in slot order; `PIPELINE` is the default chain (R80). -/
def AsmProgram.instrs : AsmProgram → List Instr
  | .lines ls => ls.map AsmLine.toInstr
  | .pipeline => defaultChain

/-- The descriptors of a source text in slot order, or an assembly error (R79). -/
def assemble (p : AsmProgram) : Option (List Descr) :=
  if AsmProgram.wellFormed p then some ((AsmProgram.instrs p).map encode) else none

/-! ## The host's sequence (R203) -/

/-- Step 4: write `PLEN` and the slots, from slot `k` on (R24: `PROG[k]` is register `8 + k`). -/
def writeSlots : Nat → List Descr → List HostMove
  | _, [] => []
  | k, d :: rest => .regWrite (8 + k) d :: writeSlots (k + 1) rest

/-- Step 3: write the samples, from index `i` on. -/
def writeSamples : Nat → List Sample → List HostMove
  | _, [] => []
  | i, x :: rest => .bufWrite i x :: writeSamples (i + 1) rest

/-- Steps 2 to 5: the host writes the format, the samples and the program, then START. -/
def hostSequence (srate fmeta : BitVec 32) (samples : List Sample) (program : List Descr) :
    List HostMove :=
  [.regWrite 2 (BitVec.ofNat 72 samples.length), .regWrite 3 (srate.setWidth 72),
    .regWrite 4 (fmeta.setWidth 72)] ++ writeSamples 0 samples ++
  [.regWrite 5 (BitVec.ofNat 72 program.length)] ++ writeSlots 0 program ++ [.regWrite 0 1]

/-- Step 6: one poll of `STATUS` and the turn given to the block. -/
def pollMoves : List HostMove := [.regRead 1, .noMove]

/-- Step 8: read the samples back, from index `i` on, `n` of them. -/
def readSamples : Nat → Nat → List HostMove
  | _, 0 => []
  | i, n + 1 => .bufRead i :: readSamples (i + 1) n

/-! ## Reading the text (R79)

A text is a list of characters. A line is an operation and its operands, as `MNEM operand, operand` or in
the source's call syntax `Name(operand, operand)`, with or without the parameter names it uses. The
lexical details are a DESIGN CHOICE (log 19). -/

/-- A character that separates. -/
def isBlank (c : Char) : Bool := c == ' ' || c == '\t' || c == '\r'

/-- The text without its leading and trailing blanks. -/
def trimBlanks (t : List Char) : List Char := ((t.dropWhile isBlank).reverse.dropWhile isBlank).reverse

/-- The parts of a text between separators. -/
def splitText (sep : Char) : List Char → List (List Char)
  | [] => [[]]
  | c :: rest =>
    if c = sep then [] :: splitText sep rest
    else
      match splitText sep rest with
      | [] => [[c]]
      | p :: ps => (c :: p) :: ps

/-- The value of a decimal digit. -/
def digitOf (c : Char) : Option Nat :=
  if '0'.toNat ≤ c.toNat ∧ c.toNat ≤ '9'.toNat then some (c.toNat - '0'.toNat) else none

/-- The value of a hex digit. -/
def hexDigitOf (c : Char) : Option Nat :=
  if 'a'.toNat ≤ c.toNat ∧ c.toNat ≤ 'f'.toNat then some (c.toNat - 'a'.toNat + 10)
  else if 'A'.toNat ≤ c.toNat ∧ c.toNat ≤ 'F'.toNat then some (c.toNat - 'A'.toNat + 10)
  else digitOf c

/-- The number a run of digits writes after `acc`, or none at a character that is no digit. -/
def digitsFrom (base : Nat) (digit : Char → Option Nat) : Nat → List Char → Option Nat
  | acc, [] => some acc
  | acc, c :: rest =>
    match digit c with
    | some v => digitsFrom base digit (acc * base + v) rest
    | none => none

/-- An unsigned decimal integer: one digit or more. -/
def parseNat (t : List Char) : Option Nat := if t.isEmpty then none else digitsFrom 10 digitOf 0 t

/-- An unsigned decimal literal, with or without a fraction. -/
def parseDecimal (neg : Bool) (t : List Char) : Option FloatLit :=
  match splitText '.' t with
  | [whole] => (parseNat whole).map fun n => .decimal neg n 0
  | [whole, fraction] =>
    if whole.isEmpty || fraction.isEmpty then none
    else (parseNat (whole ++ fraction)).map fun n => .decimal neg n fraction.length
  | _ => none

/-- A float operand: a decimal literal, or `0x` and eight hex digits. -/
def parseFloat (t : List Char) : Option FloatLit :=
  match t with
  | '0' :: 'x' :: digits =>
    if digits.length = 8 then
      (digitsFrom 16 hexDigitOf 0 digits).map fun n => .pattern (BitVec.ofNat 32 n)
    else none
  | '-' :: rest => parseDecimal true rest
  | _ => parseDecimal false t

/-- An operand of the call syntax without the parameter name it may carry. -/
def dropParam (name t : List Char) : List Char :=
  match splitText '=' t with
  | [p, v] => if trimBlanks p = name then trimBlanks v else t
  | _ => t

/-- The operands of a line: what stands between the commas. -/
def operandsOf (t : List Char) : List (List Char) := (splitText ',' t).map trimBlanks

/-- A line by its mnemonic and its operands. -/
def mnemonicLine (name : List Char) (ops : List (List Char)) : Option AsmLine :=
  match ops with
  | [a] =>
    if name = "AWN".toList then (parseFloat a).map .awn
    else if name = "APN".toList then (parseFloat a).map .apn
    else if name = "SCD".toList then (parseFloat a).map .scd
    else if name = "TEL".toList then (parseFloat a).map .tel
    else if name = "RMD".toList then (parseFloat a).map .rmd
    else if name = "BCR".toList then (parseNat a).map .bcr
    else none
  | [a, b] =>
    if name = "TRM".toList then
      (parseFloat a).bind fun r => (parseFloat b).map fun d => .trm r d
    else none
  | _ => none

/-- A line by its source name and the operands between its parentheses. -/
def callLine (name : List Char) (ops : List (List Char)) : Option AsmLine :=
  match ops with
  | [a] =>
    if name = "AdditiveWhiteNoise".toList then (parseFloat (dropParam "level".toList a)).map .awn
    else if name = "AdditivePinkNoise".toList then (parseFloat (dropParam "level".toList a)).map .apn
    else if name = "SoftClipDistortion".toList then (parseFloat (dropParam "gain".toList a)).map .scd
    else if name = "TelephoneFilter".toList then (parseFloat (dropParam "alpha".toList a)).map .tel
    else if name = "RingModulator".toList then (parseFloat (dropParam "freq".toList a)).map .rmd
    else if name = "BitCrusher".toList then (parseNat (dropParam "bits".toList a)).map .bcr
    else none
  | [a, b] =>
    if name = "Tremolo".toList then
      (parseFloat (dropParam "rate".toList a)).bind fun r =>
        (parseFloat (dropParam "depth".toList b)).map fun d => .trm r d
    else none
  | _ => none

/-- A line without comment and outer blanks, and not empty. -/
def parseLine (t : List Char) : Option AsmLine :=
  let name := t.takeWhile fun c => !isBlank c && c != '('
  let rest := trimBlanks (t.drop name.length)
  match rest with
  | '(' :: inner =>
    if inner.getLast? = some ')' then callLine name (operandsOf inner.dropLast) else none
  | _ => mnemonicLine name (operandsOf rest)

/-- The lines of a text that hold an operation: comments start with `;`. -/
def sourceLines (t : List Char) : List (List Char) :=
  ((splitText '\n' t).map fun l => trimBlanks (l.takeWhile fun c => c != ';')).filter fun l => !l.isEmpty

/-- Every line, or none if one does not read. -/
def parseLines : List (List Char) → Option (List AsmLine)
  | [] => some []
  | l :: rest => (parseLine l).bind fun a => (parseLines rest).map fun as => a :: as

/-- A source text (R79, R80). -/
def parseProgram (t : List Char) : Option AsmProgram :=
  match sourceLines t with
  | [l] => if l = "PIPELINE".toList then some .pipeline else (parseLines [l]).map .lines
  | ls => (parseLines ls).map .lines

/-- From text to descriptors. -/
def assembleText (t : List Char) : Option (List Descr) := (parseProgram t).bind assemble

end Sys2Proof.Machine
end

