-- ==== Sys2Proof/Safety.lean ====
section
/-! DEFINITION. What counts as a safe state and as a run: the invariant every step keeps, a buffer that is
fully loaded, and a run from an accepted START (R160, R166, R202). -/

namespace Sys2Proof.Machine

/-- What validation at START has checked, and what the counters keep (R22, R161): a BUSY block is in a slot
of its program, at an index of its buffer, and every slot of the program is legal. -/
structure Runnable (s : State) : Prop where
  /-- `LEN <= NMAX` -/
  lenFits : s.len.toNat ≤ Config.nmax
  /-- `PLEN <= 7` -/
  plenFits : s.plen.toNat ≤ 7
  /-- `SP < PLEN` -/
  spInProgram : s.sp.toNat < s.plen.toNat
  /-- `IDX <= LEN` -/
  idxInBuffer : s.idx.toNat ≤ s.len.toNat
  /-- every slot below `PLEN` is legal -/
  legal : ∀ k d, k < s.plen.toNat → fetchSlot s k = some d → ∃ i, decode d = .legal i

/-- The invariant. -/
structure Inv (s : State) : Prop where
  /-- `BUF` keeps its canonical form -/
  bufCanonical : Memory.wf s.buf = true
  /-- no word of `BUF` stands at or above `NMAX` (R51, R53) -/
  bufInRange : ∀ c ∈ s.buf, c.1 < Config.nmax
  /-- a fault is recorded exactly in ERR (R184) -/
  faultRecorded : s.state = .err ↔ s.ecode ≠ .none
  /-- `ESLOT` is 0 but for a fault of a descriptor (R181) -/
  slotRecorded : s.ecode ≠ .illegalOp → s.ecode ≠ .reservedField → s.eslot = 0
  /-- a BUSY block can run -/
  busyRunnable : s.state = .busy → Runnable s

/-- Every word of `BUF` below `LEN` holds a value (R202 item 2). -/
def Loaded (s : State) : Prop := ∀ k, k < s.len.toNat → ∃ x, s.buf.read k = some x

/-- The host makes no move. -/
def HostQuiet (s : State) : Prop := s.host = []

/-- The machine between two runs, with a program and a buffer START accepts (R202). -/
structure ReadyToStart (s : State) : Prop where
  /-- IDLE or DONE -/
  canStart : s.state = .idle ∨ s.state = .done
  /-- validation passes (R161) -/
  valid : validate Config.nmax s = none
  /-- the buffer is loaded -/
  loaded : Loaded s

/-- How many steps of the sequencer a run makes: for each of the `PLEN` stages `LEN` sample steps and one
stage end (R166, R215). -/
def runSteps (s : State) : Nat := s.plen.toNat * (s.len.toNat + 1)

/-- The state after the host's START and `n` steps of the sequencer. -/
def afterStart (s : State) (n : Nat) : Outcome :=
  Host.Core.run Sys2Proof.core (1 + n) { s with host := [.regWrite 0 1] }

/-- The operations of the program, as far as its slots are legal. -/
def programOf (s : State) : List Instr :=
  (activeSlots s).filterMap fun d =>
    match decode d with
    | .legal i => some i
    | .illegal _ => none

/-- The two operations that draw noise (R65). -/
def isNoise : Instr → Bool
  | .awn _ => true
  | .apn _ => true
  | .scd _ => false
  | .trm _ _ => false
  | .tel _ => false
  | .rmd _ => false
  | .bcr _ => false

/-- The six operations that end in `normalize` (R98: "Every stage but BCR"). -/
def normalizes : Instr → Bool
  | .awn _ => true
  | .apn _ => true
  | .scd _ => true
  | .trm _ _ => true
  | .tel _ => true
  | .rmd _ => true
  | .bcr _ => false

/-- A Sample in [-32767, 32767] (R8, R99). -/
def InNormalRange (y : Sample) : Prop := -32767 ≤ y.toInt ∧ y.toInt ≤ 32767

end Sys2Proof.Machine
end

