-- ==== Sys2Proof/Certificates/Slice0/Obligations.lean ====
section
/-! DEFINITION. The statements for the provers, from the numbered rules of the spec. A float is compared by its
exact value `fVal`, in units of 2^-149; `fOneUnits` is the value 1. The fields `host`, `replies` and `freeCount`,
and that the host moves by a list, are the model's choice (log entries 7 and 8). -/

open Sys2Proof Sys2Proof.Machine

/-! ## Encoding -/

/-- R75: `decode(encode(o)) = o` for every legal operation, every operand at every value. -/
def Obligations.DecodeOfEncodeIsTheInstruction : Prop :=
  ∀ i : Instr, i.wellFormed = true → decode (encode i) = .legal i

/-- R75: `encode` is the inverse of `decode` on legal operations: no bit of a legal descriptor is lost. -/
def Obligations.EncodeOfDecodeIsTheDescriptor : Prop :=
  ∀ (d : Descr) (i : Instr), decode d = .legal i → encode i = d

/-- R74: a descriptor encodes a row's operation exactly when `D & mask = match`. -/
def Obligations.LegalExactlyOnTableRows : Prop :=
  ∀ (d : Descr) (row : Instr),
    d &&& row.tableMask = row.tableMatch ↔ ∃ i, decode d = .legal i ∧ i.opcode = row.opcode

/-- R76: which descriptors are illegal, and under which name. -/
def Obligations.IllegalDescriptorsByName : Prop :=
  ∀ d : Descr,
    (decode d = .illegal .illegalOp ↔ opField d = 0x00 ∨ 0x08 ≤ opField d) ∧
    (decode d = .illegal .reservedField ↔
      (opField d = 0x01 ∨ opField d = 0x02 ∨ opField d = 0x03 ∨ opField d = 0x05 ∨ opField d = 0x06 ∨
        opField d = 0x07) ∧ bField d ≠ 0)

/-- R81: the worked encodings, and its three illegal examples. -/
def Obligations.WorkedEncodingsDecode : Prop :=
  decode 0x0440C000003E4CCCCD = .legal (.trm 0x40C00000 0x3E4CCCCD) ∧
  decode 0x0641A0000000000000 = .legal (.rmd 0x41A00000) ∧
  decode 0x013C23D70A00000000 = .legal (.awn 0x3C23D70A) ∧
  decode 0x023D4CCCCD00000000 = .legal (.apn 0x3D4CCCCD) ∧
  decode 0x034000000000000000 = .legal (.scd 0x40000000) ∧
  decode 0x053F00000000000000 = .legal (.tel 0x3F000000) ∧
  decode 0x070000000800000000 = .legal (.bcr 8) ∧
  decode 0x070000001000000000 = .legal (.bcr 16) ∧
  decode 0x000000000000000000 = .illegal .illegalOp ∧
  decode 0x083F80000000000000 = .illegal .illegalOp ∧
  decode 0x013C23D70A00000001 = .illegal .reservedField

/-! ## The float layer -/

/-- R91 for `⊕` and `⊖`: on finite operands the result is no NaN, no representable value is nearer to the
exact sum, and where another is as near the result's pattern is even. An infinity counts as the value
2^277 that follows the largest finite one, which is how rounding reaches it: so a sum that overflows is an
infinity (R93) of the exact sum's sign, which is log entry 21 (PRESUMED). -/
def Obligations.SumsRoundToNearestEven : Prop :=
  ∀ a b : F32, fIsFin a = true → fIsFin b = true →
    (fIsNaN (fAdd a b) = false ∧ ∀ c : F32, fIsNaN c = false →
      |fVal (fAdd a b) - (fVal a + fVal b)| ≤ |fVal c - (fVal a + fVal b)| ∧
      (|fVal (fAdd a b) - (fVal a + fVal b)| = |fVal c - (fVal a + fVal b)| →
        fVal c ≠ fVal (fAdd a b) → fMag (fAdd a b) % 2 = 0)) ∧
    (fIsNaN (fSub a b) = false ∧ ∀ c : F32, fIsNaN c = false →
      |fVal (fSub a b) - (fVal a - fVal b)| ≤ |fVal c - (fVal a - fVal b)| ∧
      (|fVal (fSub a b) - (fVal a - fVal b)| = |fVal c - (fVal a - fVal b)| →
        fVal c ≠ fVal (fSub a b) → fMag (fSub a b) % 2 = 0))

/-- R91 for `⊗`, in units of 2^-298; a product that overflows is an infinity (R93) of the exact product's sign,
which is log entry 21 (PRESUMED). -/
def Obligations.ProductsRoundToNearestEven : Prop :=
  ∀ a b : F32, fIsFin a = true → fIsFin b = true →
    fIsNaN (fMul a b) = false ∧ ∀ c : F32, fIsNaN c = false →
      |fVal (fMul a b) * fOneUnits - fVal a * fVal b| ≤ |fVal c * fOneUnits - fVal a * fVal b| ∧
      (|fVal (fMul a b) * fOneUnits - fVal a * fVal b| = |fVal c * fOneUnits - fVal a * fVal b| →
        fVal c ≠ fVal (fMul a b) → fMag (fMul a b) % 2 = 0)

/-- R91 for `⊘` by a value that is not zero, both sides multiplied by the divisor; a quotient that overflows
is an infinity (R93) of the exact quotient's sign, which is log entry 21 (PRESUMED). -/
def Obligations.QuotientsRoundToNearestEven : Prop :=
  ∀ a b : F32, fIsFin a = true → fIsFin b = true → fIsZero b = false →
    fIsNaN (fDiv a b) = false ∧ ∀ c : F32, fIsNaN c = false →
      |fVal (fDiv a b) * fVal b - fVal a * fOneUnits| ≤ |fVal c * fVal b - fVal a * fOneUnits| ∧
      (|fVal (fDiv a b) * fVal b - fVal a * fOneUnits| = |fVal c * fVal b - fVal a * fOneUnits| →
        fVal c ≠ fVal (fDiv a b) → fMag (fDiv a b) % 2 = 0)

/-- R93: NaN and infinity. -/
def Obligations.NonFiniteOperands : Prop :=
  (∀ a b : F32, fIsNaN a = true ∨ fIsNaN b = true →
    fIsNaN (fAdd a b) = true ∧ fIsNaN (fSub a b) = true ∧ fIsNaN (fMul a b) = true ∧
      fIsNaN (fDiv a b) = true) ∧
  (∀ a b : F32, fIsInf a = true → fIsInf b = true →
    fIsNaN (fDiv a b) = true ∧ (fNeg a = fNeg b → fIsNaN (fSub a b) = true) ∧
      (fNeg a ≠ fNeg b → fIsNaN (fAdd a b) = true)) ∧
  (∀ a b : F32, fIsZero a = true → fIsInf b = true →
    fIsNaN (fMul a b) = true ∧ fIsNaN (fMul b a) = true) ∧
  (∀ a b : F32, fIsZero a = true → fIsZero b = true → fIsNaN (fDiv a b) = true) ∧
  (∀ a b : F32, fIsFin a = true → fIsZero a = false → fIsZero b = true → fIsInf (fDiv a b) = true)

/-- R10, R92: an integer of magnitude at most 2^24 is converted exactly; so is every Sample. -/
def Obligations.IntegerConversionIsExact : Prop :=
  (∀ n : Int, |n| ≤ 2 ^ 24 → fIsFin (fOfInt n) = true ∧ fVal (fOfInt n) = n * fOneUnits) ∧
  (∀ x : Sample, fIsFin (fOfSample x) = true ∧ fVal (fOfSample x) = x.toInt * fOneUnits)

/-- R99: the six consequences of `normalize`. -/
def Obligations.NormalizeConsequences : Prop :=
  (∀ v : F32, -32767 ≤ normalizeInt v ∧ normalizeInt v ≤ 32767 ∧ (normalize v).toInt = normalizeInt v) ∧
  (∀ n : Int, -32767 ≤ n → n ≤ 32767 → normalizeInt (fOfInt n) = n) ∧
  normalizeInt (fOfInt (-32768)) = -32767 ∧
  (normalizeInt fZero = 0 ∧ normalizeInt fMinusZero = 0 ∧
    ∀ v : F32, fLt fMinusOne v = true → fLt v fOne = true → normalizeInt v = 0) ∧
  ((∀ v : F32, fLe fMinMag v = true → fLe v fMaxMag = true →
      normalizeInt v = (fVal v).tdiv fOneUnits) ∧
    normalizeInt (fOfRat false 29 10) = 2 ∧ normalizeInt (fOfRat true 29 10) = -2) ∧
  (∀ u v : F32, fLe u v = true → normalizeInt u ≤ normalizeInt v)

/-- R101: the unit-range white value is exact and lies in [-1, 1). -/
def Obligations.WhiteValueIsExact : Prop :=
  ∀ r : Sample, fVal (whiteOf r) * 32768 = r.toInt * fOneUnits ∧
    fLe fMinusOne (whiteOf r) = true ∧ fLt (whiteOf r) fOne = true

/-- R105: with a step in [0, TWO_PI] the phase stays in [0, TWO_PI] at every sample of the stage, and a wrap
leaves it positive. The phase of sample `n` is `n` advances after +0.0. -/
def Obligations.PhaseStaysInRange : Prop :=
  ∀ inc : F32, fLe fZero inc = true → fLe inc fTwoPi = true →
    (∀ n : Nat, fLe fZero ((fun ph => advance ph inc)^[n] fZero) = true ∧
      fLe ((fun ph => advance ph inc)^[n] fZero) fTwoPi = true) ∧
    ∀ ph : F32, fLe fZero ph = true → fLe ph fTwoPi = true →
      fLe fZero (advance ph inc) = true ∧ fLe (advance ph inc) fTwoPi = true ∧
      (fGt (fAdd ph inc) fTwoPi = true → fLt fZero (advance ph inc) = true)

/-- R104: the corner cases of the phase step and of the phase: frequency zero, sample rate zero, both, NaN. -/
def Obligations.PhaseCornerCases : Prop :=
  (∀ (hz : F32) (sr : BitVec 32), fIsZero hz = true → sr ≠ 0 →
    fIsZero (phaseStep hz sr) = true ∧
    ∀ ph, fIsZero ph = true → fIsZero (advance ph (phaseStep hz sr)) = true) ∧
  (∀ hz : F32, fIsFin hz = true → fLt fZero hz = true →
    phaseStep hz 0 = fPosInf ∧ advance fZero fPosInf = fPosInf ∧ advance fPosInf fPosInf = fPosInf) ∧
  (∀ hz : F32, fIsZero hz = true → fIsNaN (phaseStep hz 0) = true) ∧
  (∀ (hz : F32) (sr : BitVec 32), fIsNaN hz = true → fIsNaN (phaseStep hz sr) = true) ∧
  (∀ ph inc : F32, fIsNaN inc = true → fIsNaN (advance ph inc) = true)

/-- R108 item 4: drawn words of zero and no DC offset keep the shaper at zero, for every record of finite
constants. -/
def Obligations.PinkShaperStaysAtZero : Prop :=
  ∀ (c : Config.Pink) (b : PinkRegs),
    fIsFin c.d0 = true → fIsFin c.d1 = true → fIsFin c.d2 = true → fIsFin c.d3 = true →
    fIsFin c.d4 = true → fIsFin c.d5 = true → fIsFin c.g0 = true → fIsFin c.g1 = true →
    fIsFin c.g2 = true → fIsFin c.g3 = true → fIsFin c.g4 = true → fIsFin c.g5 = true →
    fIsFin c.g6 = true → fIsFin c.gw = true → fIsFin c.att = true → fIsZero c.dc = true →
    fIsZero b.b0 = true → fIsZero b.b1 = true → fIsZero b.b2 = true → fIsZero b.b3 = true →
    fIsZero b.b4 = true → fIsZero b.b5 = true → fIsZero b.b6 = true →
    fIsZero (pinkNext c b 0).b0 = true ∧ fIsZero (pinkNext c b 0).b1 = true ∧
    fIsZero (pinkNext c b 0).b2 = true ∧ fIsZero (pinkNext c b 0).b3 = true ∧
    fIsZero (pinkNext c b 0).b4 = true ∧ fIsZero (pinkNext c b 0).b5 = true ∧
    fIsZero (pinkNext c b 0).b6 = true ∧ fIsZero (pinkValue c b 0) = true

/-! ## What each stage operation does: its result, and that it completes -/

/-- R120: AWN on a word that holds a value completes, with the result, one draw and nothing else. -/
def Obligations.AwnResult : Prop :=
  ∀ (level : F32) (s : State) (x : Sample), s.buf.read s.idx.toNat = some x →
    exec (.awn level) s = .next { s with
      buf := s.buf.write s.idx.toNat
        (normalize (fAdd (fOfSample x) (fMul (fOfSample (Config.noise s.npos)) level)))
      npos := s.npos + 1
      idx := s.idx + 1 }

/-- R122, R106: APN completes, with one step of the pink shaper. The sum is written out in the order of
R106; `w` is the white value of R101. -/
def Obligations.ApnResult : Prop :=
  ∀ (level : F32) (s : State) (x : Sample) (w : F32) (b : PinkRegs) (p : F32),
    s.buf.read s.idx.toNat = some x →
    w = fDiv (fOfSample (Config.noise s.npos)) f32768 →
    b = ⟨fAdd (fMul Config.pink.d0 s.pinkRegs.b0) (fMul Config.pink.g0 w),
      fAdd (fMul Config.pink.d1 s.pinkRegs.b1) (fMul Config.pink.g1 w),
      fAdd (fMul Config.pink.d2 s.pinkRegs.b2) (fMul Config.pink.g2 w),
      fAdd (fMul Config.pink.d3 s.pinkRegs.b3) (fMul Config.pink.g3 w),
      fAdd (fMul Config.pink.d4 s.pinkRegs.b4) (fMul Config.pink.g4 w),
      fAdd (fMul Config.pink.d5 s.pinkRegs.b5) (fMul Config.pink.g5 w),
      fMul Config.pink.g6 w⟩ →
    p = fMul (fAdd (fAdd (fAdd (fAdd (fAdd (fAdd (fAdd (fAdd b.b0 b.b1) b.b2) b.b3) b.b4) b.b5)
      s.pinkRegs.b6) (fMul Config.pink.gw w)) Config.pink.dc) 0x3DE147AE →
    exec (.apn level) s = .next { s with
      buf := s.buf.write s.idx.toNat
        (normalize (fAdd (fOfSample x) (fMul p (fMul fMaxMag level))))
      pinkRegs := b
      npos := s.npos + 1
      idx := s.idx + 1 }

/-- R130: SCD completes, with the result and nothing else. `n` is the scaled sample, in the order of R130's
pseudocode or in that of 92 D9; which one the block has is left open between the two (log entry 14, DESIGN
CHOICE). -/
def Obligations.ScdResult : Prop :=
  ∀ (gain : F32) (s : State) (x : Sample) (n : F32), s.buf.read s.idx.toNat = some x →
    n = (match Config.scdOrder with
      | .gainFirst => fDiv (fMul (fOfSample x) gain) fMaxMag
      | .divideFirst => fMul (fDiv (fOfSample x) fMaxMag) gain) →
    exec (.scd gain) s = .next { s with
      buf := s.buf.write s.idx.toNat (normalize (fMul (ftanh n) fMaxMag))
      idx := s.idx + 1 }

/-- R135: TRM completes, with the result of the phase before the advance, and the phase advanced. -/
def Obligations.TrmResult : Prop :=
  ∀ (rateHz depth : F32) (s : State) (x : Sample) (lfo : F32), s.buf.read s.idx.toNat = some x →
    lfo = fMul (fAdd (fsin s.phT) fOne) fHalf →
    exec (.trm rateHz depth) s = .next { s with
      buf := s.buf.write s.idx.toNat
        (normalize (fMul (fOfSample x) (fSub fOne (fMul depth (fSub fOne lfo)))))
      phT := advance s.phT s.inc
      idx := s.idx + 1 }

/-- R140: TEL completes; `PREV` takes the unfiltered sample. -/
def Obligations.TelResult : Prop :=
  ∀ (alpha : F32) (s : State) (x : Sample), s.buf.read s.idx.toNat = some x →
    exec (.tel alpha) s = .next { s with
      buf := s.buf.write s.idx.toNat
        (normalize (fMul (fSub (fOfSample x) (fMul alpha s.prev)) 0x3FC00000))
      prev := fOfSample x
      idx := s.idx + 1 }

/-- R145: RMD completes, with the result of the phase before the advance, and its own phase advanced. -/
def Obligations.RmdResult : Prop :=
  ∀ (frequencyHz : F32) (s : State) (x : Sample), s.buf.read s.idx.toNat = some x →
    exec (.rmd frequencyHz) s = .next { s with
      buf := s.buf.write s.idx.toNat (normalize (fMul (fOfSample x) (fsin s.phR)))
      phR := advance s.phR s.inc
      idx := s.idx + 1 }

/-- R150: BCR completes, with the truncating quantizer and the clamp to the full Sample range. -/
def Obligations.BcrResult : Prop :=
  ∀ (bits : BitVec 32) (s : State) (x : Sample) (step q : Int), s.buf.read s.idx.toNat = some x →
    step = 2 ^ (16 - min bits.toNat 16) → q = x.toInt.tdiv step * step →
    exec (.bcr bits) s = .next { s with
      buf := s.buf.write s.idx.toNat
        (BitVec.ofInt 16 (if q < -32768 then -32768 else if q > 32767 then 32767 else q))
      idx := s.idx + 1 }

/-- R57: a sample step of any operation that reads a word holding no value stops, under that name, and a
step stops for no other reason. -/
def Obligations.UnwrittenSampleStops : Prop :=
  ∀ (i : Instr) (s : State),
    (s.buf.read s.idx.toNat = none → exec i s = .fault .unwrittenSample) ∧
    (∀ x, s.buf.read s.idx.toNat = some x → ∃ t, exec i s = .next t)

/-! ## What an operation leaves unchanged -/

/-- Frame of SCD and BCR: one word of the buffer and `IDX`; every other register, the noise position, every
private register and every other word are unchanged (R130, R150, R66). -/
def Obligations.FrameOfPureStages : Prop :=
  ∀ (i : Instr) (s t : State), (∃ gain, i = .scd gain) ∨ (∃ bits, i = .bcr bits) →
    exec i s = .next t →
    (t.len = s.len ∧ t.srate = s.srate ∧ t.fmeta = s.fmeta ∧ t.plen = s.plen ∧ t.prog = s.prog ∧
      t.state = s.state ∧ t.ecode = s.ecode ∧ t.eslot = s.eslot ∧ t.sp = s.sp) ∧
    (t.pinkRegs = s.pinkRegs ∧ t.phT = s.phT ∧ t.phR = s.phR ∧ t.inc = s.inc ∧ t.prev = s.prev ∧
      t.npos = s.npos ∧ t.host = s.host ∧ t.replies = s.replies ∧ t.freeCount = s.freeCount) ∧
    ∀ j, j ≠ s.idx.toNat → t.buf.read j = s.buf.read j

/-- Frame of AWN and APN: beside the word and `IDX`, `NPOS`, and for APN `B0..B6` (R120, R122, R66). -/
def Obligations.FrameOfNoiseStages : Prop :=
  ∀ (i : Instr) (s t : State) (level : F32), i = .awn level ∨ i = .apn level →
    exec i s = .next t →
    (t.len = s.len ∧ t.srate = s.srate ∧ t.fmeta = s.fmeta ∧ t.plen = s.plen ∧ t.prog = s.prog ∧
      t.state = s.state ∧ t.ecode = s.ecode ∧ t.eslot = s.eslot ∧ t.sp = s.sp) ∧
    ((i = .awn level → t.pinkRegs = s.pinkRegs) ∧ t.phT = s.phT ∧ t.phR = s.phR ∧ t.inc = s.inc ∧
      t.prev = s.prev ∧ t.host = s.host ∧ t.replies = s.replies ∧ t.freeCount = s.freeCount) ∧
    ∀ j, j ≠ s.idx.toNat → t.buf.read j = s.buf.read j

/-- Frame of TRM and RMD: beside the word and `IDX`, the stage's own phase; the two phases are distinct
registers (R32, R135, R145, R66). -/
def Obligations.FrameOfPhaseStages : Prop :=
  ∀ (i : Instr) (s t : State) (hz depth : F32), i = .trm hz depth ∨ i = .rmd hz →
    exec i s = .next t →
    (t.len = s.len ∧ t.srate = s.srate ∧ t.fmeta = s.fmeta ∧ t.plen = s.plen ∧ t.prog = s.prog ∧
      t.state = s.state ∧ t.ecode = s.ecode ∧ t.eslot = s.eslot ∧ t.sp = s.sp) ∧
    (t.pinkRegs = s.pinkRegs ∧ (i = .rmd hz → t.phT = s.phT) ∧ (i = .trm hz depth → t.phR = s.phR) ∧
      t.inc = s.inc ∧ t.prev = s.prev ∧ t.npos = s.npos ∧ t.host = s.host ∧ t.replies = s.replies ∧
      t.freeCount = s.freeCount) ∧
    ∀ j, j ≠ s.idx.toNat → t.buf.read j = s.buf.read j

/-- Frame of TEL: beside the word and `IDX`, `PREV` (R140, R66). -/
def Obligations.FrameOfTelephone : Prop :=
  ∀ (alpha : F32) (s t : State), exec (.tel alpha) s = .next t →
    (t.len = s.len ∧ t.srate = s.srate ∧ t.fmeta = s.fmeta ∧ t.plen = s.plen ∧ t.prog = s.prog ∧
      t.state = s.state ∧ t.ecode = s.ecode ∧ t.eslot = s.eslot ∧ t.sp = s.sp) ∧
    (t.pinkRegs = s.pinkRegs ∧ t.phT = s.phT ∧ t.phR = s.phR ∧ t.inc = s.inc ∧ t.npos = s.npos ∧
      t.host = s.host ∧ t.replies = s.replies ∧ t.freeCount = s.freeCount) ∧
    ∀ j, j ≠ s.idx.toNat → t.buf.read j = s.buf.read j

/-! ## Properties of the operations -/

/-- R99 item 1 for the machine: the word a float operation stores lies in [-32767, 32767]. -/
def Obligations.FloatStagesStoreInRange : Prop :=
  ∀ (i : Instr) (s t : State), normalizes i = true → exec i s = .next t →
    ∃ y, t.buf.read s.idx.toNat = some y ∧ InNormalRange y

/-- R131: SCD maps 0 to 0, is odd on [-32767, 32767], and is monotone in the sample: rising for a gain of
at least 0, falling for one of at most 0; in both orders of its scaling (log entry 14). -/
def Obligations.SoftClipProperties : Prop :=
  ∀ order : Config.ScdOrder,
  (∀ (gain : F32) (x : Sample), InNormalRange (scdSample order ftanh gain x)) ∧
  (∀ gain : F32, scdSample order ftanh gain 0 = 0) ∧
  (∀ (gain : F32) (x : Sample), InNormalRange x →
    (scdSample order ftanh gain (-x)).toInt = -(scdSample order ftanh gain x).toInt) ∧
  (∀ (gain : F32) (x y : Sample), fIsFin gain = true → fLe fZero gain = true → x.toInt ≤ y.toInt →
    (scdSample order ftanh gain x).toInt ≤ (scdSample order ftanh gain y).toInt) ∧
  (∀ (gain : F32) (x y : Sample), fIsFin gain = true → fLe gain fZero = true → x.toInt ≤ y.toInt →
    (scdSample order ftanh gain y).toInt ≤ (scdSample order ftanh gain x).toInt)

/-- R136: the LFO lies in [0, 1]; for a depth in [0, 1] the factor lies between `1 ⊖ depth` and 1, and the
output's magnitude is at most the input's; zero stays zero. -/
def Obligations.TremoloProperties : Prop :=
  ∀ ph : F32, fIsFin ph = true →
    (fLe fZero (trmLfo (fsin ph)) = true ∧ fLe (trmLfo (fsin ph)) fOne = true) ∧
    (∀ depth : F32, fLe fZero depth = true → fLe depth fOne = true →
      fLe (fSub fOne depth) (trmFactor depth (fsin ph)) = true ∧
      fLe (trmFactor depth (fsin ph)) fOne = true ∧
      ∀ x : Sample, |(trmSample fsin depth ph x).toInt| ≤ |x.toInt|) ∧
    (∀ (depth : F32) (x : Sample), InNormalRange (trmSample fsin depth ph x)) ∧
    (∀ depth : F32, trmSample fsin depth ph 0 = 0)

/-- R135 corner case (a): depth zero is the identity but on -32768, which becomes -32767. -/
def Obligations.TremoloDepthZeroIsIdentity : Prop :=
  ∀ (depth ph : F32) (x : Sample), fIsZero depth = true → fIsFin ph = true →
    (InNormalRange x → trmSample fsin depth ph x = x) ∧
    (x.toInt = -32768 → (trmSample fsin depth ph x).toInt = -32767)

/-- R141: TEL's output lies in range, the first sample sees `PREV` = 0, and zero after zero stays zero. -/
def Obligations.TelephoneProperties : Prop :=
  (∀ (alpha prev : F32) (x : Sample), InNormalRange (telSample alpha prev x)) ∧
  (∀ (alpha : F32) (x : Sample), fIsFin alpha = true →
    telSample alpha fZero x = normalize (fMul (fOfSample x) fTelBoost)) ∧
  (∀ alpha : F32, telSample alpha (fOfSample 0) 0 = 0)

/-- R146: RMD's first output is 0; for a finite phase the output's magnitude is at most the input's, and at
most 32767; zero stays zero. -/
def Obligations.RingModulatorProperties : Prop :=
  (∀ x : Sample, rmdSample fsin fZero x = 0) ∧
  (∀ (ph : F32) (x : Sample), InNormalRange (rmdSample fsin ph x)) ∧
  (∀ (ph : F32) (x : Sample), fIsFin ph = true → |(rmdSample fsin ph x).toInt| ≤ |x.toInt|) ∧
  (∀ ph : F32, rmdSample fsin ph 0 = 0)

/-- R151: the properties of the quantizer. -/
def Obligations.BitCrusherProperties : Prop :=
  ∀ (bits : BitVec 32) (x : Sample),
    bcrStep bits ∣ (bcrSample bits x).toInt ∧
    |(bcrSample bits x).toInt| ≤ |x.toInt| ∧
    (0 ≤ x.toInt → 0 ≤ (bcrSample bits x).toInt) ∧ (x.toInt ≤ 0 → (bcrSample bits x).toInt ≤ 0) ∧
    |x.toInt - (bcrSample bits x).toInt| < bcrStep bits ∧
    (bcrSample bits x = x ↔ bcrStep bits ∣ x.toInt) ∧
    bcrSample bits (bcrSample bits x) = bcrSample bits x ∧
    (InNormalRange x → bcrSample bits (-x) = -bcrSample bits x ∧ InNormalRange (bcrSample bits x)) ∧
    (x.toInt = -32768 → 1 ≤ bits.toNat → bcrSample bits x = x)

/-- R150 corner cases (c), (d), (e): sixteen bits or more are the identity, one bit leaves -32768 and 0,
none leaves 0. -/
def Obligations.BitCrusherExtremes : Prop :=
  (∀ (bits : BitVec 32) (x : Sample), 16 ≤ bits.toNat → bcrSample bits x = x) ∧
  (∀ x : Sample, (bcrSample 1 x).toInt = if x.toInt = -32768 then -32768 else 0) ∧
  (∀ x : Sample, bcrSample 0 x = 0)

/-! ## The sequencer -/

/-- R163: when the block is BUSY before the end of its buffer and the host makes no move, a step is the
sample step of the operation that the slot at `SP` decodes to. -/
def Obligations.StepRunsTheDecodedOperation : Prop :=
  ∀ (s : State) (d : Descr) (i : Instr), s.state = .busy → s.idx.toNat < s.len.toNat →
    fetchSlot s s.sp.toNat = some d → decode d = .legal i →
    (s.host = [] → step s = exec i s) ∧
    (∀ rest, s.host = .noMove :: rest → step s = exec i { s with host := rest })

/-- R165, R162, R166: at the end of the buffer a step enters the next slot, at index 0, with its stage
state constructed afresh, or ends the run with nothing but `STATE` changed. That the finished stage's private
registers keep their values is the model's choice (log entry 17; R29 and 93 U25 leave it open). -/
def Obligations.StageEndEntersTheNextSlot : Prop :=
  ∀ s : State, s.host = [] → s.state = .busy → s.idx = s.len →
    (s.sp.toNat + 1 = s.plen.toNat → step s = .next { s with state := .done }) ∧
    (∀ d, s.sp.toNat + 1 ≠ s.plen.toNat → fetchSlot s (s.sp.toNat + 1) = some d →
      (∀ level, decode d = .legal (.awn level) →
        step s = .next { s with sp := s.sp + 1, idx := 0 }) ∧
      (∀ level, decode d = .legal (.apn level) →
        step s = .next { s with
          sp := s.sp + 1, idx := 0, pinkRegs := ⟨0, 0, 0, 0, 0, 0, 0⟩ }) ∧
      (∀ gain, decode d = .legal (.scd gain) →
        step s = .next { s with sp := s.sp + 1, idx := 0 }) ∧
      (∀ rateHz depth, decode d = .legal (.trm rateHz depth) →
        step s = .next { s with
          sp := s.sp + 1, idx := 0, phT := 0
          inc := fDiv (fMul fTwoPi rateHz) (fOfInt s.srate.toNat) }) ∧
      (∀ alpha, decode d = .legal (.tel alpha) →
        step s = .next { s with sp := s.sp + 1, idx := 0, prev := 0 }) ∧
      (∀ frequencyHz, decode d = .legal (.rmd frequencyHz) →
        step s = .next { s with
          sp := s.sp + 1, idx := 0, phR := 0
          inc := fDiv (fMul fTwoPi frequencyHz) (fOfInt s.srate.toNat) }) ∧
      (∀ bits, decode d = .legal (.bcr bits) →
        step s = .next { s with sp := s.sp + 1, idx := 0 }))

/-- R201, R166, R184: outside BUSY the sequencer has no step; without a move of the host the block stays as
it is. That waiting is a step that changes nothing is the model's choice (log entry 9). -/
def Obligations.NothingHappensOutsideBusy : Prop :=
  ∀ s : State, s.host = [] → s.state ≠ .busy → step s = .next s

/-- R161, R182: validation reports the first failing check: `BAD_LEN`, then `BAD_PLEN`, then the
lowest-numbered slot below `PLEN` that is illegal, with its kind; slots at or above `PLEN` do not count. -/
def Obligations.ValidationReportsTheFirstFault : Prop :=
  ∀ (capacity : Nat) (s : State),
    (capacity < s.len.toNat → validate capacity s = some (.badLen, 0)) ∧
    (s.len.toNat ≤ capacity → 7 < s.plen.toNat → validate capacity s = some (.badPlen, 0)) ∧
    (s.len.toNat ≤ capacity → s.plen.toNat ≤ 7 →
      (∀ k d why, k < s.plen.toNat → fetchSlot s k = some d → decode d = .illegal why →
        (∀ j e, j < k → fetchSlot s j = some e → ∃ i, decode e = .legal i) →
        validate capacity s =
          some (match why with | .illegalOp => .illegalOp | .reservedField => .reservedField,
            BitVec.ofNat 3 k)) ∧
      ((∀ k d, k < s.plen.toNat → fetchSlot s k = some d → ∃ i, decode d = .legal i) →
        validate capacity s = none))

/-- R160: START, in every `STATE`. From IDLE and DONE it validates: a failure records the code and the slot,
enters ERR and changes nothing else (R183); otherwise the fault fields are cleared and the run begins at
slot 0, sample 0, BUSY, with the private state of that slot's operation constructed by `enter(0)` (R162), or
is over at once for an empty program. In BUSY and ERR it is ignored, as is a write of `CTRL` with bit 0 = 0 in
any `STATE`. That every other private register keeps its value is the model's choice (log entry 17; R29 and 93
U25 leave it open). -/
def Obligations.StartFaultsBeginsOrIsIgnored : Prop :=
  ∀ (s : State) (v : BitVec 72) (rest : List HostMove), s.host = .regWrite 0 v :: rest →
    (v.getLsbD 0 = true → s.state = .idle ∨ s.state = .done →
      (∀ code slot, validate Config.nmax s = some (code, slot) →
        step s = .next { s with host := rest, ecode := code, eslot := slot, state := .err }) ∧
      (validate Config.nmax s = none → s.plen = 0 →
        step s = .next { s with host := rest, ecode := .none, eslot := 0, state := .done }) ∧
      (validate Config.nmax s = none → s.plen ≠ 0 →
        ∃ t, step s = .next t ∧ t.state = .busy ∧ t.ecode = .none ∧ t.eslot = 0 ∧ t.sp = 0 ∧
          t.idx = 0 ∧ t.buf = s.buf ∧ t.len = s.len ∧ t.srate = s.srate ∧ t.fmeta = s.fmeta ∧
          t.plen = s.plen ∧ t.prog = s.prog ∧ t.npos = s.npos ∧ t.host = rest) ∧
      (∀ d, validate Config.nmax s = none → s.plen ≠ 0 → fetchSlot s 0 = some d →
        (∀ level, decode d = .legal (.awn level) →
          step s = .next { s with
            host := rest, ecode := .none, eslot := 0, state := .busy, sp := 0, idx := 0 }) ∧
        (∀ level, decode d = .legal (.apn level) →
          step s = .next { s with
            host := rest, ecode := .none, eslot := 0, state := .busy, sp := 0, idx := 0
            pinkRegs := ⟨0, 0, 0, 0, 0, 0, 0⟩ }) ∧
        (∀ gain, decode d = .legal (.scd gain) →
          step s = .next { s with
            host := rest, ecode := .none, eslot := 0, state := .busy, sp := 0, idx := 0 }) ∧
        (∀ rateHz depth, decode d = .legal (.trm rateHz depth) →
          step s = .next { s with
            host := rest, ecode := .none, eslot := 0, state := .busy, sp := 0, idx := 0
            phT := 0, inc := fDiv (fMul fTwoPi rateHz) (fOfInt s.srate.toNat) }) ∧
        (∀ alpha, decode d = .legal (.tel alpha) →
          step s = .next { s with
            host := rest, ecode := .none, eslot := 0, state := .busy, sp := 0, idx := 0, prev := 0 }) ∧
        (∀ frequencyHz, decode d = .legal (.rmd frequencyHz) →
          step s = .next { s with
            host := rest, ecode := .none, eslot := 0, state := .busy, sp := 0, idx := 0
            phR := 0, inc := fDiv (fMul fTwoPi frequencyHz) (fOfInt s.srate.toNat) }) ∧
        (∀ bits, decode d = .legal (.bcr bits) →
          step s = .next { s with
            host := rest, ecode := .none, eslot := 0, state := .busy, sp := 0, idx := 0 }))) ∧
    (s.state = .busy ∨ s.state = .err ∨ v.getLsbD 0 = false → step s = .next { s with host := rest })

/-- R184: ERR and the recorded fault stay under every move but Reset. -/
def Obligations.ErrIsStickyUntilReset : Prop :=
  ∀ s : State, s.state = .err → (∀ rest, s.host ≠ .reset :: rest) →
    ∃ t, step s = .next t ∧ t.state = .err ∧ t.ecode = s.ecode ∧ t.eslot = s.eslot

/-! ## The host's ports -/

/-- R210: while BUSY no move of the host but Reset changes the block; at most it takes a reply. -/
def Obligations.HostMovesWhileBusyChangeNothing : Prop :=
  ∀ (s : State) (m : HostMove) (rest : List HostMove), s.state = .busy → s.host = m :: rest →
    m ≠ .noMove → m ≠ .reset →
    ∃ t, step s = .next t ∧
      t = { s with host := rest, replies := t.replies, freeCount := t.freeCount }

/-- R24, R204: outside BUSY a host write of a register other than `CTRL` is a step after which that register
reads back the bits written, every other one reads as before, and the buffer, the status, the counters, the
private registers and the noise position are unchanged; `STATUS` and reserved numbers ignore it and `PLEN` keeps
four bits. In every `STATE` a host read is a step that answers the register's value and changes nothing else;
`CTRL` and the reserved numbers answer 0. That a value is 72 bits wide, of which a narrower register takes the
low bits and reads with zeros above, is the model's choice (log entry 13). -/
def Obligations.RegisterReadsBackWhatWasWritten : Prop :=
  (∀ (s : State) (n : Nat) (v : BitVec 72) (rest : List HostMove),
    s.host = .regWrite n v :: rest → s.state ≠ .busy → n ≠ 0 →
    ∃ t, step s = .next t ∧
      t = { s with
        host := rest, len := t.len, srate := t.srate, fmeta := t.fmeta, plen := t.plen, prog := t.prog } ∧
      (∀ m, m ≠ n → regValue m t = regValue m s) ∧
      regValue n t =
        (if n = 2 ∨ n = 3 ∨ n = 4 then (v.setWidth 32).setWidth 72
        else if n = 5 then (v.setWidth 4).setWidth 72
        else if 8 ≤ n ∧ n ≤ 14 then v
        else regValue n s) ∧
      (n = 6 ∨ n = 7 ∨ 15 ≤ n → regValue n t = 0)) ∧
  (∀ (s : State) (n : Nat) (rest : List HostMove), s.host = .regRead n :: rest →
    step s = .next { s with host := rest, replies := .reg n (regValue n s) :: s.replies } ∧
    regValue 1 s = (statusWord s).setWidth 72 ∧
    (n = 0 ∨ n = 6 ∨ n = 7 ∨ 15 ≤ n → regValue n s = 0))

/-- R23, R181: the fields of `STATUS`, and its reserved bits. -/
def Obligations.StatusRegisterFields : Prop :=
  ∀ s : State,
    (statusWord s).extractLsb' 0 2 =
      (match s.state with | .idle => 0 | .busy => 1 | .done => 2 | .err => 3) ∧
    (statusWord s).extractLsb' 4 4 =
      (match s.ecode with
        | .none => 0 | .illegalOp => 1 | .reservedField => 2 | .badLen => 3 | .badPlen => 4) ∧
    (statusWord s).extractLsb' 8 3 = s.eslot ∧
    (statusWord s).extractLsb' 2 2 = 0 ∧ (statusWord s).extractLsb' 11 21 = 0

/-- R56, R204: outside BUSY a host write of the buffer at an index below the capacity is what a host read of
it gives, every other word reads as before, and a write at or above the capacity is ignored. As steps: the write
changes one word of the buffer and nothing else; the read answers the word's value where it holds one. Where the
spec gives no value (BUSY, an index at or above `NMAX`, a word that holds none) the read answers some value, and
its count in `freeCount` is the model's choice (log entry 7). -/
def Obligations.HostBufferReadsBack : Prop :=
  (∀ (s : State) (capacity i : Nat) (v : Sample), s.state ≠ .busy →
    (i < capacity → hostBufValue capacity i (hostBufWrite capacity i v s) = some v ∧
      ∀ j, j ≠ i → (hostBufWrite capacity i v s).buf.read j = s.buf.read j) ∧
    (capacity ≤ i → hostBufWrite capacity i v s = s)) ∧
  (∀ (s : State) (i : Nat) (v : Sample) (rest : List HostMove),
    s.host = .bufWrite i v :: rest → s.state ≠ .busy →
    (i < Config.nmax → ∃ t, step s = .next t ∧ t = { s with host := rest, buf := t.buf } ∧
      t.buf.read i = some v ∧ ∀ j, j ≠ i → t.buf.read j = s.buf.read j) ∧
    (Config.nmax ≤ i → step s = .next { s with host := rest })) ∧
  (∀ (s : State) (i : Nat) (rest : List HostMove), s.host = .bufRead i :: rest →
    (∀ x, s.state ≠ .busy → i < Config.nmax → s.buf.read i = some x →
      step s = .next { s with host := rest, replies := .sample i x :: s.replies }) ∧
    (s.state = .busy ∨ Config.nmax ≤ i ∨ s.buf.read i = none → ∃ x, step s = .next { s with
      host := rest, replies := .sample i x :: s.replies, freeCount := s.freeCount + 1 }))

/-- R200, R39: Reset, in every `STATE`, puts every piece of the block's state at its reset value. -/
def Obligations.ResetFromEveryState : Prop :=
  ∀ (s : State) (rest : List HostMove), s.host = .reset :: rest →
    ∃ t, step s = .next t ∧
      (t.state = .idle ∧ t.ecode = .none ∧ t.eslot = 0 ∧ t.len = 0 ∧ t.srate = 0 ∧ t.fmeta = 0 ∧
        t.plen = 7 ∧ t.sp = 0 ∧ t.idx = 0 ∧ t.npos = 0) ∧
      (t.pinkRegs = ⟨0, 0, 0, 0, 0, 0, 0⟩ ∧ t.phT = 0 ∧ t.phR = 0 ∧ t.inc = 0 ∧ t.prev = 0) ∧
      (∀ j, t.buf.read j = none) ∧ t.prog.toList = defaultChain.map encode

/-- R39, R170: the state after reset; slot 3 of the program is the source's tremolo. -/
def Obligations.ResetState : Prop :=
  (State.reset.state = .idle ∧ State.reset.ecode = .none ∧ State.reset.eslot = 0 ∧
    State.reset.len = 0 ∧ State.reset.srate = 0 ∧ State.reset.fmeta = 0 ∧ State.reset.plen = 7 ∧
    State.reset.sp = 0 ∧ State.reset.idx = 0 ∧ State.reset.npos = 0) ∧
  (State.reset.pinkRegs = ⟨0, 0, 0, 0, 0, 0, 0⟩ ∧ State.reset.phT = 0 ∧ State.reset.phR = 0 ∧
    State.reset.inc = 0 ∧ State.reset.prev = 0) ∧
  (∀ j, State.reset.buf.read j = none) ∧
  State.reset.prog.toList =
    [0x01#8 ++ Config.defWhiteLevel ++ 0#32, 0x02#8 ++ Config.defPinkLevel ++ 0#32,
      0x03#8 ++ Config.defGain ++ 0#32, 0x0440C000003E4CCCCD#72, 0x05#8 ++ Config.defAlpha ++ 0#32,
      0x06#8 ++ Config.defRingHz ++ 0#32, 0x07#8 ++ Config.defBits ++ 0#32] ∧
  statusWord State.reset = 0

/-! ## The invariant -/

/-- The invariant holds after reset. -/
def Obligations.InvariantAfterReset : Prop := Inv State.reset

/-- Every step keeps the invariant: the buffer's canonical form and range, the recorded fault, and that a
BUSY block is in a legal slot of its program at an index of its buffer. -/
def Obligations.StepKeepsTheInvariant : Prop :=
  ∀ s t : State, Inv s → step s = .next t → Inv t

/-- From every state with the invariant a step answers a next state, or a BUSY block reads a word of the
buffer that holds no value: no other stop can be reached (R53, R161, R180). -/
def Obligations.OnlyAnUnwrittenSampleStops : Prop :=
  ∀ s : State, Inv s →
    (∃ t, step s = .next t) ∨
    (step s = .fault .unwrittenSample ∧ s.state = .busy ∧ s.buf.read s.idx.toNat = none)

/-! ## Whole runs -/

/-- R166, R215: from an accepted START with a loaded buffer, a run is BUSY for every number of steps below
`PLEN * (LEN + 1)` and DONE, with no fault recorded, at exactly that number. -/
def Obligations.StartedRunReachesDone : Prop :=
  ∀ s : State, ReadyToStart s →
    (∀ n, n < runSteps s → ∃ u, afterStart s n = .next u ∧ u.state = .busy) ∧
    ∃ t, afterStart s (runSteps s) = .next t ∧ t.state = .done ∧ t.ecode = .none ∧ t.eslot = 0

/-- R172 items 1 and 2, R205, R66: a run keeps the length, the format and the program, every word of the
buffer at or above `LEN`, and the presence of every word below it. -/
def Obligations.RunKeepsLengthAndFormat : Prop :=
  ∀ s t : State, ReadyToStart s → afterStart s (runSteps s) = .next t →
    t.len = s.len ∧ t.srate = s.srate ∧ t.fmeta = s.fmeta ∧ t.plen = s.plen ∧ t.prog = s.prog ∧
    (∀ j, s.len.toNat ≤ j → t.buf.read j = s.buf.read j) ∧
    (∀ j, j < s.len.toNat → ∃ y, t.buf.read j = some y)

/-- R172 item 4, R65: a run draws one noise word for each sample of each of its noise stages. -/
def Obligations.RunDrawsOneWordForEachNoiseSample : Prop :=
  ∀ s t : State, ReadyToStart s → afterStart s (runSteps s) = .next t →
    t.npos = s.npos + s.len.toNat * (programOf s).countP isNoise

/-- R172 item 3: a run whose program holds a normalizing operation leaves every Sample below `LEN` in
[-32767, 32767]; the operations after the last such one are bit crushers, which keep the range. -/
def Obligations.RunLeavesSamplesInRange : Prop :=
  ∀ s t : State, ReadyToStart s → afterStart s (runSteps s) = .next t →
    (∃ i ∈ programOf s, normalizes i = true) →
    ∀ j y, j < s.len.toNat → t.buf.read j = some y → InNormalRange y

/-- R172 item 6: a run without noise stages leaves a buffer of zeros a buffer of zeros, whatever the
operands and the sample rate. -/
def Obligations.RunWithoutNoiseKeepsZeros : Prop :=
  ∀ s t : State, ReadyToStart s → afterStart s (runSteps s) = .next t →
    (∀ i ∈ programOf s, isNoise i = false) →
    (∀ j, j < s.len.toNat → s.buf.read j = some 0) →
    ∀ j, j < s.len.toNat → t.buf.read j = some 0

/-- R172 item 1: output index `k` is a function of the input indices up to `k`: two runs of one program
that differ in the buffer above `k` alone agree up to `k`. -/
def Obligations.OutputDependsOnEarlierInputsOnly : Prop :=
  ∀ (s s' t t' : State) (k : Nat), ReadyToStart s → ReadyToStart s' →
    s'.len = s.len → s'.srate = s.srate → s'.plen = s.plen → s'.prog = s.prog → s'.npos = s.npos →
    (∀ j, j ≤ k → s'.buf.read j = s.buf.read j) →
    afterStart s (runSteps s) = .next t → afterStart s' (runSteps s') = .next t' →
    ∀ j, j ≤ k → t'.buf.read j = t.buf.read j

/-- R172 item 5: a run without noise stages is a function of the input buffer, `SRATE` and the program; it
draws nothing, and neither the noise position nor what the private registers held before matters. -/
def Obligations.RunWithoutNoiseIgnoresTheRest : Prop :=
  ∀ s s' t t' : State, ReadyToStart s → ReadyToStart s' →
    s'.len = s.len → s'.srate = s.srate → s'.plen = s.plen → s'.prog = s.prog →
    (∀ j, s'.buf.read j = s.buf.read j) →
    (∀ i ∈ programOf s, isNoise i = false) →
    afterStart s (runSteps s) = .next t → afterStart s' (runSteps s') = .next t' →
    t.npos = s.npos ∧ ∀ j, t'.buf.read j = t.buf.read j

/-! ## The host's side of a run -/

/-- R79: at most seven well-formed lines assemble, to one descriptor for each line, which decodes to the line's
operation; more than seven lines are an error, and nothing else comes of an assembly. -/
def Obligations.AssembledLinesDecode : Prop :=
  ∀ ls : List AsmLine,
    (7 < ls.length → assemble (.lines ls) = none) ∧
    (ls.length ≤ 7 → (∀ l ∈ ls, AsmLine.wellFormed l = true) → ∃ ds, assemble (.lines ls) = some ds ∧
      ds.length = ls.length ∧ ds.map decode = ls.map fun l => .legal (AsmLine.toInstr l)) ∧
    ∀ ds, assemble (.lines ls) = some ds →
      ds.length = ls.length ∧ ds.map decode = ls.map fun l => .legal (AsmLine.toInstr l)

/-- R80, R170: `PIPELINE` assembles to the reset content of the program store. -/
def Obligations.PipelineAssemblesToTheDefaultChain : Prop :=
  assemble .pipeline = some State.reset.prog.toList

/-- R203, R202: from a block that is IDLE or DONE the host's sequence, up to the START that ends it, leaves
the format, the samples and the program in place. -/
def Obligations.HostSequenceLoadsTheBlock : Prop :=
  ∀ (s : State) (srate fmeta : BitVec 32) (samples : List Sample) (program : List Descr),
    s.state = .idle ∨ s.state = .done → samples.length ≤ Config.nmax → program.length ≤ 7 →
    s.host = hostSequence srate fmeta samples program →
    ∃ t, Host.Core.run Sys2Proof.core (samples.length + program.length + 4) s = .next t ∧
      t.host = [.regWrite 0 1] ∧ t.state = s.state ∧ t.npos = s.npos ∧
      t.len.toNat = samples.length ∧ t.srate = srate ∧ t.fmeta = fmeta ∧
      t.plen.toNat = program.length ∧
      (∀ j (h : j < samples.length), t.buf.read j = some samples[j]) ∧
      (∀ k (h : k < program.length), fetchSlot t k = some program[k])
end

