-- ==== Sys2Proof/Laws/Encoding.lean ====
section
/-! SUPPORT. The fields of a descriptor: reading back what was written, putting a descriptor together from its
fields, and what a row's mask keeps. -/

namespace Sys2Proof

/-- A descriptor put together from three fields (R70). -/
def ofFields (op : BitVec 8) (a b : BitVec 32) : Descr := (op ++ a ++ b : BitVec (8 + 32 + 32))

theorem encode_eq (i : Instr) : encode i = ofFields i.opcode i.operandA i.operandB := rfl

@[simp] theorem opField_ofFields (op : BitVec 8) (a b : BitVec 32) : opField (ofFields op a b) = op := by
  unfold opField ofFields
  ext i hi
  rw [BitVec.getElem_extractLsb']
  simp only [BitVec.getLsbD_append]
  rw [if_neg (by omega), if_neg (by omega)]
  have : 64 + i - 32 - 32 = i := by omega
  rw [this, BitVec.getLsbD_eq_getElem hi]

@[simp] theorem aField_ofFields (op : BitVec 8) (a b : BitVec 32) : aField (ofFields op a b) = a := by
  unfold aField ofFields
  ext i hi
  rw [BitVec.getElem_extractLsb']
  simp only [BitVec.getLsbD_append]
  rw [if_neg (by omega), if_pos (by omega)]
  have : 32 + i - 32 = i := by omega
  rw [this, BitVec.getLsbD_eq_getElem hi]

@[simp] theorem bField_ofFields (op : BitVec 8) (a b : BitVec 32) : bField (ofFields op a b) = b := by
  unfold bField ofFields
  ext i hi
  rw [BitVec.getElem_extractLsb']
  simp only [BitVec.getLsbD_append]
  rw [if_pos (by omega)]
  have : 0 + i = i := by omega
  rw [this, BitVec.getLsbD_eq_getElem hi]

/-- A descriptor is its three fields. -/
theorem ofFields_fields (d : Descr) : ofFields (opField d) (aField d) (bField d) = d := by
  unfold opField aField bField ofFields
  ext i hi
  rw [← BitVec.getLsbD_eq_getElem, ← BitVec.getLsbD_eq_getElem, BitVec.getLsbD_append,
    BitVec.getLsbD_append]
  simp only [BitVec.getLsbD_extractLsb']
  split
  · rename_i h; simp [h]
  · split
    · rename_i h1 h2
      have e : 32 + (i - 32) = i := by omega
      simp [h2, e]
    · rename_i h1 h2
      have e : 64 + (i - 32 - 32) = i := by omega
      have h3 : i - 32 - 32 < 8 := by omega
      simp [h3, e]

theorem descr_ext {d e : Descr} (h1 : opField d = opField e) (h2 : aField d = aField e)
    (h3 : bField d = bField e) : d = e := by
  rw [← ofFields_fields d, ← ofFields_fields e, h1, h2, h3]

theorem opField_and (d e : Descr) : opField (d &&& e) = opField d &&& opField e := by
  unfold opField; ext i hi; simp

theorem aField_and (d e : Descr) : aField (d &&& e) = aField d &&& aField e := by
  unfold aField; ext i hi; simp

theorem bField_and (d e : Descr) : bField (d &&& e) = bField d &&& bField e := by
  unfold bField; ext i hi; simp

/-- A mask of whole fields keeps those fields (R74). -/
theorem and_mask_eq_iff (d m r : Descr) :
    d &&& m = r ↔ opField d &&& opField m = opField r ∧ aField d &&& aField m = aField r ∧
      bField d &&& bField m = bField r := by
  rw [← opField_and, ← aField_and, ← bField_and]
  constructor
  · rintro rfl; exact ⟨rfl, rfl, rfl⟩
  · rintro ⟨h1, h2, h3⟩; exact descr_ext h1 h2 h3

end Sys2Proof
end

