-- ==== Sys2Proof/Laws/Float.lean ====
section
/-! SUPPORT. Laws of the binary32 layer: rounding is monotone and exact on representable values, packing and
reading a pattern are inverse, and what each operator gives on finite operands. -/

namespace Sys2Proof.Machine

/-! ## Rounding to an integer -/

theorem rne_ge_div (n d : Nat) : n / d ≤ rne n d := by
  unfold rne; split
  · exact le_rfl
  · split <;> omega

theorem rne_le_div_succ (n d : Nat) : rne n d ≤ n / d + 1 := by
  unfold rne; split
  · omega
  · split <;> omega

theorem rne_mul_self (m : Nat) {d : Nat} (hd : 0 < d) : rne (m * d) d = m := by
  unfold rne
  simp [hd]

theorem rne_zero (d : Nat) : rne 0 d = 0 := by
  unfold rne; simp

theorem rne_mono {n d n' d' : Nat} (hd : 0 < d) (hd' : 0 < d') (h : n * d' ≤ n' * d) :
    rne n d ≤ rne n' d' := by
  have hq : n / d ≤ n' / d' := by
    rw [Nat.le_div_iff_mul_le hd']
    have h1 : n / d * d ≤ n := Nat.div_mul_le_self n d
    have h2 : n / d * d' * d ≤ n' * d := by nlinarith
    exact Nat.le_of_mul_le_mul_right h2 hd
  rcases Nat.lt_or_ge (n / d) (n' / d') with hlt | hge
  · exact (rne_le_div_succ n d).trans (le_trans hlt (rne_ge_div n' d'))
  · have heq : n / d = n' / d' := le_antisymm hq hge
    have e1 : d * (n / d) + n % d = n := Nat.div_add_mod n d
    have e2 : d' * (n' / d') + n' % d' = n' := Nat.div_add_mod n' d'
    have hr : n % d * d' ≤ n' % d' * d := by
      rw [← heq] at e2
      have a1 : n * d' = d * (n / d) * d' + n % d * d' := by rw [← Nat.add_mul, e1]
      have a2 : n' * d = d' * (n / d) * d + n' % d' * d := by rw [← Nat.add_mul, e2]
      have a3 : d * (n / d) * d' = d' * (n / d) * d := by ring
      omega
    unfold rne
    rw [← heq]
    rcases Nat.lt_trichotomy (2 * (n % d)) d with hl | hm | hg
    · rw [if_pos hl]; split
      · exact le_rfl
      · split <;> omega
    · have : d' ≤ 2 * (n' % d') := by
        have : d * d' ≤ d * (2 * (n' % d')) := by nlinarith
        exact Nat.le_of_mul_le_mul_left this hd
      rw [if_neg (by omega), if_neg (by omega), if_neg (by omega)]
      split <;> omega
    · have : d' < 2 * (n' % d') := by
        have : d * d' < d * (2 * (n' % d')) := by nlinarith
        exact Nat.lt_of_mul_lt_mul_left this
      rw [if_neg (by omega), if_pos hg, if_neg (by omega), if_pos this]

/-! ## Values of magnitude patterns -/

theorem magVal_small {p : Nat} (h : p < 2 ^ 23) : magVal p = p := by
  unfold magVal; rw [if_pos (Nat.div_eq_of_lt h), Nat.mod_eq_of_lt h]

theorem magVal_normal {e f : Nat} (hf : f < 2 ^ 23) :
    magVal ((e + 1) * 2 ^ 23 + f) = (2 ^ 23 + f) * 2 ^ e := by
  have hd : ((e + 1) * 2 ^ 23 + f) / 2 ^ 23 = e + 1 := by omega
  have hm : ((e + 1) * 2 ^ 23 + f) % 2 ^ 23 = f := by omega
  unfold magVal; rw [hd, hm]; simp

/-- Every magnitude pattern is a small one or one with a hidden bit. -/
theorem mag_cases (p : Nat) :
    p < 2 ^ 23 ∨ ∃ e f, f < 2 ^ 23 ∧ p = (e + 1) * 2 ^ 23 + f := by
  rcases Nat.lt_or_ge p (2 ^ 23) with h | h
  · exact .inl h
  · exact .inr ⟨p / 2 ^ 23 - 1, p % 2 ^ 23, Nat.mod_lt _ (by norm_num), by omega⟩

theorem magVal_lt_succ (p : Nat) : magVal p < magVal (p + 1) := by
  rcases mag_cases p with h | ⟨e, f, hf, rfl⟩
  · rw [magVal_small h]
    rcases Nat.lt_or_ge (p + 1) (2 ^ 23) with h' | h'
    · rw [magVal_small h']; omega
    · have : p + 1 = (0 + 1) * 2 ^ 23 + 0 := by omega
      rw [this, magVal_normal (by norm_num)]; omega
  · rw [magVal_normal hf]
    rcases Nat.lt_or_ge (f + 1) (2 ^ 23) with h' | h'
    · rw [Nat.add_assoc, magVal_normal h']
      exact Nat.mul_lt_mul_of_pos_right (by omega) (by positivity)
    · have : (e + 1) * 2 ^ 23 + f + 1 = (e + 1 + 1) * 2 ^ 23 + 0 := by omega
      rw [this, magVal_normal (by norm_num), Nat.pow_succ]
      have h1 : (2 ^ 23 + f) * 2 ^ e < (2 ^ 23 + 2 ^ 23) * 2 ^ e :=
        Nat.mul_lt_mul_of_pos_right (by omega) (by positivity)
      have h2 : (2 ^ 23 + 0) * (2 ^ e * 2) = (2 ^ 23 + 2 ^ 23) * 2 ^ e := by ring
      exact lt_of_lt_of_eq h1 h2.symm

theorem magVal_strictMono : StrictMono magVal := strictMono_nat_of_lt_succ magVal_lt_succ

theorem magVal_le_iff {p q : Nat} : magVal p ≤ magVal q ↔ p ≤ q := magVal_strictMono.le_iff_le

theorem magVal_lt_iff {p q : Nat} : magVal p < magVal q ↔ p < q := magVal_strictMono.lt_iff_lt

@[simp] theorem magVal_zero : magVal 0 = 0 := by decide

theorem magVal_eq_zero {p : Nat} : magVal p = 0 ↔ p = 0 := by
  rw [← magVal_zero]; exact magVal_strictMono.injective.eq_iff

theorem magVal_pos {p : Nat} (h : p ≠ 0) : 0 < magVal p :=
  Nat.pos_of_ne_zero fun h' => h (magVal_eq_zero.mp h')

theorem magVal_inf : magVal fInfMag = 2 ^ 23 * 2 ^ 254 := by
  have h : fInfMag = (254 + 1) * 2 ^ 23 + 0 := by unfold fInfMag; norm_num
  rw [h, magVal_normal (by norm_num), Nat.add_zero]

/-- Twenty-four significant bits at any scale are the value of some pattern. -/
theorem exists_magVal {m : Nat} (hm : m ≤ 2 ^ 24) (k : Nat) : ∃ p, magVal p = m * 2 ^ k := by
  induction k generalizing m with
  | zero =>
    rcases Nat.lt_or_ge m (2 ^ 23) with h | h
    · exact ⟨m, by rw [magVal_small h]; simp⟩
    · rcases Nat.lt_or_ge m (2 ^ 24) with h' | h'
      · exact ⟨(0 + 1) * 2 ^ 23 + (m - 2 ^ 23), by rw [magVal_normal (by omega)]; omega⟩
      · exact ⟨(1 + 1) * 2 ^ 23 + 0, by rw [magVal_normal (by norm_num)]; omega⟩
  | succ k ih =>
    rcases Nat.lt_or_ge m (2 ^ 23) with h | h
    · obtain ⟨p, hp⟩ := ih (m := 2 * m) (by omega)
      exact ⟨p, by rw [hp, Nat.pow_succ]; ring⟩
    · rcases Nat.lt_or_ge m (2 ^ 24) with h' | h'
      · refine ⟨(k + 1 + 1) * 2 ^ 23 + (m - 2 ^ 23), ?_⟩
        rw [magVal_normal (by omega), Nat.add_sub_cancel' h]
      · refine ⟨(k + 1 + 1 + 1) * 2 ^ 23 + 0, ?_⟩
        have : m = 2 ^ 24 := by omega
        rw [magVal_normal (by norm_num), this, Nat.pow_succ 2 (k + 1)]; ring

/-! ## Rounding to a pattern -/

/-- The last place of a value with `q` whole units. -/
theorem roundMag_le_inf (n d : Nat) : roundMag n d ≤ fInfMag := by
  unfold roundMag; exact min_le_left _ _

theorem roundMag_eq (n d : Nat) : roundMag n d =
    min fInfMag ((Nat.log2 (n / d) - 23) * 2 ^ 23 + rne n (d * 2 ^ (Nat.log2 (n / d) - 23))) := rfl

theorem roundMag_zero (d : Nat) : roundMag 0 d = 0 := by
  unfold roundMag; simp [rne_zero]

theorem log2_lt_24 {q : Nat} (h : q < 2 ^ 24) : Nat.log2 q - 23 = 0 := by
  rcases Nat.eq_zero_or_pos q with rfl | hq
  · simp
  · have := (Nat.log2_lt (by omega)).mpr h
    omega

theorem log2_normal {f e : Nat} (hf : f < 2 ^ 23) : Nat.log2 ((2 ^ 23 + f) * 2 ^ e) - 23 = e := by
  have hpos : (2 ^ 23 + f) * 2 ^ e ≠ 0 := by positivity
  have h1 : Nat.log2 ((2 ^ 23 + f) * 2 ^ e) < e + 24 := by
    rw [Nat.log2_lt hpos, Nat.pow_add, Nat.mul_comm (2 ^ e)]
    exact Nat.mul_lt_mul_of_pos_right (by omega) (by positivity)
  have h2 : e + 23 ≤ Nat.log2 ((2 ^ 23 + f) * 2 ^ e) := by
    rw [Nat.le_log2 hpos, Nat.pow_add, Nat.mul_comm (2 ^ e)]
    exact Nat.mul_le_mul_right _ (by omega)
  omega

/-- A representable value is rounded to itself. -/
theorem roundMag_exact (p : Nat) {d : Nat} (hd : 0 < d) : roundMag (magVal p * d) d = min fInfMag p := by
  rw [roundMag_eq, Nat.mul_div_cancel _ hd]
  rcases mag_cases p with h | ⟨e, f, hf, rfl⟩
  · rw [magVal_small h, log2_lt_24 (by omega)]
    simp [rne_mul_self _ hd]
  · have h1 : (2 ^ 23 + f) * 2 ^ e * d = (2 ^ 23 + f) * (d * 2 ^ e) := by ring
    have h2 : e * 2 ^ 23 + (2 ^ 23 + f) = (e + 1) * 2 ^ 23 + f := by omega
    rw [magVal_normal hf, log2_normal hf, h1, rne_mul_self _ (by positivity), h2]

theorem roundMag_mono {n d n' d' : Nat} (hd : 0 < d) (hd' : 0 < d') (h : n * d' ≤ n' * d) :
    roundMag n d ≤ roundMag n' d' := by
  have hq : n / d ≤ n' / d' := by
    rw [Nat.le_div_iff_mul_le hd']
    have h1 : n / d * d ≤ n := Nat.div_mul_le_self n d
    have h2 : n / d * d' * d ≤ n' * d := by nlinarith
    exact Nat.le_of_mul_le_mul_right h2 hd
  unfold roundMag
  simp only []
  apply min_le_min_left
  generalize hk : Nat.log2 (n / d) - 23 = k
  generalize hk' : Nat.log2 (n' / d') - 23 = k'
  have hkk : k ≤ k' := by
    rcases Nat.eq_zero_or_pos k with h0 | h0
    · omega
    · have hne : n / d ≠ 0 := by rintro h0'; rw [h0'] at hk; simp at hk; omega
      have hne' : n' / d' ≠ 0 := fun h0' => hne (Nat.le_zero.mp (h0' ▸ hq))
      have : Nat.log2 (n / d) ≤ Nat.log2 (n' / d') := by
        rw [Nat.le_log2 hne']
        exact ((Nat.le_log2 hne).mp le_rfl).trans hq
      omega
  rcases Nat.lt_or_ge k k' with hlt | hge
  · have up : rne n (d * 2 ^ k) ≤ 2 ^ 24 := by
      have : n / d < 2 ^ (k + 24) := by
        rcases Nat.eq_zero_or_pos (n / d) with h0 | h0
        · rw [h0]; positivity
        · rw [← Nat.log2_lt (by omega)]; omega
      have hn : n < 2 ^ (k + 24) * d := (Nat.div_lt_iff_lt_mul hd).mp this
      have := rne_mono (n := n) (d := d * 2 ^ k) (n' := 2 ^ 24) (d' := 1) (by positivity)
        (by norm_num) (by rw [Nat.pow_add] at hn; nlinarith)
      have e := rne_mul_self (2 ^ 24) (d := 1) (by norm_num)
      rw [Nat.mul_one] at e
      omega
    have low : 2 ^ 23 ≤ rne n' (d' * 2 ^ k') := by
      have : 2 ^ (k' + 23) ≤ n' / d' := by
        have hne' : n' / d' ≠ 0 := by
          rintro h0'; rw [h0'] at hk'; simp at hk'; omega
        rw [← Nat.le_log2 hne']; omega
      have hn : 2 ^ (k' + 23) * d' ≤ n' := (Nat.le_div_iff_mul_le hd').mp this
      refine le_trans ?_ (rne_ge_div _ _)
      rw [Nat.le_div_iff_mul_le (by positivity)]
      rw [Nat.pow_add] at hn; nlinarith
    have : (k + 1) * 2 ^ 23 ≤ k' * 2 ^ 23 := Nat.mul_le_mul_right _ hlt
    omega
  · have : k = k' := le_antisymm hkk hge
    subst this
    apply Nat.add_le_add_left
    apply rne_mono (by positivity) (by positivity)
    have : n * (d' * 2 ^ k) = n * d' * 2 ^ k := by ring
    have : n' * (d * 2 ^ k) = n' * d * 2 ^ k := by ring
    have : n * d' * 2 ^ k ≤ n' * d * 2 ^ k := Nat.mul_le_mul_right _ h
    omega

/-- What is at most the value of a pattern rounds to at most that pattern. -/
theorem roundMag_le {n d p : Nat} (hd : 0 < d) (h : n ≤ magVal p * d) : roundMag n d ≤ p := by
  have := roundMag_mono (n := n) (n' := magVal p * d) hd hd (Nat.mul_le_mul_right _ h)
  rw [roundMag_exact p hd] at this
  exact this.trans (min_le_right _ _)

/-- What is at least the value of a pattern rounds to at least that pattern, up to the infinity. -/
theorem le_roundMag {n d p : Nat} (hd : 0 < d) (hp : p ≤ fInfMag) (h : magVal p * d ≤ n) :
    p ≤ roundMag n d := by
  have := roundMag_mono (n := magVal p * d) (n' := n) hd hd (Nat.mul_le_mul_right _ h)
  rwa [roundMag_exact p hd, min_eq_right hp] at this

/-- The value of the rounding is at most that of a pattern that bounds the exact value. -/
theorem magVal_roundMag_le {n d p : Nat} (hd : 0 < d) (h : n ≤ magVal p * d) :
    magVal (roundMag n d) ≤ magVal p := magVal_le_iff.mpr (roundMag_le hd h)

/-- A value of at most 24 significant bits that is not past the largest finite one is kept. -/
theorem magVal_roundMag_exact {m k d : Nat} (hd : 0 < d) (hm : m ≤ 2 ^ 24) (hk : m * 2 ^ k ≤ 2 ^ 23 * 2 ^ 254) :
    magVal (roundMag (m * 2 ^ k * d) d) = m * 2 ^ k := by
  obtain ⟨p, hp⟩ := exists_magVal hm k
  have hle : p ≤ fInfMag := by
    rw [← magVal_le_iff, hp, magVal_inf]; exact hk
  rw [← hp, roundMag_exact p hd, min_eq_right hle]

/-! ## Packing and reading a pattern -/

theorem fNeg_eq (a : F32) : fNeg a = decide (2 ^ 31 ≤ a.toNat) := by
  unfold fNeg; rw [BitVec.msb_eq_decide]

theorem toNat_eq (a : F32) : a.toNat = (if fNeg a then 2 ^ 31 else 0) + fMag a := by
  rw [fNeg_eq]; unfold fMag
  have := a.isLt
  by_cases h : 2 ^ 31 ≤ a.toNat
  · simp only [h, decide_true, if_true]; omega
  · simp only [h, decide_false]; simp; omega

/-- A pattern is its sign and its magnitude. -/
theorem f32_ext {a b : F32} (hs : fNeg a = fNeg b) (hm : fMag a = fMag b) : a = b := by
  apply BitVec.eq_of_toNat_eq
  rw [toNat_eq a, toNat_eq b, hs, hm]

theorem fMag_lt (a : F32) : fMag a < 2 ^ 31 := Nat.mod_lt _ (by norm_num)

theorem fInfMag_lt : fInfMag < 2 ^ 31 := by decide

@[simp] theorem fMag_fPack (s : Bool) {p : Nat} (h : p < 2 ^ 31) : fMag (fPack s p) = p := by
  unfold fMag fPack
  cases s <;> simp only [BitVec.toNat_ofNat, if_true, Bool.false_eq_true, if_false] <;> omega

@[simp] theorem fNeg_fPack (s : Bool) {p : Nat} (h : p < 2 ^ 31) : fNeg (fPack s p) = s := by
  rw [fNeg_eq]; unfold fPack
  cases s <;> simp only [BitVec.toNat_ofNat, if_true, Bool.false_eq_true, if_false, decide_eq_true_eq,
    decide_eq_false_iff_not] <;> omega

theorem fPack_self (a : F32) : fPack (fNeg a) (fMag a) = a :=
  f32_ext (fNeg_fPack _ (fMag_lt a)) (fMag_fPack _ (fMag_lt a))

/-- The signed value of a sign and a magnitude. -/
def signed (s : Bool) (m : Nat) : Int := if s then -(m : Int) else m

@[simp] theorem signed_false (m : Nat) : signed false m = m := rfl

@[simp] theorem signed_true (m : Nat) : signed true m = -(m : Int) := rfl

@[simp] theorem signed_zero (s : Bool) : signed s 0 = 0 := by cases s <;> rfl

@[simp] theorem natAbs_signed (s : Bool) (m : Nat) : (signed s m).natAbs = m := by
  cases s <;> simp

theorem signed_not (s : Bool) (m : Nat) : signed (!s) m = -signed s m := by cases s <;> simp

theorem fVal_eq (a : F32) : fVal a = signed (fNeg a) (magVal (fMag a)) := rfl

@[simp] theorem fVal_fPack (s : Bool) {p : Nat} (h : p < 2 ^ 31) :
    fVal (fPack s p) = signed s (magVal p) := by
  rw [fVal_eq, fNeg_fPack s h, fMag_fPack s h]

theorem natAbs_fVal (a : F32) : (fVal a).natAbs = magVal (fMag a) := by
  rw [fVal_eq, natAbs_signed]

theorem fVal_eq_zero {a : F32} : fVal a = 0 ↔ fMag a = 0 := by
  rw [← Int.natAbs_eq_zero, natAbs_fVal, magVal_eq_zero]

theorem roundMag_lt (n d : Nat) : roundMag n d < 2 ^ 31 :=
  lt_of_le_of_lt (roundMag_le_inf n d) fInfMag_lt

theorem fIsNaN_fPack_roundMag (s : Bool) (n d : Nat) : fIsNaN (fPack s (roundMag n d)) = false := by
  unfold fIsNaN
  rw [fMag_fPack s (roundMag_lt n d)]
  simp [roundMag_le_inf]

theorem fVal_fPack_roundMag (s : Bool) (n d : Nat) :
    fVal (fPack s (roundMag n d)) = signed s (magVal (roundMag n d)) := fVal_fPack s (roundMag_lt n d)

/-! ## Kinds of values -/

theorem fIsFin_iff {a : F32} : fIsFin a = true ↔ fMag a < fInfMag := by simp [fIsFin]

theorem fIsNaN_iff {a : F32} : fIsNaN a = true ↔ fInfMag < fMag a := by simp [fIsNaN]

theorem fIsInf_iff {a : F32} : fIsInf a = true ↔ fMag a = fInfMag := by simp [fIsInf]

theorem fIsZero_iff {a : F32} : fIsZero a = true ↔ fMag a = 0 := by simp [fIsZero]

theorem fIsNaN_of_fin {a : F32} (h : fIsFin a = true) : fIsNaN a = false := by
  simp only [fIsFin, fIsNaN, decide_eq_true_eq, decide_eq_false_iff_not] at *; omega

theorem fIsInf_of_fin {a : F32} (h : fIsFin a = true) : fIsInf a = false := by
  simp only [fIsFin, fIsInf, decide_eq_true_eq, decide_eq_false_iff_not] at *; omega

theorem fin_or_inf {a : F32} (h : fIsNaN a = false) : fIsFin a = true ∨ fIsInf a = true := by
  simp only [fIsFin, fIsInf, fIsNaN, decide_eq_true_eq, decide_eq_false_iff_not] at *; omega

theorem fIsFin_of_zero {a : F32} (h : fIsZero a = true) : fIsFin a = true := by
  simp only [fIsFin, fIsZero, decide_eq_true_eq] at *
  rw [h]; decide

@[simp] theorem fIsNaN_fNaN : fIsNaN fNaN = true := by decide

/-! ## Negation -/

@[simp] theorem fMag_fNegate (a : F32) : fMag (fNegate a) = fMag a :=
  fMag_fPack _ (fMag_lt a)

@[simp] theorem fNeg_fNegate (a : F32) : fNeg (fNegate a) = !fNeg a :=
  fNeg_fPack _ (fMag_lt a)

@[simp] theorem fVal_fNegate (a : F32) : fVal (fNegate a) = -fVal a := by
  rw [fVal_eq, fVal_eq, fNeg_fNegate, fMag_fNegate, signed_not]

@[simp] theorem fIsNaN_fNegate (a : F32) : fIsNaN (fNegate a) = fIsNaN a := by simp [fIsNaN]

@[simp] theorem fIsInf_fNegate (a : F32) : fIsInf (fNegate a) = fIsInf a := by simp [fIsInf]

@[simp] theorem fIsFin_fNegate (a : F32) : fIsFin (fNegate a) = fIsFin a := by simp [fIsFin]

@[simp] theorem fIsZero_fNegate (a : F32) : fIsZero (fNegate a) = fIsZero a := by simp [fIsZero]

theorem fNegate_fNegate (a : F32) : fNegate (fNegate a) = a :=
  f32_ext (by simp) (by simp)

theorem fPack_not (s : Bool) {p : Nat} (h : p < 2 ^ 31) : fPack (!s) p = fNegate (fPack s p) :=
  f32_ext (by rw [fNeg_fNegate, fNeg_fPack _ h, fNeg_fPack _ h])
    (by rw [fMag_fNegate, fMag_fPack _ h, fMag_fPack _ h])

/-! ## Values in a range are not NaN, and bounds on values are bounds on magnitudes -/

theorem fLe_iff {a b : F32} : fLe a b = true ↔ fIsNaN a = false ∧ fIsNaN b = false ∧ fVal a ≤ fVal b := by
  simp [fLe, and_assoc]

theorem fLt_iff {a b : F32} : fLt a b = true ↔ fIsNaN a = false ∧ fIsNaN b = false ∧ fVal a < fVal b := by
  simp [fLt, and_assoc]

theorem fGt_iff {a b : F32} : fGt a b = true ↔ fIsNaN a = false ∧ fIsNaN b = false ∧ fVal b < fVal a := by
  unfold fGt; rw [fLt_iff]; tauto

end Sys2Proof.Machine
end

