-- ==== Sys2Proof/Laws/FloatOps.lean ====
section
/-! SUPPORT. What each float operator gives, as one rounding of the exact value, and the facts about zeros and
NaNs that the stages rest on. -/

namespace Sys2Proof.Machine

/-! ## One rounding of an integer number of units -/

/-- The value of an exact sum after rounding, in units of 2^-149. -/
def roundUnits (x : Int) : Int := signed (decide (x < 0)) (magVal (roundMag x.natAbs 1))

theorem roundUnits_zero : roundUnits 0 = 0 := by
  unfold roundUnits
  rw [Int.natAbs_zero, roundMag_zero, magVal_zero, signed_zero]

theorem roundUnits_of_neg {x : Int} (h : x < 0) :
    roundUnits x = -(magVal (roundMag x.natAbs 1) : Int) := by
  have e : decide (x < 0) = true := decide_eq_true h
  unfold roundUnits
  rw [e]
  exact signed_true _

theorem roundUnits_of_nonneg {x : Int} (h : 0 ≤ x) :
    roundUnits x = (magVal (roundMag x.natAbs 1) : Int) := by
  have e : decide (x < 0) = false := decide_eq_false (by omega)
  unfold roundUnits
  rw [e]
  exact signed_false _

theorem roundUnits_neg (x : Int) : roundUnits (-x) = -roundUnits x := by
  rcases lt_trichotomy x 0 with h | h | h
  · rw [roundUnits_of_neg h, roundUnits_of_nonneg (by omega), Int.natAbs_neg, Int.neg_neg]
  · rw [h, Int.neg_zero, roundUnits_zero, Int.neg_zero]
  · rw [roundUnits_of_nonneg h.le, roundUnits_of_neg (by omega), Int.natAbs_neg]

theorem roundUnits_mono {x y : Int} (h : x ≤ y) : roundUnits x ≤ roundUnits y := by
  have pos : ∀ {x y : Int}, 0 ≤ x → x ≤ y → roundUnits x ≤ roundUnits y := by
    intro x y hx hxy
    rw [roundUnits_of_nonneg hx, roundUnits_of_nonneg (hx.trans hxy)]
    exact_mod_cast magVal_le_iff.mpr
      (roundMag_mono (by norm_num) (by norm_num) (by omega))
  have nonneg : ∀ {x : Int}, 0 ≤ x → 0 ≤ roundUnits x := by
    intro x hx; rw [roundUnits_of_nonneg hx]; positivity
  rcases le_or_gt 0 x with hx | hx
  · exact pos hx h
  · rcases le_or_gt 0 y with hy | hy
    · have := nonneg (x := -x) (by omega)
      rw [roundUnits_neg] at this
      exact le_trans (by omega) (nonneg hy)
    · have := pos (x := -y) (y := -x) (by omega) (by omega)
      rw [roundUnits_neg, roundUnits_neg] at this
      omega

/-- A value that a pattern has is kept. -/
theorem roundUnits_fVal {a : F32} (h : fIsNaN a = false) : roundUnits (fVal a) = fVal a := by
  have hm : fMag a ≤ fInfMag := by simpa [fIsNaN] using h
  have hr : roundMag (magVal (fMag a)) 1 = fMag a := by
    have := roundMag_exact (fMag a) (d := 1) (by norm_num)
    rwa [Nat.mul_one, min_eq_right hm] at this
  unfold roundUnits
  rw [natAbs_fVal, hr, fVal_eq]
  rcases Nat.eq_zero_or_pos (magVal (fMag a)) with h0 | h0
  · rw [h0]; simp
  · cases hs : fNeg a
    · rw [decide_eq_false (by simp)]
    · rw [decide_eq_true (by simp; omega)]

/-- A value of at most 24 significant bits, not past the largest finite one, is kept. -/
theorem roundUnits_exact {m k : Nat} (s : Bool) (hm : m ≤ 2 ^ 24) (hk : m * 2 ^ k ≤ 2 ^ 23 * 2 ^ 254) :
    roundUnits (signed s (m * 2 ^ k)) = signed s (m * 2 ^ k) := by
  have h := magVal_roundMag_exact (d := 1) (by norm_num) hm hk
  rw [Nat.mul_one] at h
  have hpos : roundUnits ((m * 2 ^ k : Nat) : Int) = ((m * 2 ^ k : Nat) : Int) := by
    rw [roundUnits_of_nonneg (by positivity), Int.natAbs_natCast, h]
  cases s
  · exact hpos
  · rw [signed_true, roundUnits_neg, hpos]

theorem roundUnits_pos {x : Int} (h : 0 < x) : 0 < roundUnits x := by
  rw [roundUnits_of_nonneg h.le]
  have h1 : 1 ≤ roundMag x.natAbs 1 :=
    le_roundMag (p := 1) (by norm_num) (by decide) (by
      have : magVal 1 = 1 := by decide
      omega)
  exact_mod_cast magVal_pos (by omega)

/-! ## Addition and subtraction -/

theorem fAdd_fin {a b : F32} (ha : fIsFin a = true) (hb : fIsFin b = true) :
    fIsNaN (fAdd a b) = false ∧ fVal (fAdd a b) = roundUnits (fVal a + fVal b) := by
  unfold fAdd
  simp only [fIsNaN_of_fin ha, fIsNaN_of_fin hb, fIsInf_of_fin ha, fIsInf_of_fin hb, Bool.or_false,
    Bool.false_eq_true, if_false]
  split
  · rename_i h
    refine ⟨?_, ?_⟩
    · unfold fIsNaN; rw [fMag_fPack _ (by norm_num)]; decide
    · rw [fVal_fPack _ (by norm_num), h, roundUnits_zero, magVal_zero, signed_zero]
  · exact ⟨fIsNaN_fPack_roundMag _ _ _, fVal_fPack_roundMag _ _ _⟩

theorem fSub_fin {a b : F32} (ha : fIsFin a = true) (hb : fIsFin b = true) :
    fIsNaN (fSub a b) = false ∧ fVal (fSub a b) = roundUnits (fVal a - fVal b) := by
  have := fAdd_fin ha (b := fNegate b) (by simpa using hb)
  rw [fVal_fNegate] at this
  exact this

/-- A bound on the exact sum that some pattern has bounds the rounded sum. -/
theorem fVal_fAdd_le {a b c : F32} (ha : fIsFin a = true) (hb : fIsFin b = true)
    (hc : fIsNaN c = false) (h : fVal a + fVal b ≤ fVal c) : fVal (fAdd a b) ≤ fVal c := by
  rw [(fAdd_fin ha hb).2, ← roundUnits_fVal hc]; exact roundUnits_mono h

theorem le_fVal_fAdd {a b c : F32} (ha : fIsFin a = true) (hb : fIsFin b = true)
    (hc : fIsNaN c = false) (h : fVal c ≤ fVal a + fVal b) : fVal c ≤ fVal (fAdd a b) := by
  rw [(fAdd_fin ha hb).2, ← roundUnits_fVal hc]; exact roundUnits_mono h

theorem fVal_fSub_le {a b c : F32} (ha : fIsFin a = true) (hb : fIsFin b = true)
    (hc : fIsNaN c = false) (h : fVal a - fVal b ≤ fVal c) : fVal (fSub a b) ≤ fVal c := by
  rw [(fSub_fin ha hb).2, ← roundUnits_fVal hc]; exact roundUnits_mono h

theorem le_fVal_fSub {a b c : F32} (ha : fIsFin a = true) (hb : fIsFin b = true)
    (hc : fIsNaN c = false) (h : fVal c ≤ fVal a - fVal b) : fVal c ≤ fVal (fSub a b) := by
  rw [(fSub_fin ha hb).2, ← roundUnits_fVal hc]; exact roundUnits_mono h

theorem fAdd_nan {a b : F32} (h : fIsNaN a = true ∨ fIsNaN b = true) : fAdd a b = fNaN := by
  unfold fAdd
  rw [if_pos (by simpa using h)]

/-! ## Multiplication and division -/

theorem fMul_fin {a b : F32} (ha : fIsFin a = true) (hb : fIsFin b = true) :
    fMul a b = fPack (fNeg a != fNeg b) (roundMag (magVal (fMag a) * magVal (fMag b)) fOneUnits) := by
  unfold fMul
  simp only [fIsNaN_of_fin ha, fIsNaN_of_fin hb, fIsInf_of_fin ha, fIsInf_of_fin hb, Bool.or_false,
    Bool.false_eq_true, if_false]

theorem fMul_nan {a b : F32} (h : fIsNaN a = true ∨ fIsNaN b = true) : fMul a b = fNaN := by
  unfold fMul
  rw [if_pos (by simpa using h)]

theorem fDiv_nan {a b : F32} (h : fIsNaN a = true ∨ fIsNaN b = true) : fDiv a b = fNaN := by
  unfold fDiv
  rw [if_pos (by simpa using h)]

theorem fDiv_fin {a b : F32} (ha : fIsFin a = true) (hb : fIsFin b = true) (h0 : fIsZero b = false) :
    fDiv a b = fPack (fNeg a != fNeg b) (roundMag (magVal (fMag a) * fOneUnits) (magVal (fMag b))) := by
  unfold fDiv
  simp only [fIsNaN_of_fin ha, fIsNaN_of_fin hb, fIsInf_of_fin ha, fIsInf_of_fin hb, h0, Bool.or_false,
    Bool.false_eq_true, if_false]

theorem fOneUnits_pos : 0 < fOneUnits := by unfold fOneUnits; positivity

/-- A zero, or a NaN: what a zero sample becomes under any operand. -/
def ZeroOrNaN (a : F32) : Prop := fMag a = 0 ∨ fIsNaN a = true

theorem zeroOrNaN_fNaN : ZeroOrNaN fNaN := .inr (by decide)

theorem zeroOrNaN_fPack_zero (s : Bool) : ZeroOrNaN (fPack s 0) := .inl (fMag_fPack s (by norm_num))

/-- A product with a zero or a NaN. -/
theorem zeroOrNaN_fMul {a : F32} (h : ZeroOrNaN a) (b : F32) : ZeroOrNaN (fMul a b) := by
  rcases h with h | h
  · cases hn : fIsNaN b
    · rcases fin_or_inf hn with hb | hb
      · rw [fMul_fin (fIsFin_of_zero (fIsZero_iff.mpr h)) hb, h, magVal_zero, Nat.zero_mul, roundMag_zero]
        exact zeroOrNaN_fPack_zero _
      · have hz : fIsZero a = true := fIsZero_iff.mpr h
        have ha : fIsNaN a = false := fIsNaN_of_fin (fIsFin_of_zero hz)
        unfold fMul
        simp only [ha, hn, hb, hz, Bool.or_true, Bool.true_or, Bool.or_false, Bool.false_eq_true,
          if_false, if_true]
        exact zeroOrNaN_fNaN
    · rw [fMul_nan (.inr hn)]; exact zeroOrNaN_fNaN
  · rw [fMul_nan (.inl h)]; exact zeroOrNaN_fNaN

theorem fMul_comm (a b : F32) : fMul a b = fMul b a := by
  unfold fMul
  rw [Bool.or_comm (fIsNaN a), Bool.or_comm (fIsInf a), Bool.or_comm (fIsZero a),
    Nat.mul_comm (magVal (fMag a)), bne_comm (a := fNeg a)]

theorem zeroOrNaN_fMul_right {b : F32} (h : ZeroOrNaN b) (a : F32) : ZeroOrNaN (fMul a b) := by
  rw [fMul_comm]; exact zeroOrNaN_fMul h a

/-- A sum of two such values. -/
theorem zeroOrNaN_fAdd {a b : F32} (ha : ZeroOrNaN a) (hb : ZeroOrNaN b) : ZeroOrNaN (fAdd a b) := by
  rcases ha with ha | ha
  · rcases hb with hb | hb
    · have fa := fIsFin_of_zero (fIsZero_iff.mpr ha)
      have fb := fIsFin_of_zero (fIsZero_iff.mpr hb)
      left
      rw [← fVal_eq_zero, (fAdd_fin fa fb).2, fVal_eq_zero.mpr ha, fVal_eq_zero.mpr hb]
      exact roundUnits_zero
    · rw [fAdd_nan (.inr hb)]; exact zeroOrNaN_fNaN
  · rw [fAdd_nan (.inl ha)]; exact zeroOrNaN_fNaN

theorem zeroOrNaN_fNegate {a : F32} (h : ZeroOrNaN a) : ZeroOrNaN (fNegate a) := by
  rcases h with h | h
  · exact .inl (by simpa using h)
  · exact .inr (by simpa using h)

theorem zeroOrNaN_fSub {a b : F32} (ha : ZeroOrNaN a) (hb : ZeroOrNaN b) : ZeroOrNaN (fSub a b) :=
  zeroOrNaN_fAdd ha (zeroOrNaN_fNegate hb)

/-- A zero or a NaN divided by a finite value that is not zero. -/
theorem zeroOrNaN_fDiv {a b : F32} (h : ZeroOrNaN a) (hb : fIsFin b = true) (h0 : fIsZero b = false) :
    ZeroOrNaN (fDiv a b) := by
  rcases h with h | h
  · rw [fDiv_fin (fIsFin_of_zero (fIsZero_iff.mpr h)) hb h0, h, magVal_zero, Nat.zero_mul, roundMag_zero]
    exact zeroOrNaN_fPack_zero _
  · rw [fDiv_nan (.inl h)]; exact zeroOrNaN_fNaN

/-! ## Integers -/

theorem fOfInt_fVal (n : Int) :
    fIsNaN (fOfInt n) = false ∧ fVal (fOfInt n) = roundUnits (n * fOneUnits) := by
  refine ⟨fIsNaN_fPack_roundMag _ _ _, ?_⟩
  unfold fOfInt roundUnits
  rw [fVal_fPack_roundMag]
  have hp := fOneUnits_pos
  have e1 : (n * (fOneUnits : Int)).natAbs = n.natAbs * fOneUnits := by
    rw [Int.natAbs_mul, Int.natAbs_natCast]
  have e2 : decide (n * (fOneUnits : Int) < 0) = decide (n < 0) := by
    have : (n * (fOneUnits : Int) < 0) ↔ n < 0 := by
      constructor
      · intro h; by_contra hn; push Not at hn
        have : 0 ≤ n * (fOneUnits : Int) := by positivity
        omega
      · intro h; exact mul_neg_of_neg_of_pos h (by exact_mod_cast hp)
    simp [this]
  rw [e1, e2]

/-! ## normalize -/

theorem normalizeInt_of_zeroOrNaN {v : F32} (h : ZeroOrNaN v) : normalizeInt v = 0 := by
  unfold normalizeInt
  rcases h with h | h
  · have hf := fIsFin_of_zero (fIsZero_iff.mpr h)
    have hv : fVal v = 0 := fVal_eq_zero.mpr h
    have h1 : fGt v fMaxMag = false := by
      rw [← Bool.not_eq_true, fGt_iff, hv]
      rintro ⟨-, -, h⟩
      exact absurd h (by decide +kernel)
    have h2 : fLt v fMinMag = false := by
      rw [← Bool.not_eq_true, fLt_iff, hv]
      rintro ⟨-, -, h⟩
      exact absurd h (by decide +kernel)
    rw [if_neg (by simp [fIsNaN_of_fin hf]), h1, h2]
    simp [fTrunc, hv]
  · rw [if_pos h]

theorem normalize_of_zeroOrNaN {v : F32} (h : ZeroOrNaN v) : normalize v = 0 := by
  unfold normalize; rw [normalizeInt_of_zeroOrNaN h]; rfl

theorem fVal_fMaxMag : fVal fMaxMag = 32767 * fOneUnits := by decide +kernel

theorem fVal_fMinMag : fVal fMinMag = -(32767 * fOneUnits) := by decide +kernel

/-- `normalize` by the exact value: the cases of R98 without its comparisons of floats. -/
theorem normalizeInt_cases (v : F32) :
    (fIsNaN v = true ∧ normalizeInt v = 0) ∨
    (fIsNaN v = false ∧ 32767 * (fOneUnits : Int) < fVal v ∧ normalizeInt v = 32767) ∨
    (fIsNaN v = false ∧ fVal v < -(32767 * (fOneUnits : Int)) ∧ normalizeInt v = -32767) ∨
    (fIsNaN v = false ∧ -(32767 * (fOneUnits : Int)) ≤ fVal v ∧ fVal v ≤ 32767 * (fOneUnits : Int) ∧
      normalizeInt v = (fVal v).tdiv fOneUnits) := by
  unfold normalizeInt
  cases hn : fIsNaN v
  · right
    have hmax : fIsNaN fMaxMag = false := by decide
    have hmin : fIsNaN fMinMag = false := by decide
    by_cases h1 : fGt v fMaxMag = true
    · left; have := (fGt_iff.mp h1).2.2
      rw [fVal_fMaxMag] at this
      exact ⟨rfl, this, by simp [h1]⟩
    · right
      have h1' : fVal v ≤ 32767 * (fOneUnits : Int) := by
        by_contra hc; push Not at hc
        exact h1 (fGt_iff.mpr ⟨hn, hmax, by rw [fVal_fMaxMag]; exact hc⟩)
      by_cases h2 : fLt v fMinMag = true
      · left; have := (fLt_iff.mp h2).2.2
        rw [fVal_fMinMag] at this
        exact ⟨rfl, this, by simp [h1, h2]⟩
      · right
        have h2' : -(32767 * (fOneUnits : Int)) ≤ fVal v := by
          by_contra hc; push Not at hc
          exact h2 (fLt_iff.mpr ⟨hn, hmin, by rw [fVal_fMinMag]; exact hc⟩)
        exact ⟨rfl, h2', h1', by simp [h1, h2, fTrunc]⟩
  · left; exact ⟨rfl, by simp⟩

end Sys2Proof.Machine
end

