-- ==== Sys2Proof/Laws/FloatOrder.lean ====
section
/-! SUPPORT. Order and sign of the float operators: products and quotients by one sign are monotone, a factor
of magnitude at most 1 does not enlarge, and changing the sign of an operand changes the result's. -/

namespace Sys2Proof.Machine

theorem signed_mul (s t : Bool) (m n : Nat) : signed s m * signed t n = signed (s != t) (m * n) := by
  cases s <;> cases t <;> simp [signed]

theorem signed_le_of_le {s : Bool} {m n : Nat} (hs : s = false) (h : m ≤ n) : signed s m ≤ signed s n := by
  subst hs; simpa using h

/-- The value of a finite product: one rounding of the exact product. -/
theorem fVal_fMul {a b : F32} (ha : fIsFin a = true) (hb : fIsFin b = true) :
    fVal (fMul a b) = signed (fNeg a != fNeg b)
      (magVal (roundMag (magVal (fMag a) * magVal (fMag b)) fOneUnits)) := by
  rw [fMul_fin ha hb, fVal_fPack_roundMag]

theorem fIsNaN_fMul {a b : F32} (ha : fIsFin a = true) (hb : fIsFin b = true) :
    fIsNaN (fMul a b) = false := by
  rw [fMul_fin ha hb]; exact fIsNaN_fPack_roundMag _ _ _

theorem fVal_fDiv {a b : F32} (ha : fIsFin a = true) (hb : fIsFin b = true) (h0 : fIsZero b = false) :
    fVal (fDiv a b) = signed (fNeg a != fNeg b)
      (magVal (roundMag (magVal (fMag a) * fOneUnits) (magVal (fMag b)))) := by
  rw [fDiv_fin ha hb h0, fVal_fPack_roundMag]

theorem fIsNaN_fDiv {a b : F32} (ha : fIsFin a = true) (hb : fIsFin b = true) (h0 : fIsZero b = false) :
    fIsNaN (fDiv a b) = false := by
  rw [fDiv_fin ha hb h0]; exact fIsNaN_fPack_roundMag _ _ _

/-- A value that a sign and a magnitude give grows with the signed magnitude, for every function of the
magnitude that is monotone and keeps 0. -/
theorem signed_mono {f : Nat → Nat} (hf : ∀ m n, m ≤ n → f m ≤ f n) (h0 : f 0 = 0) {s t : Bool} {m n : Nat}
    (h : signed s m ≤ signed t n) : signed s (f m) ≤ signed t (f n) := by
  cases s <;> cases t <;> simp only [signed_true, signed_false] at *
  · exact_mod_cast hf m n (by omega)
  · have hm : m = 0 := by omega
    have hn : n = 0 := by omega
    rw [hm, hn, h0]; simp
  · omega
  · have := hf n m (by omega); omega

/-- Multiplying by a value that is not negative is monotone. -/
theorem fMul_mono {a a' b : F32} (ha : fIsFin a = true) (ha' : fIsFin a' = true) (hb : fIsFin b = true)
    (hb0 : 0 ≤ fVal b) (h : fVal a ≤ fVal a') : fVal (fMul a b) ≤ fVal (fMul a' b) := by
  rw [fVal_fMul ha hb, fVal_fMul ha' hb]
  have hf : ∀ m n, m ≤ n → magVal (roundMag (m * magVal (fMag b)) fOneUnits) ≤
      magVal (roundMag (n * magVal (fMag b)) fOneUnits) := fun m n hmn =>
    magVal_le_iff.mpr (roundMag_mono fOneUnits_pos fOneUnits_pos
      (Nat.mul_le_mul_right _ (Nat.mul_le_mul_right _ hmn)))
  have hz : magVal (roundMag (0 * magVal (fMag b)) fOneUnits) = 0 := by
    rw [Nat.zero_mul, roundMag_zero, magVal_zero]
  rw [fVal_eq, fVal_eq] at h
  have base := signed_mono hf hz h
  cases hnb : fNeg b
  · simpa using base
  · have : magVal (fMag b) = 0 := by
      rw [fVal_eq, hnb, signed_true] at hb0; omega
    rw [this]; simp [roundMag_zero]

/-- Negating the other operand negates the value of a product. -/
theorem fMul_fNegate {a b : F32} : fMul (fNegate a) b = fNegate (fMul a b) ∨
    (fIsNaN (fMul (fNegate a) b) = true ∧ fIsNaN (fMul a b) = true) := by
  unfold fMul
  simp only [fIsNaN_fNegate, fIsInf_fNegate, fIsZero_fNegate, fNeg_fNegate, fMag_fNegate]
  have hx : ((!fNeg a) != fNeg b) = !(fNeg a != fNeg b) := by cases fNeg a <;> cases fNeg b <;> rfl
  rw [hx]
  split
  · exact .inr ⟨by decide, by decide⟩
  · split
    · split
      · exact .inr ⟨by decide, by decide⟩
      · exact .inl (fPack_not _ fInfMag_lt)
    · exact .inl (fPack_not _ (roundMag_lt _ _))

theorem fDiv_fNegate {a b : F32} : fDiv (fNegate a) b = fNegate (fDiv a b) ∨
    (fIsNaN (fDiv (fNegate a) b) = true ∧ fIsNaN (fDiv a b) = true) := by
  unfold fDiv
  simp only [fIsNaN_fNegate, fIsInf_fNegate, fIsZero_fNegate, fNeg_fNegate, fMag_fNegate]
  have hx : ((!fNeg a) != fNeg b) = !(fNeg a != fNeg b) := by cases fNeg a <;> cases fNeg b <;> rfl
  rw [hx]
  split
  · exact .inr ⟨by decide, by decide⟩
  · split
    · split
      · exact .inr ⟨by decide, by decide⟩
      · exact .inl (fPack_not _ fInfMag_lt)
    · split
      · exact .inl (fPack_not _ (by norm_num))
      · split
        · split
          · exact .inr ⟨by decide, by decide⟩
          · exact .inl (fPack_not _ fInfMag_lt)
        · exact .inl (fPack_not _ (roundMag_lt _ _))

/-- A factor of magnitude at most 1 does not enlarge a finite value. -/
theorem magVal_fMul_le {a b : F32} (ha : fIsFin a = true) (hb : fIsFin b = true)
    (h : magVal (fMag b) ≤ fOneUnits) : magVal (fMag (fMul a b)) ≤ magVal (fMag a) := by
  rw [fMul_fin ha hb, fMag_fPack _ (roundMag_lt _ _)]
  exact magVal_roundMag_le fOneUnits_pos (Nat.mul_le_mul_left _ h)

theorem magVal_of_bounds {b : F32} (h1 : -(fOneUnits : Int) ≤ fVal b) (h2 : fVal b ≤ fOneUnits) :
    magVal (fMag b) ≤ fOneUnits := by
  have := natAbs_fVal b
  omega

/-- `normalize` does not enlarge: where the value's magnitude is at most an integer's, so is the result's. -/
theorem normalizeInt_abs_le {v : F32} {n : Nat} (h : magVal (fMag v) ≤ n * fOneUnits) :
    |normalizeInt v| ≤ n := by
  have hp : (0 : Int) < fOneUnits := by exact_mod_cast fOneUnits_pos
  have hv := natAbs_fVal v
  have h' : |fVal v| ≤ n * fOneUnits := by
    rw [Int.abs_eq_natAbs, hv]; exact_mod_cast h
  have hbig : ∀ x : Int, 32767 * (fOneUnits : Int) < x → x ≤ n * fOneUnits → (32767 : Int) ≤ n := by
    intro x h1 h2
    exact (lt_of_mul_lt_mul_right (h1.trans_le h2) hp.le).le
  rcases normalizeInt_cases v with ⟨-, e⟩ | ⟨-, hb, e⟩ | ⟨-, hb, e⟩ | ⟨-, -, -, e⟩
  · rw [e]; simp
  · rw [e]
    exact hbig _ hb ((le_abs_self _).trans h')
  · rw [e]
    exact hbig (-fVal v) (by linarith) ((neg_le_abs _).trans h')
  · rw [e, Int.abs_eq_natAbs, Int.natAbs_tdiv, Int.natAbs_natCast, hv]
    exact_mod_cast Nat.div_le_of_le_mul (by rw [Nat.mul_comm]; exact h)

/-- `normalize` of a negated value is the negated Sample. -/
theorem normalizeInt_fNegate (v : F32) : normalizeInt (fNegate v) = -normalizeInt v := by
  have hp : (0 : Int) < fOneUnits := by exact_mod_cast fOneUnits_pos
  have hv := fVal_fNegate v
  have hn := fIsNaN_fNegate v
  rcases normalizeInt_cases v with ⟨a, e⟩ | ⟨a, hb, e⟩ | ⟨a, hb, e⟩ | ⟨a, h1, h2, e⟩ <;>
    rcases normalizeInt_cases (fNegate v) with ⟨a', e'⟩ | ⟨a', hb', e'⟩ | ⟨a', hb', e'⟩ | ⟨a', h1', h2', e'⟩ <;>
    rw [hn, a] at a' <;> try (cases a')
  all_goals rw [e, e']
  all_goals try rfl
  all_goals try (rw [hv] at *; exfalso; linarith)
  rw [hv, Int.neg_tdiv]

/-- `normalize` is monotone. -/
theorem normalizeInt_mono {u v : F32} (hu : fIsNaN u = false) (hv : fIsNaN v = false)
    (h : fVal u ≤ fVal v) : normalizeInt u ≤ normalizeInt v := by
  have hp : (0 : Int) < fOneUnits := by exact_mod_cast fOneUnits_pos
  have lo : ∀ x : Int, -(32767 * (fOneUnits : Int)) ≤ x → -32767 ≤ x.tdiv fOneUnits := by
    intro x hx
    have := Int.tdiv_le_tdiv hp hx
    rwa [Int.neg_tdiv, Int.mul_tdiv_cancel _ hp.ne'] at this
  have hi : ∀ x : Int, x ≤ 32767 * (fOneUnits : Int) → x.tdiv fOneUnits ≤ 32767 := by
    intro x hx
    have := Int.tdiv_le_tdiv hp hx
    rwa [Int.mul_tdiv_cancel _ hp.ne'] at this
  rcases normalizeInt_cases u with ⟨a, e⟩ | ⟨a, hb, e⟩ | ⟨a, hb, e⟩ | ⟨a, h1, h2, e⟩ <;>
    rcases normalizeInt_cases v with ⟨a', e'⟩ | ⟨a', hb', e'⟩ | ⟨a', hb', e'⟩ | ⟨a', h1', h2', e'⟩
  all_goals try (rw [hu] at a; cases a)
  all_goals try (rw [hv] at a'; cases a')
  all_goals rw [e, e']
  all_goals try norm_num
  · linarith
  · linarith
  · exact lo _ h1'
  · exact hi _ h2
  · linarith
  · exact Int.tdiv_le_tdiv hp h

end Sys2Proof.Machine
end

