-- ==== Sys2Proof/Laws/Memory.lean ====
section
/-! SUPPORT. Laws of the sample buffer: a read after a write, the canonical form and the range of indices. -/

namespace Sys2Proof.Machine

theorem Memory.read_nil (i : Nat) : Memory.read [] i = none := rfl

theorem Memory.read_cons (j : Nat) (v : Sample) (m : Memory) (i : Nat) :
    Memory.read ((j, v) :: m) i = if j = i then some v else Memory.read m i := rfl

/-- A word read after a write of it holds the value written. -/
@[simp] theorem Memory.read_write_same (m : Memory) (i : Nat) (v : Sample) :
    Memory.read (Memory.write m i v) i = some v := by
  induction m with
  | nil => simp [Memory.write, Memory.read]
  | cons c m ih =>
    obtain ⟨j, w⟩ := c
    unfold Memory.write
    split
    · simp [Memory.read]
    · split
      · simp [Memory.read]
      · rename_i h1 h2
        rw [Memory.read_cons, if_neg (fun h => h2 h.symm), ih]

/-- A write leaves every other word alone. -/
theorem Memory.read_write_ne (m : Memory) {i j : Nat} (v : Sample) (h : j ≠ i) :
    Memory.read (Memory.write m i v) j = Memory.read m j := by
  induction m with
  | nil => simp [Memory.write, Memory.read, Ne.symm h]
  | cons c m ih =>
    obtain ⟨k, w⟩ := c
    unfold Memory.write
    split
    · rw [Memory.read_cons, if_neg (Ne.symm h)]
    · split
      · rename_i h1 h2
        subst h2
        rw [Memory.read_cons, if_neg (Ne.symm h), Memory.read_cons, if_neg (Ne.symm h)]
      · rw [Memory.read_cons, Memory.read_cons, ih]

/-- The index of every cell of a written buffer is the written one or an old one. -/
theorem Memory.mem_write {m : Memory} {i : Nat} {v : Sample} {c : Nat × Sample}
    (h : c ∈ Memory.write m i v) : c.1 = i ∨ c ∈ m := by
  induction m with
  | nil => simp [Memory.write] at h; simp [h]
  | cons d m ih =>
    obtain ⟨k, w⟩ := d
    unfold Memory.write at h
    split at h
    · rcases List.mem_cons.mp h with h | h
      · simp [h]
      · exact .inr h
    · split at h
      · rcases List.mem_cons.mp h with h | h
        · simp [h]
        · exact .inr (List.mem_cons_of_mem _ h)
      · rcases List.mem_cons.mp h with h | h
        · right; simp [h]
        · rcases ih h with h | h
          · exact .inl h
          · exact .inr (List.mem_cons_of_mem _ h)

/-- A word that holds a value is a cell. -/
theorem Memory.mem_of_read {m : Memory} {i : Nat} {v : Sample} (h : Memory.read m i = some v) :
    (i, v) ∈ m := by
  induction m with
  | nil => simp [Memory.read_nil] at h
  | cons d m ih =>
    obtain ⟨k, w⟩ := d
    rw [Memory.read_cons] at h
    split at h
    · rename_i hk; subst hk; simp at h; simp [h]
    · exact List.mem_cons_of_mem _ (ih h)

/-- The first index of a canonical buffer is below every other. -/
theorem Memory.wf_cons {i : Nat} {v : Sample} {m : Memory} :
    Memory.wf ((i, v) :: m) = true ↔ (∀ c ∈ m.head?, i < c.1) ∧ Memory.wf m = true := by
  cases m with
  | nil => simp [Memory.wf]
  | cons d m => obtain ⟨j, w⟩ := d; simp [Memory.wf]

/-- Writing keeps the canonical form. -/
theorem Memory.wf_write {m : Memory} (h : Memory.wf m = true) (i : Nat) (v : Sample) :
    Memory.wf (Memory.write m i v) = true := by
  induction m with
  | nil => rfl
  | cons d m ih =>
    obtain ⟨k, w⟩ := d
    unfold Memory.write
    split
    · rename_i hlt
      rw [Memory.wf_cons]; exact ⟨by simpa using hlt, h⟩
    · rename_i hnlt
      rw [Memory.wf_cons] at h
      split
      · rename_i heq
        subst heq
        rw [Memory.wf_cons]; exact h
      · rename_i hne
        rw [Memory.wf_cons]
        refine ⟨?_, ih h.2⟩
        intro c hc
        cases m with
        | nil => simp [Memory.write] at hc; rw [← hc]; simp; omega
        | cons e m =>
          obtain ⟨l, x⟩ := e
          have hk : k < l := by simpa using h.1
          unfold Memory.write at hc
          split at hc
          · simp at hc; rw [← hc]; simp; omega
          · split at hc
            · simp at hc; rw [← hc]; simp; omega
            · simp at hc; rw [← hc]; exact hk

/-- A write at an index of the buffer's range keeps every cell in the range. -/
theorem Memory.write_inRange {m : Memory} {n i : Nat} {v : Sample} (hm : ∀ c ∈ m, c.1 < n) (hi : i < n) :
    ∀ c ∈ Memory.write m i v, c.1 < n := by
  intro c hc
  rcases Memory.mem_write hc with h | h
  · omega
  · exact hm c h

/-- The buffer after reset has the canonical form: no word is listed. -/
theorem Memory.wf_reset : Memory.wf State.reset.buf = true := rfl

end Sys2Proof.Machine
end

