-- ==== Sys2Proof/Laws/Nearest.lean ====
section
/-! SUPPORT. The rounding is to nearest, ties to even: no pattern is nearer to the exact value than the one it
gives. -/

namespace Sys2Proof.Machine

/-- `rne` gives a nearest integer, and an even one where another is as near. -/
theorem rne_nearest (n : Nat) {d : Nat} (hd : 0 < d) (z : Int) :
    |(rne n d : Int) * d - n| ≤ |z * d - n| ∧
    (|(rne n d : Int) * d - n| = |z * d - n| → z ≠ rne n d → rne n d % 2 = 0) := by
  have e : d * (n / d) + n % d = n := Nat.div_add_mod n d
  have hr : n % d < d := Nat.mod_lt _ hd
  generalize hq : n / d = q at *
  generalize hρ : n % d = ρ at *
  have hn : (n : Int) = d * q + ρ := by exact_mod_cast e.symm
  have hz : z ≤ q ∨ (q : Int) + 1 ≤ z := by omega
  have key : ∀ w : Int, w * d - n = (w - q) * d - ρ := by intro w; rw [hn]; ring
  have hlow : z ≤ q → |z * d - n| = (q - z) * d + ρ := by
    intro h
    rw [key, abs_of_nonpos]
    · ring
    · have : (z - q) * (d : Int) ≤ 0 := mul_nonpos_of_nonpos_of_nonneg (by omega) (by omega)
      omega
  have hhigh : (q : Int) + 1 ≤ z → |z * d - n| = (z - q) * d - ρ := by
    intro h
    rw [key, abs_of_nonneg]
    have : 1 * (d : Int) ≤ (z - q) * d := Int.mul_le_mul_of_nonneg_right (by omega) (by omega)
    omega
  have hq0 : |(q : Int) * d - n| = ρ := by rw [key]; simp
  have hq1 : |((q + 1 : Nat) : Int) * d - n| = d - ρ := by
    rw [key, abs_of_nonneg]
    · push_cast; ring
    · push_cast
      have : ((q : Int) + 1 - q) * d = d := by ring
      omega
  have hlow' : z ≤ q → z ≠ q → (d : Int) ≤ (q - z) * d := by
    intro h h'
    have : 1 * (d : Int) ≤ (q - z) * d := Int.mul_le_mul_of_nonneg_right (by omega) (by omega)
    omega
  have hhigh' : (q : Int) + 1 ≤ z → z ≠ q + 1 → 2 * (d : Int) ≤ (z - q) * d := by
    intro h h'
    exact Int.mul_le_mul_of_nonneg_right (by omega) (by omega)
  have hval : (2 * ρ < d ∧ rne n d = q) ∨ (d < 2 * ρ ∧ rne n d = q + 1) ∨
      (2 * ρ = d ∧ rne n d = q + q % 2) := by
    unfold rne
    rw [hq, hρ]
    rcases lt_trichotomy (2 * ρ) d with h | h | h
    · left; exact ⟨h, by rw [if_pos h]⟩
    · right; right; exact ⟨h, by rw [if_neg (by omega), if_neg (by omega)]⟩
    · right; left; exact ⟨h, by rw [if_neg (by omega), if_pos h]⟩
  rcases hval with ⟨h, hv⟩ | ⟨h, hv⟩ | ⟨h, hv⟩
  · rw [hv, hq0]
    rcases hz with hz | hz
    · rw [hlow hz]
      by_cases hzq : z = q
      · subst hzq; simp
      · have := hlow' hz hzq; constructor <;> intros <;> omega
    · rw [hhigh hz]
      by_cases hzq : z = q + 1
      · subst hzq; simp only [add_sub_cancel_left, one_mul]; constructor <;> intros <;> omega
      · have := hhigh' hz hzq; constructor <;> intros <;> omega
  · rw [hv, hq1]
    rcases hz with hz | hz
    · rw [hlow hz]
      by_cases hzq : z = q
      · subst hzq; simp only [sub_self, zero_mul, zero_add]; constructor <;> intros <;> omega
      · have := hlow' hz hzq; constructor <;> intros <;> omega
    · rw [hhigh hz]
      by_cases hzq : z = q + 1
      · subst hzq; simp only [add_sub_cancel_left, one_mul]
        exact ⟨le_rfl, fun _ hne => absurd (by push_cast; rfl) hne⟩
      · have := hhigh' hz hzq; constructor <;> intros <;> omega
  · have hboth : |((q + q % 2 : Nat) : Int) * d - n| = ρ := by
      rcases Nat.mod_two_eq_zero_or_one q with h0 | h1
      · rw [h0, Nat.add_zero, hq0]
      · rw [h1, hq1]; omega
    rw [hv, hboth]
    refine ⟨?_, fun _ _ => by omega⟩
    rcases hz with hz | hz
    · rw [hlow hz]
      by_cases hzq : z = q
      · subst hzq; simp
      · have := hlow' hz hzq; omega
    · rw [hhigh hz]
      by_cases hzq : z = q + 1
      · subst hzq; simp only [add_sub_cancel_left, one_mul]; omega
      · have := hhigh' hz hzq; omega

theorem magVal_le_two_pow {p : Nat} (h : p ≤ 2 ^ 24) : magVal p = p := by
  rcases mag_cases p with hs | ⟨e, f, hf, rfl⟩
  · exact magVal_small hs
  · have : e = 0 ∨ (e = 1 ∧ f = 0) := by omega
    rw [magVal_normal hf]
    rcases this with rfl | ⟨rfl, rfl⟩ <;> omega

/-- The value of the pattern that a significand of 24 bits at scale `k` makes. -/
theorem magVal_scaled {m k : Nat} (h1 : 2 ^ 23 ≤ m) (h2 : m ≤ 2 ^ 24) :
    magVal (k * 2 ^ 23 + m) = m * 2 ^ k := by
  rcases Nat.lt_or_ge m (2 ^ 24) with h | h
  · have e : k * 2 ^ 23 + m = (k + 1) * 2 ^ 23 + (m - 2 ^ 23) := by omega
    rw [e, magVal_normal (by omega), Nat.add_sub_cancel' h1]
  · have hm : m = 2 ^ 24 := by omega
    have e : k * 2 ^ 23 + m = (k + 1 + 1) * 2 ^ 23 + 0 := by omega
    rw [e, magVal_normal (by norm_num), hm, Nat.pow_succ]; ring

/-- A pattern at or above a binade has a value that is a multiple of that binade's last place. -/
theorem magVal_multiple {p k : Nat} (h : (k + 1) * 2 ^ 23 ≤ p) : ∃ z, magVal p = z * 2 ^ k := by
  rcases mag_cases p with hs | ⟨e, f, hf, rfl⟩
  · omega
  · have hk : k ≤ e := by
      by_contra hc
      have : (e + 1 + 1) * 2 ^ 23 ≤ (k + 1) * 2 ^ 23 := Nat.mul_le_mul_right _ (by omega)
      omega
    refine ⟨(2 ^ 23 + f) * 2 ^ (e - k), ?_⟩
    rw [magVal_normal hf, Nat.mul_assoc, ← Nat.pow_add]
    congr 2; omega

theorem two_pow_24_le_inf : 2 ^ 24 ≤ fInfMag := by decide

theorem over_scale {k m : Nat} (h : fInfMag < k * 2 ^ 23 + m) (hm : m ≤ 2 ^ 24) : 254 ≤ k := by
  have e : fInfMag = 255 * 2 ^ 23 := by decide
  rw [e] at h
  omega

theorem scaled_mod_two (k m : Nat) : (k * 2 ^ 23 + m) % 2 = m % 2 := by omega

theorem magVal_below {p k : Nat} (h : p < (k + 1) * 2 ^ 23) : magVal p < 2 ^ 23 * 2 ^ k := by
  obtain ⟨f, hf⟩ : ∃ f, f = 0 := ⟨0, rfl⟩
  have e : magVal ((k + 1) * 2 ^ 23 + f) = (2 ^ 23 + f) * 2 ^ k := magVal_normal (by rw [hf]; norm_num)
  have e2 : 2 ^ 23 * 2 ^ k = (2 ^ 23 + f) * 2 ^ k := by rw [hf, Nat.add_zero]
  rw [e2, ← e]
  exact magVal_lt_iff.mpr (Nat.lt_add_right f h)

/-- Past the largest pattern, a greater pattern is nearer. -/
theorem over_nearest {b p n d : Nat} (hd : 0 < d) (hp : p ≤ b) (h : magVal b * d ≤ n) :
    |(magVal b : Int) * d - n| ≤ |(magVal p : Int) * d - n| ∧
    (|(magVal b : Int) * d - n| = |(magVal p : Int) * d - n| → p ≠ b → b % 2 = 0) := by
  have hpb : (magVal p : Int) * d ≤ magVal b * d := by
    exact_mod_cast Nat.mul_le_mul_right d (magVal_le_iff.mpr hp)
  have hb : (magVal b : Int) * d ≤ n := by exact_mod_cast h
  rw [abs_of_nonpos (by omega), abs_of_nonpos (by omega)]
  refine ⟨by omega, fun he hne => absurd ?_ hne⟩
  have e : (magVal p : Int) * d = magVal b * d := by omega
  have e' : magVal p * d = magVal b * d := by exact_mod_cast e
  exact magVal_strictMono.injective (Nat.eq_of_mul_eq_mul_right hd e')

/-- The pattern `roundMag` gives is a nearest one, and an even one where another is as near. -/
theorem roundMag_nearest (n : Nat) {d p : Nat} (hd : 0 < d) (hp : p ≤ fInfMag) :
    |(magVal (roundMag n d) : Int) * d - n| ≤ |(magVal p : Int) * d - n| ∧
    (|(magVal (roundMag n d) : Int) * d - n| = |(magVal p : Int) * d - n| →
      p ≠ roundMag n d → roundMag n d % 2 = 0) := by
  rcases Nat.lt_or_ge (n / d) (2 ^ 24) with hsmall | hbig
  · have hk : Nat.log2 (n / d) - 23 = 0 := log2_lt_24 hsmall
    have hm : rne n d ≤ 2 ^ 24 := (rne_le_div_succ n d).trans hsmall
    have hr : roundMag n d = rne n d := by
      rw [roundMag_eq, hk, Nat.pow_zero, Nat.mul_one, Nat.zero_mul, Nat.zero_add]
      exact min_eq_right (hm.trans two_pow_24_le_inf)
    rw [hr, magVal_le_two_pow hm]
    obtain ⟨h1, h2⟩ := rne_nearest n hd (magVal p : Int)
    refine ⟨h1, fun he hne => h2 he ?_⟩
    intro hc
    have hc' : magVal p = magVal (rne n d) := by rw [magVal_le_two_pow hm]; exact_mod_cast hc
    exact hne (magVal_strictMono.injective hc')
  · have hne : n / d ≠ 0 := by omega
    have hlog : 24 ≤ Nat.log2 (n / d) := (Nat.le_log2 hne).mpr hbig
    obtain ⟨k, hk⟩ : ∃ k, Nat.log2 (n / d) = k + 23 := ⟨Nat.log2 (n / d) - 23, by omega⟩
    have hk' : Nat.log2 (n / d) - 23 = k := by omega
    have hlo : 2 ^ (k + 23) ≤ n / d := (Nat.le_log2 hne).mp (by omega)
    have hhi : n / d < 2 ^ (k + 24) := (Nat.log2_lt hne).mp (by omega)
    have hnlo : 2 ^ (k + 23) * d ≤ n := (Nat.le_div_iff_mul_le hd).mp hlo
    have hnhi : n < 2 ^ (k + 24) * d := (Nat.div_lt_iff_lt_mul hd).mp hhi
    have hD : 0 < d * 2 ^ k := by positivity
    have hm1 : 2 ^ 23 ≤ rne n (d * 2 ^ k) := by
      refine le_trans ?_ (rne_ge_div _ _)
      rw [Nat.le_div_iff_mul_le hD]
      rw [Nat.pow_add] at hnlo; nlinarith
    have hm2 : rne n (d * 2 ^ k) ≤ 2 ^ 24 := by
      have := rne_mono (n := n) (d := d * 2 ^ k) (n' := 2 ^ 24) (d' := 1) hD (by norm_num)
        (by rw [Nat.pow_add] at hnhi; nlinarith)
      have e := rne_mul_self (2 ^ 24) (d := 1) (by norm_num)
      rw [Nat.mul_one] at e
      omega
    generalize hmdef : rne n (d * 2 ^ k) = m at *
    have hr : roundMag n d = min fInfMag (k * 2 ^ 23 + m) := by rw [roundMag_eq, hk', hmdef]
    rcases Nat.lt_or_ge fInfMag (k * 2 ^ 23 + m) with hover | hfit
    · have hr' : roundMag n d = fInfMag := by rw [hr]; exact min_eq_left hover.le
      have hk254 : 254 ≤ k := over_scale hover hm2
      have hmag : magVal fInfMag * d ≤ n := by
        refine le_trans (Nat.mul_le_mul_right d ?_) hnlo
        rw [magVal_inf, Nat.pow_add, Nat.mul_comm]
        exact Nat.mul_le_mul_right _ (Nat.pow_le_pow_right (by norm_num) hk254)
      rw [hr']
      exact over_nearest hd hp hmag
    · have hr' : roundMag n d = k * 2 ^ 23 + m := by rw [hr]; exact min_eq_right hfit
      have hval : magVal (roundMag n d) = m * 2 ^ k := by rw [hr', magVal_scaled hm1 hm2]
      have hsc : ∀ z : Int, (z * 2 ^ k) * (d : Int) - n = z * ((d * 2 ^ k : Nat) : Int) - n := by
        intro z; push_cast; ring
      have hpar : roundMag n d % 2 = m % 2 := by rw [hr', scaled_mod_two]
      rw [hpar, hval]
      push_cast
      rw [hsc]
      rcases Nat.lt_or_ge p ((k + 1) * 2 ^ 23) with hlow | hhigh
      · -- below the binade: the binade's first value is nearer
        have hL : magVal p < 2 ^ 23 * 2 ^ k := magVal_below hlow
        obtain ⟨h1, -⟩ := rne_nearest n hD (2 ^ 23 : Int)
        rw [hmdef, ← hsc (2 ^ 23)] at h1
        have hLd : ((2 : Int) ^ 23 * 2 ^ k) * d ≤ n := by
          have : 2 ^ 23 * 2 ^ k * d ≤ n := by rw [Nat.pow_add, Nat.mul_comm (2 ^ k)] at hnlo; exact hnlo
          exact_mod_cast this
        have hpL : (magVal p : Int) * d < ((2 : Int) ^ 23 * 2 ^ k) * d := by
          have : magVal p * d < 2 ^ 23 * 2 ^ k * d := Nat.mul_lt_mul_of_pos_right hL hd
          exact_mod_cast this
        have e1 : |((2 : Int) ^ 23 * 2 ^ k) * d - n| = n - ((2 : Int) ^ 23 * 2 ^ k) * d := by
          rw [abs_of_nonpos (by omega)]; ring
        have e2 : |(magVal p : Int) * d - n| = n - magVal p * d := by
          rw [abs_of_nonpos (by omega)]; ring
        rw [e1] at h1
        rw [e2]
        exact ⟨by omega, fun he _ => by omega⟩
      · obtain ⟨z, hz⟩ := magVal_multiple hhigh
        rw [hz]
        push_cast
        rw [hsc]
        obtain ⟨h1, h2⟩ := rne_nearest n hD (z : Int)
        rw [hmdef] at h1 h2
        refine ⟨h1, fun he hne' => h2 he ?_⟩
        intro hc
        apply hne'
        have : z = m := by exact_mod_cast hc
        apply magVal_strictMono.injective
        rw [hz, hval, this]

/-- The signed form: a rounded signed value is at least as near as any pattern of either sign. -/
theorem signed_roundMag_nearest (s : Bool) (n : Nat) {d : Nat} (hd : 0 < d) (c : F32)
    (hc : fIsNaN c = false) :
    |signed s (magVal (roundMag n d)) * d - signed s n| ≤ |fVal c * d - signed s n| ∧
    (|signed s (magVal (roundMag n d)) * d - signed s n| = |fVal c * d - signed s n| →
      fVal c ≠ signed s (magVal (roundMag n d)) → roundMag n d % 2 = 0) := by
  have hcm : fMag c ≤ fInfMag := by simpa [fIsNaN] using hc
  have flip : ∀ x y : Nat, |signed s x * (d : Int) - signed s y| = |(x : Int) * d - y| := by
    intro x y
    cases s
    · rfl
    · rw [signed_true, signed_true, ← abs_neg]; congr 1; ring
  obtain ⟨h1, h2⟩ := roundMag_nearest n hd hcm
  rw [flip]
  by_cases hs : fNeg c = s
  · have e : fVal c = signed s (magVal (fMag c)) := by rw [fVal_eq, hs]
    rw [e, flip]
    exact ⟨h1, fun he hne => h2 he fun h => hne (by rw [h])⟩
  · -- the other sign: zero is at least as near
    obtain ⟨z1, z2⟩ := roundMag_nearest n hd (p := 0) (Nat.zero_le _)
    rw [magVal_zero] at z1 z2
    have e : |fVal c * (d : Int) - signed s n| = magVal (fMag c) * d + n := by
      have hs' : fNeg c = !s := by cases s <;> cases h : fNeg c <;> simp_all
      have hnn : (0 : Int) ≤ magVal (fMag c) * d := by positivity
      rw [fVal_eq, hs']
      cases s
      · simp only [Bool.not_false, signed_true, signed_false]
        rw [abs_of_nonpos] <;> linarith
      · simp only [Bool.not_true, signed_true, signed_false]
        rw [abs_of_nonneg] <;> linarith
    have e0 : |((0 : Nat) : Int) * (d : Int) - n| = n := by simp
    rw [e0] at z1 z2
    rw [e]
    have hnn : (0 : Int) ≤ magVal (fMag c) * d := by positivity
    refine ⟨by omega, fun he hne => ?_⟩
    have hz : (magVal (fMag c) : Int) * d = 0 := by omega
    have hc0 : magVal (fMag c) = 0 := by
      have : magVal (fMag c) * d = 0 := by exact_mod_cast hz
      rcases Nat.mul_eq_zero.mp this with h | h <;> omega
    by_cases hr0 : roundMag n d = 0
    · rw [hr0]
    · exact z2 (by omega) (fun h => hr0 h.symm)

end Sys2Proof.Machine
end

