-- ==== Sys2Proof/Laws/State.lean ====
section
/-! SUPPORT. One lemma for each field and each named update of the state, so that no proof unfolds an update. -/

namespace Sys2Proof.Machine

/-! ## finishSample -/

@[simp] theorem finishSample_buf (s : State) (y : Sample) :
    (s.finishSample y).buf = s.buf.write s.idx.toNat y := rfl

@[simp] theorem finishSample_len (s : State) (y : Sample) : (s.finishSample y).len = s.len := rfl

@[simp] theorem finishSample_srate (s : State) (y : Sample) :
    (s.finishSample y).srate = s.srate := rfl

@[simp] theorem finishSample_fmeta (s : State) (y : Sample) :
    (s.finishSample y).fmeta = s.fmeta := rfl

@[simp] theorem finishSample_plen (s : State) (y : Sample) : (s.finishSample y).plen = s.plen := rfl

@[simp] theorem finishSample_prog (s : State) (y : Sample) : (s.finishSample y).prog = s.prog := rfl

@[simp] theorem finishSample_state (s : State) (y : Sample) :
    (s.finishSample y).state = s.state := rfl

@[simp] theorem finishSample_ecode (s : State) (y : Sample) :
    (s.finishSample y).ecode = s.ecode := rfl

@[simp] theorem finishSample_eslot (s : State) (y : Sample) :
    (s.finishSample y).eslot = s.eslot := rfl

@[simp] theorem finishSample_sp (s : State) (y : Sample) : (s.finishSample y).sp = s.sp := rfl

@[simp] theorem finishSample_idx (s : State) (y : Sample) :
    (s.finishSample y).idx = s.idx + 1 := rfl

@[simp] theorem finishSample_pinkRegs (s : State) (y : Sample) :
    (s.finishSample y).pinkRegs = s.pinkRegs := rfl

@[simp] theorem finishSample_phT (s : State) (y : Sample) : (s.finishSample y).phT = s.phT := rfl

@[simp] theorem finishSample_phR (s : State) (y : Sample) : (s.finishSample y).phR = s.phR := rfl

@[simp] theorem finishSample_inc (s : State) (y : Sample) : (s.finishSample y).inc = s.inc := rfl

@[simp] theorem finishSample_prev (s : State) (y : Sample) : (s.finishSample y).prev = s.prev := rfl

@[simp] theorem finishSample_npos (s : State) (y : Sample) : (s.finishSample y).npos = s.npos := rfl

@[simp] theorem finishSample_host (s : State) (y : Sample) : (s.finishSample y).host = s.host := rfl

@[simp] theorem finishSample_replies (s : State) (y : Sample) :
    (s.finishSample y).replies = s.replies := rfl

@[simp] theorem finishSample_freeCount (s : State) (y : Sample) :
    (s.finishSample y).freeCount = s.freeCount := rfl


/-! ## consumeDraw -/

@[simp] theorem consumeDraw_buf (s : State) : (s.consumeDraw).buf = s.buf := rfl

@[simp] theorem consumeDraw_len (s : State) : (s.consumeDraw).len = s.len := rfl

@[simp] theorem consumeDraw_srate (s : State) : (s.consumeDraw).srate = s.srate := rfl

@[simp] theorem consumeDraw_fmeta (s : State) : (s.consumeDraw).fmeta = s.fmeta := rfl

@[simp] theorem consumeDraw_plen (s : State) : (s.consumeDraw).plen = s.plen := rfl

@[simp] theorem consumeDraw_prog (s : State) : (s.consumeDraw).prog = s.prog := rfl

@[simp] theorem consumeDraw_state (s : State) : (s.consumeDraw).state = s.state := rfl

@[simp] theorem consumeDraw_ecode (s : State) : (s.consumeDraw).ecode = s.ecode := rfl

@[simp] theorem consumeDraw_eslot (s : State) : (s.consumeDraw).eslot = s.eslot := rfl

@[simp] theorem consumeDraw_sp (s : State) : (s.consumeDraw).sp = s.sp := rfl

@[simp] theorem consumeDraw_idx (s : State) : (s.consumeDraw).idx = s.idx := rfl

@[simp] theorem consumeDraw_pinkRegs (s : State) : (s.consumeDraw).pinkRegs = s.pinkRegs := rfl

@[simp] theorem consumeDraw_phT (s : State) : (s.consumeDraw).phT = s.phT := rfl

@[simp] theorem consumeDraw_phR (s : State) : (s.consumeDraw).phR = s.phR := rfl

@[simp] theorem consumeDraw_inc (s : State) : (s.consumeDraw).inc = s.inc := rfl

@[simp] theorem consumeDraw_prev (s : State) : (s.consumeDraw).prev = s.prev := rfl

@[simp] theorem consumeDraw_npos (s : State) : (s.consumeDraw).npos = s.npos + 1 := rfl

@[simp] theorem consumeDraw_host (s : State) : (s.consumeDraw).host = s.host := rfl

@[simp] theorem consumeDraw_replies (s : State) : (s.consumeDraw).replies = s.replies := rfl

@[simp] theorem consumeDraw_freeCount (s : State) : (s.consumeDraw).freeCount = s.freeCount := rfl


/-! ## raiseFault -/

@[simp] theorem raiseFault_buf (c : ECode) (k : BitVec 3) (s : State) :
    (raiseFault c k s).buf = s.buf := rfl

@[simp] theorem raiseFault_len (c : ECode) (k : BitVec 3) (s : State) :
    (raiseFault c k s).len = s.len := rfl

@[simp] theorem raiseFault_srate (c : ECode) (k : BitVec 3) (s : State) :
    (raiseFault c k s).srate = s.srate := rfl

@[simp] theorem raiseFault_fmeta (c : ECode) (k : BitVec 3) (s : State) :
    (raiseFault c k s).fmeta = s.fmeta := rfl

@[simp] theorem raiseFault_plen (c : ECode) (k : BitVec 3) (s : State) :
    (raiseFault c k s).plen = s.plen := rfl

@[simp] theorem raiseFault_prog (c : ECode) (k : BitVec 3) (s : State) :
    (raiseFault c k s).prog = s.prog := rfl

@[simp] theorem raiseFault_state (c : ECode) (k : BitVec 3) (s : State) :
    (raiseFault c k s).state = .err := rfl

@[simp] theorem raiseFault_ecode (c : ECode) (k : BitVec 3) (s : State) :
    (raiseFault c k s).ecode = c := rfl

@[simp] theorem raiseFault_eslot (c : ECode) (k : BitVec 3) (s : State) :
    (raiseFault c k s).eslot = k := rfl

@[simp] theorem raiseFault_sp (c : ECode) (k : BitVec 3) (s : State) :
    (raiseFault c k s).sp = s.sp := rfl

@[simp] theorem raiseFault_idx (c : ECode) (k : BitVec 3) (s : State) :
    (raiseFault c k s).idx = s.idx := rfl

@[simp] theorem raiseFault_pinkRegs (c : ECode) (k : BitVec 3) (s : State) :
    (raiseFault c k s).pinkRegs = s.pinkRegs := rfl

@[simp] theorem raiseFault_phT (c : ECode) (k : BitVec 3) (s : State) :
    (raiseFault c k s).phT = s.phT := rfl

@[simp] theorem raiseFault_phR (c : ECode) (k : BitVec 3) (s : State) :
    (raiseFault c k s).phR = s.phR := rfl

@[simp] theorem raiseFault_inc (c : ECode) (k : BitVec 3) (s : State) :
    (raiseFault c k s).inc = s.inc := rfl

@[simp] theorem raiseFault_prev (c : ECode) (k : BitVec 3) (s : State) :
    (raiseFault c k s).prev = s.prev := rfl

@[simp] theorem raiseFault_npos (c : ECode) (k : BitVec 3) (s : State) :
    (raiseFault c k s).npos = s.npos := rfl

@[simp] theorem raiseFault_host (c : ECode) (k : BitVec 3) (s : State) :
    (raiseFault c k s).host = s.host := rfl

@[simp] theorem raiseFault_replies (c : ECode) (k : BitVec 3) (s : State) :
    (raiseFault c k s).replies = s.replies := rfl

@[simp] theorem raiseFault_freeCount (c : ECode) (k : BitVec 3) (s : State) :
    (raiseFault c k s).freeCount = s.freeCount := rfl


/-! ## enterAwn -/

@[simp] theorem enterAwn_buf (p : F32) (s : State) : (enterAwn p s).buf = s.buf := rfl

@[simp] theorem enterAwn_len (p : F32) (s : State) : (enterAwn p s).len = s.len := rfl

@[simp] theorem enterAwn_srate (p : F32) (s : State) : (enterAwn p s).srate = s.srate := rfl

@[simp] theorem enterAwn_fmeta (p : F32) (s : State) : (enterAwn p s).fmeta = s.fmeta := rfl

@[simp] theorem enterAwn_plen (p : F32) (s : State) : (enterAwn p s).plen = s.plen := rfl

@[simp] theorem enterAwn_prog (p : F32) (s : State) : (enterAwn p s).prog = s.prog := rfl

@[simp] theorem enterAwn_state (p : F32) (s : State) : (enterAwn p s).state = s.state := rfl

@[simp] theorem enterAwn_ecode (p : F32) (s : State) : (enterAwn p s).ecode = s.ecode := rfl

@[simp] theorem enterAwn_eslot (p : F32) (s : State) : (enterAwn p s).eslot = s.eslot := rfl

@[simp] theorem enterAwn_sp (p : F32) (s : State) : (enterAwn p s).sp = s.sp := rfl

@[simp] theorem enterAwn_idx (p : F32) (s : State) : (enterAwn p s).idx = s.idx := rfl

@[simp] theorem enterAwn_pinkRegs (p : F32) (s : State) :
    (enterAwn p s).pinkRegs = s.pinkRegs := rfl

@[simp] theorem enterAwn_phT (p : F32) (s : State) : (enterAwn p s).phT = s.phT := rfl

@[simp] theorem enterAwn_phR (p : F32) (s : State) : (enterAwn p s).phR = s.phR := rfl

@[simp] theorem enterAwn_inc (p : F32) (s : State) : (enterAwn p s).inc = s.inc := rfl

@[simp] theorem enterAwn_prev (p : F32) (s : State) : (enterAwn p s).prev = s.prev := rfl

@[simp] theorem enterAwn_npos (p : F32) (s : State) : (enterAwn p s).npos = s.npos := rfl

@[simp] theorem enterAwn_host (p : F32) (s : State) : (enterAwn p s).host = s.host := rfl

@[simp] theorem enterAwn_replies (p : F32) (s : State) : (enterAwn p s).replies = s.replies := rfl

@[simp] theorem enterAwn_freeCount (p : F32) (s : State) :
    (enterAwn p s).freeCount = s.freeCount := rfl


/-! ## enterApn -/

@[simp] theorem enterApn_buf (p : F32) (s : State) : (enterApn p s).buf = s.buf := rfl

@[simp] theorem enterApn_len (p : F32) (s : State) : (enterApn p s).len = s.len := rfl

@[simp] theorem enterApn_srate (p : F32) (s : State) : (enterApn p s).srate = s.srate := rfl

@[simp] theorem enterApn_fmeta (p : F32) (s : State) : (enterApn p s).fmeta = s.fmeta := rfl

@[simp] theorem enterApn_plen (p : F32) (s : State) : (enterApn p s).plen = s.plen := rfl

@[simp] theorem enterApn_prog (p : F32) (s : State) : (enterApn p s).prog = s.prog := rfl

@[simp] theorem enterApn_state (p : F32) (s : State) : (enterApn p s).state = s.state := rfl

@[simp] theorem enterApn_ecode (p : F32) (s : State) : (enterApn p s).ecode = s.ecode := rfl

@[simp] theorem enterApn_eslot (p : F32) (s : State) : (enterApn p s).eslot = s.eslot := rfl

@[simp] theorem enterApn_sp (p : F32) (s : State) : (enterApn p s).sp = s.sp := rfl

@[simp] theorem enterApn_idx (p : F32) (s : State) : (enterApn p s).idx = s.idx := rfl

@[simp] theorem enterApn_pinkRegs (p : F32) (s : State) : (enterApn p s).pinkRegs = .zero := rfl

@[simp] theorem enterApn_phT (p : F32) (s : State) : (enterApn p s).phT = s.phT := rfl

@[simp] theorem enterApn_phR (p : F32) (s : State) : (enterApn p s).phR = s.phR := rfl

@[simp] theorem enterApn_inc (p : F32) (s : State) : (enterApn p s).inc = s.inc := rfl

@[simp] theorem enterApn_prev (p : F32) (s : State) : (enterApn p s).prev = s.prev := rfl

@[simp] theorem enterApn_npos (p : F32) (s : State) : (enterApn p s).npos = s.npos := rfl

@[simp] theorem enterApn_host (p : F32) (s : State) : (enterApn p s).host = s.host := rfl

@[simp] theorem enterApn_replies (p : F32) (s : State) : (enterApn p s).replies = s.replies := rfl

@[simp] theorem enterApn_freeCount (p : F32) (s : State) :
    (enterApn p s).freeCount = s.freeCount := rfl


/-! ## enterScd -/

@[simp] theorem enterScd_buf (p : F32) (s : State) : (enterScd p s).buf = s.buf := rfl

@[simp] theorem enterScd_len (p : F32) (s : State) : (enterScd p s).len = s.len := rfl

@[simp] theorem enterScd_srate (p : F32) (s : State) : (enterScd p s).srate = s.srate := rfl

@[simp] theorem enterScd_fmeta (p : F32) (s : State) : (enterScd p s).fmeta = s.fmeta := rfl

@[simp] theorem enterScd_plen (p : F32) (s : State) : (enterScd p s).plen = s.plen := rfl

@[simp] theorem enterScd_prog (p : F32) (s : State) : (enterScd p s).prog = s.prog := rfl

@[simp] theorem enterScd_state (p : F32) (s : State) : (enterScd p s).state = s.state := rfl

@[simp] theorem enterScd_ecode (p : F32) (s : State) : (enterScd p s).ecode = s.ecode := rfl

@[simp] theorem enterScd_eslot (p : F32) (s : State) : (enterScd p s).eslot = s.eslot := rfl

@[simp] theorem enterScd_sp (p : F32) (s : State) : (enterScd p s).sp = s.sp := rfl

@[simp] theorem enterScd_idx (p : F32) (s : State) : (enterScd p s).idx = s.idx := rfl

@[simp] theorem enterScd_pinkRegs (p : F32) (s : State) :
    (enterScd p s).pinkRegs = s.pinkRegs := rfl

@[simp] theorem enterScd_phT (p : F32) (s : State) : (enterScd p s).phT = s.phT := rfl

@[simp] theorem enterScd_phR (p : F32) (s : State) : (enterScd p s).phR = s.phR := rfl

@[simp] theorem enterScd_inc (p : F32) (s : State) : (enterScd p s).inc = s.inc := rfl

@[simp] theorem enterScd_prev (p : F32) (s : State) : (enterScd p s).prev = s.prev := rfl

@[simp] theorem enterScd_npos (p : F32) (s : State) : (enterScd p s).npos = s.npos := rfl

@[simp] theorem enterScd_host (p : F32) (s : State) : (enterScd p s).host = s.host := rfl

@[simp] theorem enterScd_replies (p : F32) (s : State) : (enterScd p s).replies = s.replies := rfl

@[simp] theorem enterScd_freeCount (p : F32) (s : State) :
    (enterScd p s).freeCount = s.freeCount := rfl


/-! ## enterTrm -/

@[simp] theorem enterTrm_buf (p q : F32) (s : State) : (enterTrm p q s).buf = s.buf := rfl

@[simp] theorem enterTrm_len (p q : F32) (s : State) : (enterTrm p q s).len = s.len := rfl

@[simp] theorem enterTrm_srate (p q : F32) (s : State) : (enterTrm p q s).srate = s.srate := rfl

@[simp] theorem enterTrm_fmeta (p q : F32) (s : State) : (enterTrm p q s).fmeta = s.fmeta := rfl

@[simp] theorem enterTrm_plen (p q : F32) (s : State) : (enterTrm p q s).plen = s.plen := rfl

@[simp] theorem enterTrm_prog (p q : F32) (s : State) : (enterTrm p q s).prog = s.prog := rfl

@[simp] theorem enterTrm_state (p q : F32) (s : State) : (enterTrm p q s).state = s.state := rfl

@[simp] theorem enterTrm_ecode (p q : F32) (s : State) : (enterTrm p q s).ecode = s.ecode := rfl

@[simp] theorem enterTrm_eslot (p q : F32) (s : State) : (enterTrm p q s).eslot = s.eslot := rfl

@[simp] theorem enterTrm_sp (p q : F32) (s : State) : (enterTrm p q s).sp = s.sp := rfl

@[simp] theorem enterTrm_idx (p q : F32) (s : State) : (enterTrm p q s).idx = s.idx := rfl

@[simp] theorem enterTrm_pinkRegs (p q : F32) (s : State) :
    (enterTrm p q s).pinkRegs = s.pinkRegs := rfl

@[simp] theorem enterTrm_phT (p q : F32) (s : State) : (enterTrm p q s).phT = fZero := rfl

@[simp] theorem enterTrm_phR (p q : F32) (s : State) : (enterTrm p q s).phR = s.phR := rfl

@[simp] theorem enterTrm_inc (p q : F32) (s : State) :
    (enterTrm p q s).inc = phaseStep p s.srate := rfl

@[simp] theorem enterTrm_prev (p q : F32) (s : State) : (enterTrm p q s).prev = s.prev := rfl

@[simp] theorem enterTrm_npos (p q : F32) (s : State) : (enterTrm p q s).npos = s.npos := rfl

@[simp] theorem enterTrm_host (p q : F32) (s : State) : (enterTrm p q s).host = s.host := rfl

@[simp] theorem enterTrm_replies (p q : F32) (s : State) :
    (enterTrm p q s).replies = s.replies := rfl

@[simp] theorem enterTrm_freeCount (p q : F32) (s : State) :
    (enterTrm p q s).freeCount = s.freeCount := rfl


/-! ## enterTel -/

@[simp] theorem enterTel_buf (p : F32) (s : State) : (enterTel p s).buf = s.buf := rfl

@[simp] theorem enterTel_len (p : F32) (s : State) : (enterTel p s).len = s.len := rfl

@[simp] theorem enterTel_srate (p : F32) (s : State) : (enterTel p s).srate = s.srate := rfl

@[simp] theorem enterTel_fmeta (p : F32) (s : State) : (enterTel p s).fmeta = s.fmeta := rfl

@[simp] theorem enterTel_plen (p : F32) (s : State) : (enterTel p s).plen = s.plen := rfl

@[simp] theorem enterTel_prog (p : F32) (s : State) : (enterTel p s).prog = s.prog := rfl

@[simp] theorem enterTel_state (p : F32) (s : State) : (enterTel p s).state = s.state := rfl

@[simp] theorem enterTel_ecode (p : F32) (s : State) : (enterTel p s).ecode = s.ecode := rfl

@[simp] theorem enterTel_eslot (p : F32) (s : State) : (enterTel p s).eslot = s.eslot := rfl

@[simp] theorem enterTel_sp (p : F32) (s : State) : (enterTel p s).sp = s.sp := rfl

@[simp] theorem enterTel_idx (p : F32) (s : State) : (enterTel p s).idx = s.idx := rfl

@[simp] theorem enterTel_pinkRegs (p : F32) (s : State) :
    (enterTel p s).pinkRegs = s.pinkRegs := rfl

@[simp] theorem enterTel_phT (p : F32) (s : State) : (enterTel p s).phT = s.phT := rfl

@[simp] theorem enterTel_phR (p : F32) (s : State) : (enterTel p s).phR = s.phR := rfl

@[simp] theorem enterTel_inc (p : F32) (s : State) : (enterTel p s).inc = s.inc := rfl

@[simp] theorem enterTel_prev (p : F32) (s : State) : (enterTel p s).prev = fZero := rfl

@[simp] theorem enterTel_npos (p : F32) (s : State) : (enterTel p s).npos = s.npos := rfl

@[simp] theorem enterTel_host (p : F32) (s : State) : (enterTel p s).host = s.host := rfl

@[simp] theorem enterTel_replies (p : F32) (s : State) : (enterTel p s).replies = s.replies := rfl

@[simp] theorem enterTel_freeCount (p : F32) (s : State) :
    (enterTel p s).freeCount = s.freeCount := rfl


/-! ## enterRmd -/

@[simp] theorem enterRmd_buf (p : F32) (s : State) : (enterRmd p s).buf = s.buf := rfl

@[simp] theorem enterRmd_len (p : F32) (s : State) : (enterRmd p s).len = s.len := rfl

@[simp] theorem enterRmd_srate (p : F32) (s : State) : (enterRmd p s).srate = s.srate := rfl

@[simp] theorem enterRmd_fmeta (p : F32) (s : State) : (enterRmd p s).fmeta = s.fmeta := rfl

@[simp] theorem enterRmd_plen (p : F32) (s : State) : (enterRmd p s).plen = s.plen := rfl

@[simp] theorem enterRmd_prog (p : F32) (s : State) : (enterRmd p s).prog = s.prog := rfl

@[simp] theorem enterRmd_state (p : F32) (s : State) : (enterRmd p s).state = s.state := rfl

@[simp] theorem enterRmd_ecode (p : F32) (s : State) : (enterRmd p s).ecode = s.ecode := rfl

@[simp] theorem enterRmd_eslot (p : F32) (s : State) : (enterRmd p s).eslot = s.eslot := rfl

@[simp] theorem enterRmd_sp (p : F32) (s : State) : (enterRmd p s).sp = s.sp := rfl

@[simp] theorem enterRmd_idx (p : F32) (s : State) : (enterRmd p s).idx = s.idx := rfl

@[simp] theorem enterRmd_pinkRegs (p : F32) (s : State) :
    (enterRmd p s).pinkRegs = s.pinkRegs := rfl

@[simp] theorem enterRmd_phT (p : F32) (s : State) : (enterRmd p s).phT = s.phT := rfl

@[simp] theorem enterRmd_phR (p : F32) (s : State) : (enterRmd p s).phR = fZero := rfl

@[simp] theorem enterRmd_inc (p : F32) (s : State) : (enterRmd p s).inc = phaseStep p s.srate := rfl

@[simp] theorem enterRmd_prev (p : F32) (s : State) : (enterRmd p s).prev = s.prev := rfl

@[simp] theorem enterRmd_npos (p : F32) (s : State) : (enterRmd p s).npos = s.npos := rfl

@[simp] theorem enterRmd_host (p : F32) (s : State) : (enterRmd p s).host = s.host := rfl

@[simp] theorem enterRmd_replies (p : F32) (s : State) : (enterRmd p s).replies = s.replies := rfl

@[simp] theorem enterRmd_freeCount (p : F32) (s : State) :
    (enterRmd p s).freeCount = s.freeCount := rfl


/-! ## enterBcr -/

@[simp] theorem enterBcr_buf (p : BitVec 32) (s : State) : (enterBcr p s).buf = s.buf := rfl

@[simp] theorem enterBcr_len (p : BitVec 32) (s : State) : (enterBcr p s).len = s.len := rfl

@[simp] theorem enterBcr_srate (p : BitVec 32) (s : State) : (enterBcr p s).srate = s.srate := rfl

@[simp] theorem enterBcr_fmeta (p : BitVec 32) (s : State) : (enterBcr p s).fmeta = s.fmeta := rfl

@[simp] theorem enterBcr_plen (p : BitVec 32) (s : State) : (enterBcr p s).plen = s.plen := rfl

@[simp] theorem enterBcr_prog (p : BitVec 32) (s : State) : (enterBcr p s).prog = s.prog := rfl

@[simp] theorem enterBcr_state (p : BitVec 32) (s : State) : (enterBcr p s).state = s.state := rfl

@[simp] theorem enterBcr_ecode (p : BitVec 32) (s : State) : (enterBcr p s).ecode = s.ecode := rfl

@[simp] theorem enterBcr_eslot (p : BitVec 32) (s : State) : (enterBcr p s).eslot = s.eslot := rfl

@[simp] theorem enterBcr_sp (p : BitVec 32) (s : State) : (enterBcr p s).sp = s.sp := rfl

@[simp] theorem enterBcr_idx (p : BitVec 32) (s : State) : (enterBcr p s).idx = s.idx := rfl

@[simp] theorem enterBcr_pinkRegs (p : BitVec 32) (s : State) :
    (enterBcr p s).pinkRegs = s.pinkRegs := rfl

@[simp] theorem enterBcr_phT (p : BitVec 32) (s : State) : (enterBcr p s).phT = s.phT := rfl

@[simp] theorem enterBcr_phR (p : BitVec 32) (s : State) : (enterBcr p s).phR = s.phR := rfl

@[simp] theorem enterBcr_inc (p : BitVec 32) (s : State) : (enterBcr p s).inc = s.inc := rfl

@[simp] theorem enterBcr_prev (p : BitVec 32) (s : State) : (enterBcr p s).prev = s.prev := rfl

@[simp] theorem enterBcr_npos (p : BitVec 32) (s : State) : (enterBcr p s).npos = s.npos := rfl

@[simp] theorem enterBcr_host (p : BitVec 32) (s : State) : (enterBcr p s).host = s.host := rfl

@[simp] theorem enterBcr_replies (p : BitVec 32) (s : State) :
    (enterBcr p s).replies = s.replies := rfl

@[simp] theorem enterBcr_freeCount (p : BitVec 32) (s : State) :
    (enterBcr p s).freeCount = s.freeCount := rfl


/-! ## hostRegRead -/

@[simp] theorem hostRegRead_buf (n : Nat) (s : State) : (hostRegRead n s).buf = s.buf := rfl

@[simp] theorem hostRegRead_len (n : Nat) (s : State) : (hostRegRead n s).len = s.len := rfl

@[simp] theorem hostRegRead_srate (n : Nat) (s : State) : (hostRegRead n s).srate = s.srate := rfl

@[simp] theorem hostRegRead_fmeta (n : Nat) (s : State) : (hostRegRead n s).fmeta = s.fmeta := rfl

@[simp] theorem hostRegRead_plen (n : Nat) (s : State) : (hostRegRead n s).plen = s.plen := rfl

@[simp] theorem hostRegRead_prog (n : Nat) (s : State) : (hostRegRead n s).prog = s.prog := rfl

@[simp] theorem hostRegRead_state (n : Nat) (s : State) : (hostRegRead n s).state = s.state := rfl

@[simp] theorem hostRegRead_ecode (n : Nat) (s : State) : (hostRegRead n s).ecode = s.ecode := rfl

@[simp] theorem hostRegRead_eslot (n : Nat) (s : State) : (hostRegRead n s).eslot = s.eslot := rfl

@[simp] theorem hostRegRead_sp (n : Nat) (s : State) : (hostRegRead n s).sp = s.sp := rfl

@[simp] theorem hostRegRead_idx (n : Nat) (s : State) : (hostRegRead n s).idx = s.idx := rfl

@[simp] theorem hostRegRead_pinkRegs (n : Nat) (s : State) :
    (hostRegRead n s).pinkRegs = s.pinkRegs := rfl

@[simp] theorem hostRegRead_phT (n : Nat) (s : State) : (hostRegRead n s).phT = s.phT := rfl

@[simp] theorem hostRegRead_phR (n : Nat) (s : State) : (hostRegRead n s).phR = s.phR := rfl

@[simp] theorem hostRegRead_inc (n : Nat) (s : State) : (hostRegRead n s).inc = s.inc := rfl

@[simp] theorem hostRegRead_prev (n : Nat) (s : State) : (hostRegRead n s).prev = s.prev := rfl

@[simp] theorem hostRegRead_npos (n : Nat) (s : State) : (hostRegRead n s).npos = s.npos := rfl

@[simp] theorem hostRegRead_host (n : Nat) (s : State) : (hostRegRead n s).host = s.host := rfl

@[simp] theorem hostRegRead_replies (n : Nat) (s : State) :
    (hostRegRead n s).replies = .reg n (regValue n s) :: s.replies := rfl

@[simp] theorem hostRegRead_freeCount (n : Nat) (s : State) :
    (hostRegRead n s).freeCount = s.freeCount := rfl

/-! ## Stage entry, whatever the operation: what no entry changes -/

@[simp] theorem stageEntry_buf (i : Instr) (s : State) : (stageEntry i s).buf = s.buf := by
  cases i <;> rfl

@[simp] theorem stageEntry_len (i : Instr) (s : State) : (stageEntry i s).len = s.len := by
  cases i <;> rfl

@[simp] theorem stageEntry_srate (i : Instr) (s : State) : (stageEntry i s).srate = s.srate := by
  cases i <;> rfl

@[simp] theorem stageEntry_fmeta (i : Instr) (s : State) : (stageEntry i s).fmeta = s.fmeta := by
  cases i <;> rfl

@[simp] theorem stageEntry_plen (i : Instr) (s : State) : (stageEntry i s).plen = s.plen := by
  cases i <;> rfl

@[simp] theorem stageEntry_prog (i : Instr) (s : State) : (stageEntry i s).prog = s.prog := by
  cases i <;> rfl

@[simp] theorem stageEntry_state (i : Instr) (s : State) : (stageEntry i s).state = s.state := by
  cases i <;> rfl

@[simp] theorem stageEntry_ecode (i : Instr) (s : State) : (stageEntry i s).ecode = s.ecode := by
  cases i <;> rfl

@[simp] theorem stageEntry_eslot (i : Instr) (s : State) : (stageEntry i s).eslot = s.eslot := by
  cases i <;> rfl

@[simp] theorem stageEntry_sp (i : Instr) (s : State) : (stageEntry i s).sp = s.sp := by
  cases i <;> rfl

@[simp] theorem stageEntry_idx (i : Instr) (s : State) : (stageEntry i s).idx = s.idx := by
  cases i <;> rfl

@[simp] theorem stageEntry_npos (i : Instr) (s : State) : (stageEntry i s).npos = s.npos := by
  cases i <;> rfl

@[simp] theorem stageEntry_host (i : Instr) (s : State) : (stageEntry i s).host = s.host := by
  cases i <;> rfl

@[simp] theorem stageEntry_replies (i : Instr) (s : State) : (stageEntry i s).replies = s.replies := by
  cases i <;> rfl

@[simp] theorem stageEntry_freeCount (i : Instr) (s : State) : (stageEntry i s).freeCount = s.freeCount := by
  cases i <;> rfl

/-! ## hostReset -/

@[simp] theorem hostReset_buf (s : State) : (hostReset s).buf = State.reset.buf := rfl

@[simp] theorem hostReset_len (s : State) : (hostReset s).len = State.reset.len := rfl

@[simp] theorem hostReset_srate (s : State) : (hostReset s).srate = State.reset.srate := rfl

@[simp] theorem hostReset_fmeta (s : State) : (hostReset s).fmeta = State.reset.fmeta := rfl

@[simp] theorem hostReset_plen (s : State) : (hostReset s).plen = State.reset.plen := rfl

@[simp] theorem hostReset_prog (s : State) : (hostReset s).prog = State.reset.prog := rfl

@[simp] theorem hostReset_state (s : State) : (hostReset s).state = State.reset.state := rfl

@[simp] theorem hostReset_ecode (s : State) : (hostReset s).ecode = State.reset.ecode := rfl

@[simp] theorem hostReset_eslot (s : State) : (hostReset s).eslot = State.reset.eslot := rfl

@[simp] theorem hostReset_sp (s : State) : (hostReset s).sp = State.reset.sp := rfl

@[simp] theorem hostReset_idx (s : State) : (hostReset s).idx = State.reset.idx := rfl

@[simp] theorem hostReset_pinkRegs (s : State) : (hostReset s).pinkRegs = State.reset.pinkRegs := rfl

@[simp] theorem hostReset_phT (s : State) : (hostReset s).phT = State.reset.phT := rfl

@[simp] theorem hostReset_phR (s : State) : (hostReset s).phR = State.reset.phR := rfl

@[simp] theorem hostReset_inc (s : State) : (hostReset s).inc = State.reset.inc := rfl

@[simp] theorem hostReset_prev (s : State) : (hostReset s).prev = State.reset.prev := rfl

@[simp] theorem hostReset_npos (s : State) : (hostReset s).npos = State.reset.npos := rfl

@[simp] theorem hostReset_host (s : State) : (hostReset s).host = s.host := rfl

@[simp] theorem hostReset_replies (s : State) : (hostReset s).replies = s.replies := rfl

@[simp] theorem hostReset_freeCount (s : State) : (hostReset s).freeCount = s.freeCount := rfl

end Sys2Proof.Machine
end

