-- ==== Sys2Proof/Laws/Ops.lean ====
section
/-! SUPPORT. What a sample step, stage entry, validation, START and a step of the machine can do, said once
each. -/

namespace Sys2Proof.Machine

/-! ## The sample step -/

/-- The Sample operation `i` stores for the Sample `x` in state `s`. -/
def resultOf (i : Instr) (s : State) (x : Sample) : Sample :=
  match i with
  | .awn level => awnSample level x (drawnWord s)
  | .apn level => apnSample level x (pinkValue Config.pink s.pinkRegs (drawnWord s))
  | .scd gain => scdSample Config.scdOrder ftanh gain x
  | .trm _ depth => trmSample fsin depth s.phT x
  | .tel alpha => telSample alpha s.prev x
  | .rmd _ => rmdSample fsin s.phR x
  | .bcr bits => bcrSample bits x

@[simp] theorem scdInput_gainFirst (gain v : F32) :
    scdInput .gainFirst gain v = fDiv (fMul v gain) fMaxMag := rfl

@[simp] theorem scdInput_divideFirst (gain v : F32) :
    scdInput .divideFirst gain v = fMul (fDiv v fMaxMag) gain := rfl

/-- What operation `i` does to the private state, before the store. -/
def privateOf (i : Instr) (s : State) (x : Sample) : State :=
  match i with
  | .awn _ => s.consumeDraw
  | .apn _ => { s.consumeDraw with pinkRegs := pinkNext Config.pink s.pinkRegs (drawnWord s) }
  | .scd _ => s
  | .trm _ _ => { s with phT := advance s.phT s.inc }
  | .tel _ => { s with prev := fOfSample x }
  | .rmd _ => { s with phR := advance s.phR s.inc }
  | .bcr _ => s

theorem exec_eq (i : Instr) (s : State) : exec i s = sampleStep (resultOf i s) (privateOf i s) s := by
  cases i <;> rfl

theorem sampleStep_of_read {f : Sample → Sample} {g : Sample → State} {s : State} {x : Sample}
    (h : s.buf.read s.idx.toNat = some x) : sampleStep f g s = .next ((g x).finishSample (f x)) := by
  unfold sampleStep; rw [h]

theorem sampleStep_of_unwritten {f : Sample → Sample} {g : Sample → State} {s : State}
    (h : s.buf.read s.idx.toNat = none) : sampleStep f g s = .fault .unwrittenSample := by
  unfold sampleStep; rw [h]

theorem exec_of_read {i : Instr} {s : State} {x : Sample} (h : s.buf.read s.idx.toNat = some x) :
    exec i s = .next ((privateOf i s x).finishSample (resultOf i s x)) := by
  rw [exec_eq, sampleStep_of_read h]

/-- A sample step that answers a next state read a Sample and is that operation's effect on it. -/
theorem exec_next {i : Instr} {s t : State} (h : exec i s = .next t) :
    ∃ x, s.buf.read s.idx.toNat = some x ∧ t = (privateOf i s x).finishSample (resultOf i s x) := by
  rw [exec_eq] at h
  unfold sampleStep at h
  split at h
  · cases h
  · rename_i x hx
    exact ⟨x, hx, by simpa using h.symm⟩

/-! ## What no operation changes -/

@[simp] theorem privateOf_buf (i : Instr) (s : State) (x : Sample) : (privateOf i s x).buf = s.buf := by
  cases i <;> rfl

@[simp] theorem privateOf_len (i : Instr) (s : State) (x : Sample) : (privateOf i s x).len = s.len := by
  cases i <;> rfl

@[simp] theorem privateOf_srate (i : Instr) (s : State) (x : Sample) :
    (privateOf i s x).srate = s.srate := by
  cases i <;> rfl

@[simp] theorem privateOf_fmeta (i : Instr) (s : State) (x : Sample) :
    (privateOf i s x).fmeta = s.fmeta := by
  cases i <;> rfl

@[simp] theorem privateOf_plen (i : Instr) (s : State) (x : Sample) : (privateOf i s x).plen = s.plen := by
  cases i <;> rfl

@[simp] theorem privateOf_prog (i : Instr) (s : State) (x : Sample) : (privateOf i s x).prog = s.prog := by
  cases i <;> rfl

@[simp] theorem privateOf_state (i : Instr) (s : State) (x : Sample) :
    (privateOf i s x).state = s.state := by
  cases i <;> rfl

@[simp] theorem privateOf_ecode (i : Instr) (s : State) (x : Sample) :
    (privateOf i s x).ecode = s.ecode := by
  cases i <;> rfl

@[simp] theorem privateOf_eslot (i : Instr) (s : State) (x : Sample) :
    (privateOf i s x).eslot = s.eslot := by
  cases i <;> rfl

@[simp] theorem privateOf_sp (i : Instr) (s : State) (x : Sample) : (privateOf i s x).sp = s.sp := by
  cases i <;> rfl

@[simp] theorem privateOf_idx (i : Instr) (s : State) (x : Sample) : (privateOf i s x).idx = s.idx := by
  cases i <;> rfl

@[simp] theorem privateOf_inc (i : Instr) (s : State) (x : Sample) : (privateOf i s x).inc = s.inc := by
  cases i <;> rfl

@[simp] theorem privateOf_host (i : Instr) (s : State) (x : Sample) : (privateOf i s x).host = s.host := by
  cases i <;> rfl

@[simp] theorem privateOf_replies (i : Instr) (s : State) (x : Sample) :
    (privateOf i s x).replies = s.replies := by
  cases i <;> rfl

@[simp] theorem privateOf_freeCount (i : Instr) (s : State) (x : Sample) :
    (privateOf i s x).freeCount = s.freeCount := by
  cases i <;> rfl

/-! ## Slots, validation and stage entry -/

theorem one_le_nmax : 1 ≤ Config.nmax := le_max_left _ _

theorem nmax_le : Config.nmax ≤ 2 ^ 32 - 1 := by
  unfold Config.nmax; exact max_le (by norm_num) (min_le_right _ _)

theorem fetchSlot_eq_some {s : State} {k : Nat} {d : Descr} :
    fetchSlot s k = some d ↔ ∃ h : k < 7, s.prog[k] = d := by
  unfold fetchSlot
  rw [Vector.getElem?_eq_some_iff]

theorem fetchSlot_of_lt {s : State} {k : Nat} (h : k < 7) : fetchSlot s k = some s.prog[k] :=
  fetchSlot_eq_some.mpr ⟨h, rfl⟩

theorem fetchSlot_of_ge {s : State} {k : Nat} (h : 7 ≤ k) : fetchSlot s k = none := by
  unfold fetchSlot; exact Vector.getElem?_eq_none_iff.mpr h

/-- The slots validation looks at are those below `PLEN`. -/
theorem mem_activeSlots {s : State} {d : Descr} :
    d ∈ activeSlots s ↔ ∃ k, k < s.plen.toNat ∧ fetchSlot s k = some d := by
  unfold activeSlots
  rw [List.mem_take_iff_getElem]
  simp only [Vector.getElem_toList, Vector.length_toList, Config.nslot]
  constructor
  · rintro ⟨k, hk, hd⟩
    exact ⟨k, by omega, fetchSlot_eq_some.mpr ⟨by omega, hd⟩⟩
  · rintro ⟨k, hk, hd⟩
    obtain ⟨h7, hd⟩ := fetchSlot_eq_some.mp hd
    exact ⟨k, by omega, hd⟩

/-- There is no first illegal descriptor exactly where every one is legal. -/
theorem firstIllegal_eq_none {ds : List Descr} {k : Nat} :
    firstIllegal ds k = none ↔ ∀ d ∈ ds, ∃ i, decode d = .legal i := by
  induction ds generalizing k with
  | nil => simp [firstIllegal]
  | cons d ds ih =>
    unfold firstIllegal
    cases h : decode d with
    | legal i => simp [ih, h]
    | illegal w => simp [h]

/-- What validation has checked when it passes (R161). -/
theorem validate_eq_none {capacity : Nat} {s : State} :
    validate capacity s = none ↔ s.len.toNat ≤ capacity ∧ s.plen.toNat ≤ 7 ∧
      ∀ k d, k < s.plen.toNat → fetchSlot s k = some d → ∃ i, decode d = .legal i := by
  unfold validate
  split
  · simp; omega
  · split
    · simp; omega
    · rw [firstIllegal_eq_none]
      constructor
      · intro h
        exact ⟨by omega, by omega, fun k d hk hd => h d (mem_activeSlots.mpr ⟨k, hk, hd⟩)⟩
      · rintro ⟨-, -, h⟩ d hd
        obtain ⟨k, hk, hd⟩ := mem_activeSlots.mp hd
        exact h k d hk hd

/-- A fault validation reports is one of the four, never `none` (R181). -/
theorem firstIllegal_code {ds : List Descr} {k : Nat} {c : ECode} {j : BitVec 3}
    (h : firstIllegal ds k = some (c, j)) : c = .illegalOp ∨ c = .reservedField := by
  induction ds generalizing k with
  | nil => simp [firstIllegal] at h
  | cons d ds ih =>
    unfold firstIllegal at h
    cases hd : decode d with
    | legal i => rw [hd] at h; exact ih h
    | illegal w => rw [hd] at h; cases w <;> simp [illegalCode] at h <;> simp [← h.1]

theorem validate_code {capacity : Nat} {s : State} {c : ECode} {j : BitVec 3}
    (h : validate capacity s = some (c, j)) :
    ((c = .badLen ∨ c = .badPlen) ∧ j = 0) ∨ c = .illegalOp ∨ c = .reservedField := by
  unfold validate at h
  split at h
  · simp at h; simp [← h.1, ← h.2]
  · split at h
    · simp at h; simp [← h.1, ← h.2]
    · exact .inr (firstIllegal_code h)

/-- Stage entry that answers a next state ends the run or enters a legal slot (R162). -/
theorem enter_next {k : Nat} {s t : State} (h : enter k s = .next t) :
    (k = s.plen.toNat ∧ t = { s with state := .done }) ∨
    (k ≠ s.plen.toNat ∧ ∃ d i, fetchSlot s k = some d ∧ decode d = .legal i ∧
      t = stageEntry i { s with sp := BitVec.ofNat 3 k, idx := 0 }) := by
  unfold enter at h
  split at h
  · rename_i hk; exact .inl ⟨hk, by simpa using h.symm⟩
  · rename_i hk
    split at h
    · cases h
    · rename_i d hd
      split at h
      · rename_i i hi
        exact .inr ⟨hk, d, i, hd, hi, by simpa using h.symm⟩
      · cases h

theorem enter_end {k : Nat} {s : State} (h : k = s.plen.toNat) :
    enter k s = .next { s with state := .done } := by
  unfold enter; rw [if_pos h]

theorem enter_slot {k : Nat} {s : State} {d : Descr} {i : Instr} (h : k ≠ s.plen.toNat)
    (hd : fetchSlot s k = some d) (hi : decode d = .legal i) :
    enter k s = .next (stageEntry i { s with sp := BitVec.ofNat 3 k, idx := 0 }) := by
  unfold enter; rw [if_neg h, hd]; simp only [hi]

/-! ## The step -/

theorem step_quiet {s : State} (h : s.host = []) : step s = sequencerStep s := by
  unfold step; rw [h]

theorem step_move {s : State} {m : HostMove} {rest : List HostMove} (h : s.host = m :: rest) :
    step s = hostMove m { s with host := rest } := by
  unfold step; rw [h]

/-- What a step of the sequencer that answers a next state does: nothing outside BUSY; in BUSY a sample
step of the operation in slot `SP`, or the stage end (R163, R165). -/
theorem sequencerStep_next {s t : State} (h : sequencerStep s = .next t) :
    (s.state ≠ .busy ∧ t = s) ∨
    (s.state = .busy ∧ s.idx.toNat < s.len.toNat ∧ ∃ d i, fetchSlot s s.sp.toNat = some d ∧
      decode d = .legal i ∧ exec i s = .next t) ∨
    (s.state = .busy ∧ s.idx = s.len ∧ enter (s.sp.toNat + 1) s = .next t) := by
  unfold sequencerStep at h
  cases hs : s.state <;> rw [hs] at h <;> simp only at h
  · left; exact ⟨by simp, by simpa using h.symm⟩
  · right
    split at h
    · rename_i hlt
      left
      unfold runSample at h
      split at h
      · cases h
      · rename_i d hd
        split at h
        · rename_i i hi
          exact ⟨rfl, hlt, d, i, hd, hi, h⟩
        · cases h
    · split at h
      · rename_i heq; exact .inr ⟨rfl, heq, h⟩
      · cases h
  · left; exact ⟨by simp, by simpa using h.symm⟩
  · left; exact ⟨by simp, by simpa using h.symm⟩

theorem sequencerStep_sample {s : State} {d : Descr} {i : Instr} (hb : s.state = .busy)
    (hi : s.idx.toNat < s.len.toNat) (hd : fetchSlot s s.sp.toNat = some d) (hl : decode d = .legal i) :
    sequencerStep s = exec i s := by
  unfold sequencerStep
  rw [hb]
  simp only [hi, if_true]
  unfold runSample
  rw [hd]
  simp only [hl]

theorem sequencerStep_stageEnd {s : State} (hb : s.state = .busy) (hi : s.idx = s.len) :
    sequencerStep s = enter (s.sp.toNat + 1) s := by
  unfold sequencerStep
  rw [hb]
  simp [hi]

theorem sequencerStep_waits {s : State} (h : s.state ≠ .busy) : sequencerStep s = .next s := by
  unfold sequencerStep
  cases hs : s.state <;> simp_all

/-- A step is a move of the host or of the sequencer. -/
theorem step_cases (s : State) :
    (s.host = [] ∧ step s = sequencerStep s) ∨
    ∃ m rest, s.host = m :: rest ∧ step s = hostMove m { s with host := rest } := by
  cases h : s.host with
  | nil => exact .inl ⟨rfl, step_quiet h⟩
  | cons m rest => exact .inr ⟨m, rest, rfl, step_move h⟩

/-! ## Runs -/

theorem run_zero (s : State) : Host.Core.run Sys2Proof.core 0 s = .next s := rfl

theorem run_succ {s t : State} (n : Nat) (h : step s = .next t) :
    Host.Core.run Sys2Proof.core (n + 1) s = Host.Core.run Sys2Proof.core n t := by
  have h' : Sys2Proof.core.step s = .next t := h
  simp only [Host.Core.run, h']

/-- The first step of a run that answers a next state answers one. -/
theorem run_succ_next {s t : State} {n : Nat}
    (h : Host.Core.run Sys2Proof.core (n + 1) s = .next t) :
    ∃ s', step s = .next s' ∧ Host.Core.run Sys2Proof.core n s' = .next t := by
  simp only [Host.Core.run] at h
  split at h
  · rename_i s' hs; exact ⟨s', hs, h⟩
  · cases h
  · cases h

/-- A run of `n + m` steps is a run of `n` and then one of `m`. -/
theorem run_add {s t : State} (n m : Nat) (h : Host.Core.run Sys2Proof.core n s = .next t) :
    Host.Core.run Sys2Proof.core (n + m) s = Host.Core.run Sys2Proof.core m t := by
  induction n generalizing s with
  | zero => rw [Nat.zero_add]; cases h; rfl
  | succ n ih =>
    obtain ⟨s', hs, hr⟩ := run_succ_next h
    rw [Nat.succ_add, run_succ _ hs, ih hr]

end Sys2Proof.Machine
end

