-- ==== Sys2Proof/Laws/PerInstr.lean ====
section
/-! SUPPORT. Statements made of every instruction, one lemma for each constructor. Family `TableRow`: the word
the encoder writes matches its row of spec/opcode_table.json under the row's mask (R74). -/

namespace Sys2Proof.Laws.TableRow

/-- The encoding of `i` matches its row. -/
def Statement (i : Instr) : Prop := encode i &&& i.tableMask = i.tableMatch

theorem ofFields_matches {op : BitVec 8} {a b : BitVec 32} {m r : Descr}
    (h1 : op &&& opField m = opField r) (h2 : a &&& aField m = aField r)
    (h3 : b &&& bField m = bField r) : ofFields op a b &&& m = r := by
  rw [and_mask_eq_iff, opField_ofFields, aField_ofFields, bField_ofFields]
  exact ⟨h1, h2, h3⟩

/-! The fields of the rows. -/

theorem opField_row (i : Instr) : i.opcode &&& opField i.tableMask = opField i.tableMatch := by
  cases i <;> simp only [Instr.opcode, Instr.tableMask, Instr.tableMatch] <;> decide

theorem aField_row (i : Instr) (a : BitVec 32) : a &&& aField i.tableMask = aField i.tableMatch := by
  have hm : aField i.tableMask = 0 := by cases i <;> simp only [Instr.tableMask] <;> decide
  have hr : aField i.tableMatch = 0 := by cases i <;> simp only [Instr.tableMatch] <;> decide
  rw [hm, hr]; exact BitVec.and_zero

theorem bField_row (i : Instr) : i.operandB &&& bField i.tableMask = bField i.tableMatch := by
  have hr : bField i.tableMatch = 0 := by cases i <;> simp only [Instr.tableMatch] <;> decide
  rw [hr]
  cases i with
  | trm rateHz depth =>
    have hm : bField (Instr.tableMask (.trm rateHz depth)) = 0 := by
      simp only [Instr.tableMask]; decide
    rw [hm]; exact BitVec.and_zero
  | _ => exact BitVec.zero_and

theorem awn (level : F32) : Statement (.awn level) :=
  ofFields_matches (opField_row _) (aField_row _ _) (bField_row (.awn level))

theorem apn (level : F32) : Statement (.apn level) :=
  ofFields_matches (opField_row _) (aField_row _ _) (bField_row (.apn level))

theorem scd (gain : F32) : Statement (.scd gain) :=
  ofFields_matches (opField_row _) (aField_row _ _) (bField_row (.scd gain))

theorem trm (rateHz depth : F32) : Statement (.trm rateHz depth) :=
  ofFields_matches (opField_row _) (aField_row _ _) (bField_row (.trm rateHz depth))

theorem tel (alpha : F32) : Statement (.tel alpha) :=
  ofFields_matches (opField_row _) (aField_row _ _) (bField_row (.tel alpha))

theorem rmd (frequencyHz : F32) : Statement (.rmd frequencyHz) :=
  ofFields_matches (opField_row _) (aField_row _ _) (bField_row (.rmd frequencyHz))

theorem bcr (bits : BitVec 32) : Statement (.bcr bits) :=
  ofFields_matches (opField_row _) (aField_row _ _) (bField_row (.bcr bits))

end Sys2Proof.Laws.TableRow
end

