-- ==== Sys2Proof/Laws/Runs.lean ====
section
/-! SUPPORT. Runs of the sequencer with a loaded buffer: what one step does to a running block, how many
steps are left, and the induction over them. -/

namespace Sys2Proof.Machine

/-- A block in the middle of a run that nothing disturbs. -/
structure Running (s : State) : Prop where
  busy : s.state = .busy
  quiet : s.host = []
  runnable : Runnable s
  loaded : Loaded s

/-- How many steps a running block still makes. -/
def stepsLeft (s : State) : Nat := (s.plen.toNat - s.sp.toNat) * (s.len.toNat + 1) - s.idx.toNat

/-- The operation of the slot a running block is in. -/
theorem Running.op {s : State} (h : Running s) :
    ∃ d i, fetchSlot s s.sp.toNat = some d ∧ decode d = .legal i := by
  have hk : s.sp.toNat < 7 := lt_of_lt_of_le h.runnable.spInProgram h.runnable.plenFits
  obtain ⟨i, hi⟩ := h.runnable.legal _ _ h.runnable.spInProgram (fetchSlot_of_lt hk)
  exact ⟨_, i, fetchSlot_of_lt hk, hi⟩

theorem idx_succ {s : State} (h : s.idx.toNat < s.len.toNat) : (s.idx + 1).toNat = s.idx.toNat + 1 := by
  have := s.len.isLt
  rw [BitVec.toNat_add]
  have : (1#32).toNat = 1 := rfl
  show (s.idx.toNat + (1#32).toNat) % 2 ^ 32 = _
  rw [Nat.mod_eq_of_lt] <;> omega

/-- A sample step of a running block. -/
theorem Running.sample {s : State} (h : Running s) {d : Descr} {i : Instr}
    (hd : fetchSlot s s.sp.toNat = some d) (hi : decode d = .legal i) (hlt : s.idx.toNat < s.len.toNat) :
    ∃ x, s.buf.read s.idx.toNat = some x ∧
      step s = .next ((privateOf i s x).finishSample (resultOf i s x)) ∧
      Running ((privateOf i s x).finishSample (resultOf i s x)) := by
  obtain ⟨x, hx⟩ := h.loaded _ hlt
  refine ⟨x, hx, ?_, ?_⟩
  · rw [step_quiet h.quiet, sequencerStep_sample h.busy hlt hd hi, exec_of_read hx]
  · refine ⟨by simpa using h.busy, by simpa using h.quiet, ⟨?_, ?_, ?_, ?_, ?_⟩, ?_⟩
    · simpa using h.runnable.lenFits
    · simpa using h.runnable.plenFits
    · simpa using h.runnable.spInProgram
    · simp only [finishSample_idx, finishSample_len, privateOf_idx, privateOf_len, idx_succ hlt]; omega
    · intro k e hk he
      have he' : fetchSlot s k = some e := by simpa [fetchSlot] using he
      exact h.runnable.legal k e (by simpa using hk) he'
    · intro k hk
      simp only [finishSample_buf, privateOf_buf, privateOf_idx]
      by_cases hki : k = s.idx.toNat
      · exact ⟨_, by rw [hki, Memory.read_write_same]⟩
      · rw [Memory.read_write_ne _ _ hki]; exact h.loaded k (by simpa using hk)

/-- What no stage entry changes. -/
theorem stageEntry_keeps (i : Instr) (s : State) :
    (stageEntry i s).buf = s.buf ∧ (stageEntry i s).len = s.len ∧ (stageEntry i s).srate = s.srate ∧
    (stageEntry i s).fmeta = s.fmeta ∧ (stageEntry i s).plen = s.plen ∧ (stageEntry i s).prog = s.prog ∧
    (stageEntry i s).state = s.state ∧ (stageEntry i s).ecode = s.ecode ∧
    (stageEntry i s).eslot = s.eslot ∧ (stageEntry i s).sp = s.sp ∧ (stageEntry i s).idx = s.idx ∧
    (stageEntry i s).npos = s.npos ∧ (stageEntry i s).host = s.host ∧
    (stageEntry i s).replies = s.replies ∧ (stageEntry i s).freeCount = s.freeCount := by
  cases i <;> exact ⟨rfl, rfl, rfl, rfl, rfl, rfl, rfl, rfl, rfl, rfl, rfl, rfl, rfl, rfl, rfl⟩

/-- Entering a slot of the program of a block that can run makes a running block. -/
theorem running_entered {s : State} {i : Instr} {k : Nat} (hb : s.state = .busy) (hq : s.host = [])
    (hlen : s.len.toNat ≤ Config.nmax) (hplen : s.plen.toNat ≤ 7) (hk : k < s.plen.toNat)
    (hlegal : ∀ k d, k < s.plen.toNat → fetchSlot s k = some d → ∃ i, decode d = .legal i)
    (hl : Loaded s) : Running (stageEntry i { s with sp := BitVec.ofNat 3 k, idx := 0 }) := by
  obtain ⟨h1, h2, -, -, h5, h6, h7, -, -, h10, h11, -, h13, -, -⟩ :=
    stageEntry_keeps i { s with sp := BitVec.ofNat 3 k, idx := 0 }
  refine ⟨by rw [h7]; exact hb, by rw [h13]; exact hq, ⟨?_, ?_, ?_, ?_, ?_⟩, ?_⟩
  · rw [h2]; exact hlen
  · rw [h5]; exact hplen
  · rw [h5, h10]
    simp only [BitVec.toNat_ofNat]
    omega
  · rw [h11]; simp
  · intro j d hj hd
    rw [h5] at hj
    exact hlegal j d hj (by simpa [fetchSlot, h6] using hd)
  · intro j hj
    rw [h2] at hj
    rw [h1]
    exact hl j hj

/-- The stage end of a running block: the run is over, or the next slot is entered. -/
theorem Running.stageEnd {s : State} (h : Running s) (he : s.idx = s.len) :
    (s.sp.toNat + 1 = s.plen.toNat ∧ step s = .next { s with state := .done }) ∨
    (s.sp.toNat + 1 < s.plen.toNat ∧ ∃ d i, fetchSlot s (s.sp.toNat + 1) = some d ∧
      decode d = .legal i ∧
      step s = .next (stageEntry i { s with sp := BitVec.ofNat 3 (s.sp.toNat + 1), idx := 0 }) ∧
      Running (stageEntry i { s with sp := BitVec.ofNat 3 (s.sp.toNat + 1), idx := 0 })) := by
  have hstep : step s = enter (s.sp.toNat + 1) s := by
    rw [step_quiet h.quiet, sequencerStep_stageEnd h.busy he]
  have hsp := h.runnable.spInProgram
  have hp := h.runnable.plenFits
  by_cases hk : s.sp.toNat + 1 = s.plen.toNat
  · exact .inl ⟨hk, by rw [hstep, enter_end hk]⟩
  · have hk7 : s.sp.toNat + 1 < 7 := by omega
    obtain ⟨i, hi⟩ := h.runnable.legal _ _ (by omega) (fetchSlot_of_lt hk7)
    refine .inr ⟨by omega, _, i, fetchSlot_of_lt hk7, hi, ?_, ?_⟩
    · rw [hstep, enter_slot hk (fetchSlot_of_lt hk7) hi]
    · exact running_entered h.busy h.quiet h.runnable.lenFits hp (by omega) h.runnable.legal h.loaded

/-- Every step of a running block is a sample step, the last stage end or the entry of the next slot. -/
theorem Running.step_cases {s t : State} (h : Running s) (hs : step s = .next t) :
    (s.idx.toNat < s.len.toNat ∧ ∃ d i x, fetchSlot s s.sp.toNat = some d ∧ decode d = .legal i ∧
      s.buf.read s.idx.toNat = some x ∧ t = (privateOf i s x).finishSample (resultOf i s x)) ∨
    (s.idx = s.len ∧ s.sp.toNat + 1 = s.plen.toNat ∧ t = { s with state := .done }) ∨
    (s.idx = s.len ∧ s.sp.toNat + 1 < s.plen.toNat ∧ ∃ d i, fetchSlot s (s.sp.toNat + 1) = some d ∧
      decode d = .legal i ∧
      t = stageEntry i { s with sp := BitVec.ofNat 3 (s.sp.toNat + 1), idx := 0 }) := by
  rcases Nat.lt_or_ge s.idx.toNat s.len.toNat with hlt | hge
  · obtain ⟨d, i, hd, hi⟩ := h.op
    obtain ⟨x, hx, hs', -⟩ := h.sample hd hi hlt
    rw [hs] at hs'; injection hs' with hs'
    exact .inl ⟨hlt, d, i, x, hd, hi, hx, hs'⟩
  · have he : s.idx = s.len := by
      apply BitVec.eq_of_toNat_eq; have := h.runnable.idxInBuffer; omega
    rcases h.stageEnd he with ⟨hk, hs'⟩ | ⟨hk, d, i, hd, hi, hs', -⟩ <;> rw [hs] at hs' <;>
      injection hs' with hs'
    · exact .inr (.inl ⟨he, hk, hs'⟩)
    · exact .inr (.inr ⟨he, hk, d, i, hd, hi, hs'⟩)

theorem ofNat_three {k : Nat} (h : k < 8) : (BitVec.ofNat 3 k).toNat = k := by
  rw [BitVec.toNat_ofNat]; omega

theorem stepsLeft_pos {s : State} (h : Running s) : 0 < stepsLeft s := by
  have h1 := h.runnable.spInProgram
  have h2 := h.runnable.idxInBuffer
  unfold stepsLeft
  have : 1 * (s.len.toNat + 1) ≤ (s.plen.toNat - s.sp.toNat) * (s.len.toNat + 1) :=
    Nat.mul_le_mul_right _ (by omega)
  omega

/-- One step of a running block: it goes on with one step less, or this was the last one. -/
theorem Running.step {s : State} (h : Running s) :
    (∃ t, Machine.step s = .next t ∧ Running t ∧ stepsLeft s = stepsLeft t + 1) ∨
    (Machine.step s = .next { s with state := .done } ∧ stepsLeft s = 1) := by
  have hsp := h.runnable.spInProgram
  have hpl := h.runnable.plenFits
  rcases Nat.lt_or_ge s.idx.toNat s.len.toNat with hlt | hge
  · obtain ⟨d, i, hd, hi⟩ := h.op
    obtain ⟨x, -, hs, hr⟩ := h.sample hd hi hlt
    refine .inl ⟨_, hs, hr, ?_⟩
    have := stepsLeft_pos hr
    revert this
    unfold stepsLeft
    simp only [finishSample_plen, finishSample_sp, finishSample_len, finishSample_idx, privateOf_plen,
      privateOf_sp, privateOf_len, privateOf_idx, idx_succ hlt]
    omega
  · have he : s.idx = s.len := by
      apply BitVec.eq_of_toNat_eq; have := h.runnable.idxInBuffer; omega
    rcases h.stageEnd he with ⟨hk, hs⟩ | ⟨hk, d, i, hd, hi, hs, hr⟩
    · refine .inr ⟨hs, ?_⟩
      unfold stepsLeft
      have : s.plen.toNat - s.sp.toNat = 1 := by omega
      rw [this, he]; omega
    · refine .inl ⟨_, hs, hr, ?_⟩
      obtain ⟨-, h2, -, -, h5, -, -, -, -, h10, h11, -⟩ :=
        stageEntry_keeps i { s with sp := BitVec.ofNat 3 (s.sp.toNat + 1), idx := 0 }
      unfold stepsLeft
      rw [h2, h5, h10, h11]
      simp only [ofNat_three (show s.sp.toNat + 1 < 8 by omega), he]
      obtain ⟨m, hm⟩ : ∃ m, s.plen.toNat - s.sp.toNat = m + 2 := ⟨s.plen.toNat - s.sp.toNat - 2, by omega⟩
      have hm' : s.plen.toNat - (s.sp.toNat + 1) = m + 1 := by omega
      have h0 : BitVec.toNat (0 : BitVec 32) = 0 := rfl
      rw [hm, hm', h0]
      have e : (m + 2) * (s.len.toNat + 1) = (m + 1) * (s.len.toNat + 1) + (s.len.toNat + 1) := by ring
      omega

/-- The induction over the steps of a run: what holds of a running block, and what each step keeps, holds at
the end, where the block is DONE. -/
theorem Running.induction {P : State → Prop}
    (keep : ∀ s t, Running s → P s → Machine.step s = .next t → P t) {s : State} (h : Running s) (hP : P s) :
    (∀ n, n < stepsLeft s → ∃ u, Host.Core.run Sys2Proof.core n s = .next u ∧ Running u ∧ P u) ∧
    ∃ t, Host.Core.run Sys2Proof.core (stepsLeft s) s = .next t ∧ t.state = .done ∧ P t := by
  generalize hm : stepsLeft s = m
  induction m generalizing s with
  | zero => have := stepsLeft_pos h; omega
  | succ m ih =>
    rcases h.step with ⟨u, hs, hr, hl⟩ | ⟨hs, hl⟩
    · have hmu : stepsLeft u = m := by omega
      obtain ⟨h1, t, ht, hd, hp⟩ := ih hr (keep _ _ h hP hs) hmu
      refine ⟨?_, t, by rw [run_succ _ hs, ht], hd, hp⟩
      intro n hn
      cases n with
      | zero => exact ⟨s, rfl, h, hP⟩
      | succ n =>
        obtain ⟨v, hv, hv2⟩ := h1 n (by omega)
        exact ⟨v, by rw [run_succ _ hs, hv], hv2⟩
    · have hm0 : m = 0 := by omega
      subst hm0
      refine ⟨?_, _, by rw [run_succ _ hs]; rfl, rfl, keep _ _ h hP hs⟩
      intro n hn
      have : n = 0 := by omega
      subst this
      exact ⟨s, rfl, h, hP⟩

theorem hostMove_start {s : State} {v : BitVec 72} (hv : v.getLsbD 0 = true) (h : s.state ≠ .busy) :
    hostMove (.regWrite 0 v) s = startRequest s := by
  show hostRegWrite 0 v s = startRequest s
  unfold hostRegWrite
  rw [if_neg h, if_pos rfl, if_pos hv]

theorem startRequest_valid {s : State} (h : s.state = .idle ∨ s.state = .done)
    (hv : validate Config.nmax s = none) : startRequest s = beginRun s := by
  unfold startRequest
  rcases h with h | h <;> rw [h] <;> simp only [hv]

theorem startRequest_invalid {s : State} {c : ECode} {k : BitVec 3} (h : s.state = .idle ∨ s.state = .done)
    (hv : validate Config.nmax s = some (c, k)) : startRequest s = .next (raiseFault c k s) := by
  unfold startRequest
  rcases h with h | h <;> rw [h] <;> simp only [hv]

theorem startRequest_ignored {s : State} (h : s.state = .busy ∨ s.state = .err) :
    startRequest s = .next s := by
  unfold startRequest
  rcases h with h | h <;> rw [h]

/-- START from a ready state: an empty program is over at once; otherwise slot 0 is entered and the block is
running, with every step of the run left. -/
theorem ReadyToStart.started {s : State} (h : ReadyToStart s) :
    (s.plen.toNat = 0 ∧ step { s with host := [.regWrite 0 1] } =
      .next { s with host := [], ecode := .none, eslot := 0, state := .done }) ∨
    ∃ d i t, fetchSlot s 0 = some d ∧ decode d = .legal i ∧
      t = stageEntry i { s with
        host := [], ecode := .none, eslot := 0, state := .busy, sp := BitVec.ofNat 3 0, idx := 0 } ∧
      step { s with host := [.regWrite 0 1] } = .next t ∧ Running t ∧ stepsLeft t = runSteps s := by
  obtain ⟨hcs, hv, hl⟩ := h
  have hnb : s.state ≠ .busy := by rcases hcs with h | h <;> rw [h] <;> decide
  have hstart : step { s with host := [.regWrite 0 1] } = beginRun { s with host := [] } := by
    rw [step_move (s := { s with host := [.regWrite 0 1] }) (m := .regWrite 0 1) (rest := []) rfl]
    exact (hostMove_start (s := { s with host := [] }) (by decide) hnb).trans (startRequest_valid hcs hv)
  obtain ⟨v1, v2, v3⟩ := validate_eq_none.mp hv
  by_cases hp : s.plen.toNat = 0
  · left
    refine ⟨hp, ?_⟩
    rw [hstart]
    unfold beginRun
    rw [enter_end (by exact hp.symm)]
  · right
    obtain ⟨i, hi⟩ := v3 0 _ (by omega) (fetchSlot_of_lt (by norm_num))
    refine ⟨_, i, _, fetchSlot_of_lt (by norm_num), hi, rfl, ?_, ?_, ?_⟩
    · rw [hstart]
      unfold beginRun
      exact enter_slot (Ne.symm hp) (d := s.prog[0]) (fetchSlot_of_lt (by norm_num)) hi
    · exact running_entered (s := { s with host := [], ecode := .none, eslot := 0, state := .busy })
        rfl rfl v1 v2 (by show 0 < s.plen.toNat; omega) v3 hl
    · obtain ⟨-, h2, -, -, h5, -, -, -, -, h10, h11, -⟩ :=
        stageEntry_keeps i { s with
          host := [], ecode := .none, eslot := 0, state := .busy, sp := BitVec.ofNat 3 0, idx := 0 }
      unfold stepsLeft runSteps
      rw [h2, h5, h10, h11]
      simp

/-- What holds of the state START enters, and what each step of a running block keeps, holds when the run is
over. -/
theorem ReadyToStart.run_induction {P : State → Prop} {s t : State} (h : ReadyToStart s)
    (start : ∀ u, step { s with host := [.regWrite 0 1] } = .next u → P u)
    (keep : ∀ u v, Running u → P u → Machine.step u = .next v → P v)
    (ht : afterStart s (runSteps s) = .next t) : t.state = .done ∧ P t := by
  unfold afterStart at ht
  rw [Nat.add_comm] at ht
  rcases h.started with ⟨hp, hs⟩ | ⟨d, i, u, -, -, -, hs, hr, hl⟩
  · rw [run_succ _ hs] at ht
    have : runSteps s = 0 := by unfold runSteps; rw [hp, Nat.zero_mul]
    rw [this, run_zero] at ht
    injection ht with ht
    subst ht
    exact ⟨rfl, start _ hs⟩
  · rw [run_succ _ hs] at ht
    obtain ⟨-, t', ht', hd, hP⟩ := hr.induction keep (start _ hs)
    rw [hl, ht] at ht'
    injection ht' with ht'
    subst ht'
    exact ⟨hd, hP⟩

/-! ## The start and the program of a run -/

/-- The state START enters, in both cases. -/
theorem ReadyToStart.start_cases {s u : State} (h : ReadyToStart s)
    (hu : step { s with host := [.regWrite 0 1] } = .next u) :
    (s.plen.toNat = 0 ∧ u = { s with host := [], ecode := .none, eslot := 0, state := .done }) ∨
    (s.plen.toNat ≠ 0 ∧ Running u ∧ ∃ d i, fetchSlot s 0 = some d ∧ decode d = .legal i ∧
      u = stageEntry i { s with
        host := [], ecode := .none, eslot := 0, state := .busy, sp := BitVec.ofNat 3 0, idx := 0 }) := by
  rcases h.started with ⟨hp, hs⟩ | ⟨d, i, t, hd, hi, ht, hs, hr, hl⟩
  · left; rw [hu] at hs; injection hs with hs; exact ⟨hp, hs⟩
  · right
    rw [hu] at hs; injection hs with hs; subst hs
    have := stepsLeft_pos hr
    refine ⟨?_, hr, d, i, hd, hi, ht⟩
    intro h0; rw [hl] at this; unfold runSteps at this; rw [h0] at this; omega

/-- The operation of a descriptor that has one. -/
def opOf (d : Descr) : Option Instr :=
  match decode d with
  | .legal i => some i
  | .illegal _ => none

theorem programOf_eq (s : State) : programOf s = (activeSlots s).filterMap opOf := rfl

theorem opOf_legal {d : Descr} {i : Instr} (h : decode d = .legal i) : opOf d = some i := by
  unfold opOf; rw [h]

/-- A list of legal descriptors, operation by operation. -/
theorem filterMap_opOf {ds : List Descr} (h : ∀ d ∈ ds, ∃ i, decode d = .legal i) :
    (ds.filterMap opOf).length = ds.length ∧
    ∀ (k : Nat) (d : Descr) (i : Instr), ds[k]? = some d → decode d = .legal i →
      (ds.filterMap opOf)[k]? = some i := by
  induction ds with
  | nil => simp
  | cons e ds ih =>
    obtain ⟨i, hi⟩ := h e (by simp)
    obtain ⟨ih1, ih2⟩ := ih fun d hd => h d (by simp [hd])
    rw [List.filterMap_cons, opOf_legal hi]
    refine ⟨by simp [ih1], ?_⟩
    intro k d j hd hj
    cases k with
    | zero => simp at hd; subst hd; rw [hi] at hj; simp at hj; simp [hj]
    | succ k => simp at hd ⊢; exact ih2 k d j hd hj

/-- The program of a run lists the operation of each slot below `PLEN`. -/
theorem programOf_get {s : State} (hp : s.plen.toNat ≤ 7)
    (hl : ∀ k d, k < s.plen.toNat → fetchSlot s k = some d → ∃ i, decode d = .legal i) :
    (programOf s).length = s.plen.toNat ∧
    ∀ k d i, k < s.plen.toNat → fetchSlot s k = some d → decode d = .legal i →
      (programOf s)[k]? = some i := by
  obtain ⟨g1, g2⟩ := filterMap_opOf (ds := activeSlots s) (by
    intro d hd; obtain ⟨k, hk, hd⟩ := mem_activeSlots.mp hd; exact hl k d hk hd)
  constructor
  · rw [programOf_eq, g1]; unfold activeSlots; simp [Config.nslot]; omega
  · intro k d i hk hd hi
    refine g2 k d i ?_ hi
    obtain ⟨h7, hd⟩ := fetchSlot_eq_some.mp hd
    unfold activeSlots
    rw [List.getElem?_take, if_pos hk]
    simp [← hd, Config.nslot, h7]

end Sys2Proof.Machine
end

