-- ==== Sys2Proof/Laws/Trig.lean ====
section
/-! SUPPORT. The sine and the hyperbolic tangent of the model have the properties R96 asks for, and nothing
else is known of them. -/

namespace Sys2Proof.Machine

theorem sinFallback_admissible : SinAdmissible sinFallback where
  zero := by decide
  finite := by
    intro x hx
    unfold sinFallback
    rw [if_pos hx]
    exact ⟨by decide, by decide +kernel, by decide +kernel⟩
  nonfinite := by
    intro x hx
    unfold sinFallback
    rw [if_neg (by simp [hx])]
    decide

theorem fVal_fOne : fVal fOne = fOneUnits := by decide +kernel

theorem fVal_fMinusOne : fVal fMinusOne = -fOneUnits := by decide +kernel

/-- The value of the clamped identity. -/
theorem fVal_tanhFallback {x : F32} (h : fIsNaN x = false) :
    fIsNaN (tanhFallback x) = false ∧ fNeg (tanhFallback x) = fNeg x ∧
      fMag (tanhFallback x) = min (fMag x) (fMag fOne) := by
  have hone : fMag fOne < 2 ^ 31 := fMag_lt _
  unfold tanhFallback
  rw [if_neg (by simp [h])]
  split
  · rename_i hlt
    rw [fNeg_fPack _ hone, fMag_fPack _ hone, min_eq_right hlt.le]
    refine ⟨?_, rfl, rfl⟩
    unfold fIsNaN; rw [fMag_fPack _ hone]; decide
  · rename_i hge
    rw [min_eq_left (by omega)]
    exact ⟨h, rfl, rfl⟩

theorem signed_le_signed {s t : Bool} {m n : Nat} (c : Nat) (h : signed s m ≤ signed t n) :
    signed s (min m c) ≤ signed t (min n c) := by
  cases s <;> cases t <;> simp only [signed_true, signed_false] at * <;> omega

theorem magVal_min (p q : Nat) : magVal (min p q) = min (magVal p) (magVal q) :=
  magVal_strictMono.monotone.map_min

theorem tanhFallback_range {x : F32} (h : fIsNaN x = false) :
    fLe fMinusOne (tanhFallback x) = true ∧ fLe (tanhFallback x) fOne = true := by
  obtain ⟨hn, hs, hm⟩ := fVal_tanhFallback h
  have hb : fVal (tanhFallback x) = signed (fNeg x) (min (magVal (fMag x)) (magVal (fMag fOne))) := by
    rw [fVal_eq, hs, hm, magVal_min]
  have h1 : fVal fOne = (magVal (fMag fOne) : Int) := by
    rw [fVal_eq]; rfl
  have h2 : fVal fMinusOne = -(magVal (fMag fOne) : Int) := by
    rw [fVal_eq]; rfl
  rw [fLe_iff, fLe_iff, hb, h1, h2]
  refine ⟨⟨by decide, hn, ?_⟩, hn, by decide, ?_⟩ <;>
    cases fNeg x <;> simp only [signed_true, signed_false] <;> omega

theorem tanhFallback_admissible : TanhAdmissible tanhFallback where
  zero := by decide
  minusZero := by decide
  range := fun x h => tanhFallback_range h
  posInf := by decide
  negInf := by decide
  nan := by
    intro x h
    unfold tanhFallback
    rw [if_pos h]; decide
  mono := by
    intro x y h
    rw [fLe_iff] at h ⊢
    obtain ⟨hx, hy, hv⟩ := h
    obtain ⟨hxn, hxs, hxm⟩ := fVal_tanhFallback hx
    obtain ⟨hyn, hys, hym⟩ := fVal_tanhFallback hy
    refine ⟨hxn, hyn, ?_⟩
    rw [fVal_eq, fVal_eq (tanhFallback y), hxs, hxm, hys, hym, magVal_min, magVal_min]
    exact signed_le_signed _ hv
  odd := by
    intro x h
    obtain ⟨-, hs, hm⟩ := fVal_tanhFallback h
    obtain ⟨-, hs', hm'⟩ := fVal_tanhFallback (x := fNegate x) (by simpa using h)
    exact f32_ext (by rw [hs', fNeg_fNegate, fNeg_fNegate, hs]) (by rw [hm', fMag_fNegate, fMag_fNegate, hm])

/-- `fsin` is admissible, whatever `Config` holds. -/
theorem fsin_admissible : SinAdmissible fsin := by
  have h : fsin = (match Config.sinChoice with | some f => f.1 | none => sinFallback) := by
    funext x; unfold fsin; cases Config.sinChoice <;> rfl
  rw [h]
  cases Config.sinChoice with
  | none => exact sinFallback_admissible
  | some f => exact f.2

/-- `ftanh` is admissible, whatever `Config` holds. -/
theorem ftanh_admissible : TanhAdmissible ftanh := by
  have h : ftanh = (match Config.tanhChoice with | some f => f.1 | none => tanhFallback) := by
    funext x; unfold ftanh; cases Config.tanhChoice <;> rfl
  rw [h]
  cases Config.tanhChoice with
  | none => exact tanhFallback_admissible
  | some f => exact f.2

end Sys2Proof.Machine
end

