-- ==== Sys2Proof/Tests/Slice0.lean ====
section
/-! SUPPORT. The model's own tests. Every expected value is a vector of spec/95 or a table of the spec, named in
the docstring. The second half shows, for each statement with hypotheses, values that meet them. -/

namespace Sys2Proof.Machine.Tests

open Sys2Proof Sys2Proof.Machine

/-! ## Well-formedness: for each check a term it refuses -/

/-- R76 case a: `OP` = 0x00 (V-ENC-14) and `OP` = 0x08 (V-ENC-15). -/
theorem test_wf_refuses_undefined_op :
    Descr.opDefined 0x000000000000000000 = false ∧ Descr.opDefined 0x083F80000000000000 = false ∧
    Descr.wellFormed 0x083F80000000000000 = false := by decide

/-- R76 case b: V-ENC-17, AWN with `B` = 1. -/
theorem test_wf_refuses_reserved_field :
    Descr.reservedZero 0x013C23D70A00000001 = false ∧
    Descr.wellFormed 0x013C23D70A00000001 = false := by decide

/-- Every legal vector of 95 passes both checks: V-ENC-1, V-ENC-9, V-ENC-13. -/
theorem test_wf_accepts :
    Descr.wellFormed 0x0440C000003E4CCCCD = true ∧ Descr.wellFormed 0x07FFFFFFFF00000000 = true ∧
    Descr.wellFormed 0x0400000000FFFFFFFF = true := by decide

/-- R28: a program of eight legal descriptors does not fit; one with an illegal descriptor is refused. -/
theorem test_wf_refuses_program :
    Program.wellFormed (List.replicate 8 0x070000000800000000) = false ∧
    Program.wellFormed [0x070000000800000000, 0x083F80000000000000] = false ∧
    Program.wellFormed (List.replicate 7 0x070000000800000000) = true := by decide

/-- R79, R72: `bits` is an unsigned 32-bit operand. -/
theorem test_wf_refuses_bits :
    AsmLine.wellFormed (.bcr 4294967296) = false ∧ AsmLine.wellFormed (.bcr 4294967295) = true := by decide

/-- R79: more than seven lines is an assembly error. -/
theorem test_wf_refuses_eight_lines :
    AsmProgram.wellFormed (.lines (List.replicate 8 (.bcr 8))) = false ∧
    AsmProgram.wellFormed (.lines [.bcr 4294967296]) = false ∧
    assemble (.lines (List.replicate 8 (.bcr 8))) = none := by decide

/-! ## Decoding: words written out from R70 and R74, `OP` [71:64], `A` [63:32], `B` [31:0] -/

/-- V-ENC-3: `OP` = 0000 0001, `A` = 0.01, `B` = 0. -/
theorem test_decode_awn :
    decode 0b000000010011110000100011110101110000101000000000000000000000000000000000 =
      .legal (.awn 0x3C23D70A) := by decide

/-- V-ENC-4. -/
theorem test_decode_apn :
    decode 0b000000100011110101001100110011001100110100000000000000000000000000000000 =
      .legal (.apn 0x3D4CCCCD) := by decide

/-- V-ENC-5. -/
theorem test_decode_scd :
    decode 0b000000110100000000000000000000000000000000000000000000000000000000000000 =
      .legal (.scd 0x40000000) := by decide

/-- V-ENC-1: `A` = 6.0, `B` = 0.2. -/
theorem test_decode_trm :
    decode 0b000001000100000011000000000000000000000000111110010011001100110011001101 =
      .legal (.trm 0x40C00000 0x3E4CCCCD) := by decide

/-- V-ENC-6. -/
theorem test_decode_tel :
    decode 0b000001010011111100000000000000000000000000000000000000000000000000000000 =
      .legal (.tel 0x3F000000) := by decide

/-- V-ENC-2. -/
theorem test_decode_rmd :
    decode 0b000001100100000110100000000000000000000000000000000000000000000000000000 =
      .legal (.rmd 0x41A00000) := by decide

/-- V-ENC-8. -/
theorem test_decode_bcr :
    decode 0b000001110000000000000000000000000000100000000000000000000000000000000000 =
      .legal (.bcr 8) := by decide

/-- V-ENC-9 to V-ENC-13: every operand pattern is legal. -/
theorem test_decode_any_operand :
    decode 0x07FFFFFFFF00000000 = .legal (.bcr 4294967295) ∧
    decode 0x047FC000007FC00000 = .legal (.trm 0x7FC00000 0x7FC00000) ∧
    decode 0x0400000000FFFFFFFF = .legal (.trm 0 0xFFFFFFFF) := by decide

/-- V-ENC-14 to V-ENC-19. -/
theorem test_decode_illegal :
    decode 0xFF0000000000000000 = .illegal .illegalOp ∧
    decode 0x070000000880000000 = .illegal .reservedField ∧
    decode 0x003C23D70A00000001 = .illegal .illegalOp := by decide

/-- V-ENC-1 and V-ENC-8 encoded. -/
theorem test_encode :
    encode (.trm 0x40C00000 0x3E4CCCCD) = 0x0440C000003E4CCCCD ∧
    encode (.bcr 8) = 0x070000000800000000 := by decide

/-- The host's numbering: bit 0 is the least significant bit of the one word. -/
theorem test_decodeTableWord :
    decodeTableWord 72 0x0440C000003E4CCCCD = some (.trm 0x40C00000 0x3E4CCCCD) ∧
    decodeTableWord 72 0x083F80000000000000 = none := by decide

/-! ## Primitives -/

/-- V-NRM-2, V-NRM-4, V-NRM-7 to V-NRM-13. -/
theorem test_normalize :
    normalizeInt 0x46FFFF00 = 32767 ∧ normalizeInt 0x46FFFDFF = 32766 ∧
    normalizeInt 0xC7000000 = -32767 ∧ normalizeInt 0x7F800000 = 32767 ∧
    normalizeInt 0xFF800000 = -32767 ∧ normalizeInt 0xFFC00001 = 0 ∧
    normalizeInt 0xC039999A = -2 ∧ normalizeInt 0x3F7FFFFF = 0 := by decide

/-- V-DRW-2. -/
theorem test_white :
    whiteOf 16384 = 0x3F000000 ∧ whiteOf 32767 = 0x3F7FFE00 ∧ whiteOf (-32768) = 0xBF800000 ∧
    whiteOf 1 = 0x38000000 := by decide

/-- V-PH-1, V-PH-6, V-PH-8, V-PH-10. -/
theorem test_phaseStep :
    phaseStep 0x40C00000 44100 = 0x3A60185C ∧ phaseStep (fOfInt 44100) 44100 = 0x40C90FDA ∧
    phaseStep 0xBF800000 4 = 0xBFC90FDB ∧ phaseStep 0x41A00000 0 = 0x7F800000 := by decide

/-- V-PH-11: zero over zero. -/
theorem test_phaseStep_nan : fIsNaN (phaseStep 0 0) = true := by decide

/-- V-PH-12 (a sum of exactly `TWO_PI` is not wrapped), V-PH-13, V-PH-14. -/
theorem test_advance :
    advance 0x4096CBE4 0x3FC90FDB = 0x40C90FDB ∧ advance 0x40C90FDB 0x3FC90FDB = 0x3FC90FDC ∧
    advance 0x40C89B1A 0x3D80634A = 0x3D466600 := by decide

/-- V-SEQ-4: `STATUS` after an illegal opcode in slot 1. -/
theorem test_status :
    statusWord { State.reset with state := .err, ecode := .illegalOp, eslot := 1 } = 0x113 := by decide

/-! ## The stage operations -/

/-- V-AWN-1, V-AWN-4, V-AWN-8, V-AWN-10. -/
theorem test_awn :
    awnSample 0x3C23D70A 1000 12345 = 1123 ∧ awnSample 0x3C23D70A (-32768) (-32768) = -32767 ∧
    awnSample 0x3C23D70A (-5) 150 = -3 ∧ awnSample 0x3C23D70A 5 (-32768) = -322 := by decide

/-- V-AWN-11: level +inf, and zero times infinity. -/
theorem test_awn_nonfinite :
    awnSample 0x7F800000 1000 5 = 32767 ∧ awnSample 0x7F800000 1000 0 = 0 := by decide

/-- The shaper's state after index 0 of V-APN-1. -/
def pinkAfter0 : PinkRegs := pinkNext Config.pinkKellet .zero 16384

/-- V-APN-1, indices 0 and 1, with the record of R107. -/
theorem test_apn :
    pinkAfter0 = ⟨0x3CE366BD, 0x3D19C165, 0x3D9D8B61, 0x3E1EF7F8, 0x3E886F8E, 0xBC0A6DAD, 0x3D6D6A9C⟩ ∧
    pinkValue Config.pinkKellet .zero 16384 = 0x3DB989FB ∧
    apnSample 0x3D4CCCCD 0 0x3DB989FB = 148 := by decide +kernel

/-- V-APN-1, index 1: the value uses index 0's `B6`. -/
theorem test_apn_delay :
    pinkValue Config.pinkKellet pinkAfter0 (-16384) = 0xBD188A96 ∧
    apnSample 0x3D4CCCCD 0 0xBD188A96 = -61 := by decide +kernel

/-- V-SCD-9, in both orders: the default hyperbolic tangent of 0x3D7A01F4 is 0x3D79B297. -/
theorem test_scd (order : Config.ScdOrder) :
    scdSample order (fun n => if n = 0x3D7A01F4 then 0x3D79B297 else 0) 0x40000000 1000 = 1997 := by
  cases order <;> decide

/-- V-SCD-11 and the argument of V-SCD-12, in both orders: the default hyperbolic tangent of 0xBF800100 is
0xBF42F8AD. -/
theorem test_scd_negative (order : Config.ScdOrder) :
    scdSample order (fun n => if n = 0xBF800100 then 0xBF42F8AD else 0) 0x3F800000 (-32768) = -24955 ∧
    scdInput order 0x41200000 (fOfSample 32767) = 0x41200000 := by
  cases order <;> decide

/-- V-TRM-1, index 1: the default sine of 0x3A60185C is 0x3A60185A. -/
theorem test_trm :
    trmFactor 0x3E4CCCCD 0x3A60185A = 0x3F666C01 ∧
    trmSample (fun p => if p = 0x3A60185C then 0x3A60185A else 0) 0x3E4CCCCD 0x3A60185C 1000 = 900 := by
  decide

/-- V-TRM-3, depth 0.5, index 6 and depth 2.0, index 7: the sines are 0xB4AEEF4C and -1. -/
theorem test_trm_factor :
    trmSample (fun _ => 0xB4AEEF4C) 0x3F000000 0x40490FDC (-32768) = -24575 ∧
    trmSample (fun _ => 0xBF800000) 0x40000000 0x4096CBE5 32767 = -32767 := by decide

/-- V-RMD-4, index 4: the default sine of 0x3C3ABEF7 is 0x3C3ABDEE. -/
theorem test_rmd :
    rmdSample (fun p => if p = 0x3C3ABEF7 then 0x3C3ABDEE else 0) 0x3C3ABEF7 32767 = 373 := by
  decide

/-- V-RMD-2, index 3 with -32768: the sine is -1 and 32768 is clamped. -/
theorem test_rmd_clamp : rmdSample (fun _ => 0xBF800000) 0x4096CBE4 (-32768) = 32767 := by
  decide

/-- V-BCR-4: toward zero, not a mask and not an arithmetic shift. -/
theorem test_bcr :
    bcrSample 8 (-255) = 0 ∧ bcrSample 8 (-1000) = -768 ∧ bcrSample 8 32767 = 32512 ∧
    bcrSample 8 (-32768) = -32768 := by decide

/-- V-BCR-1 and V-BCR-8: `bits` is read unsigned, and zero is legal. -/
theorem test_bcr_bits : bcrSample 4294967295 (-12345) = -12345 ∧ bcrSample 0 (-32768) = 0 := by
  decide

/-! ## One step on a small state -/

/-- A program of one descriptor. -/
def oneSlot (d : Descr) : Vector Descr Config.nslot := #v[d, 0, 0, 0, 0, 0, 0]

/-- IDLE, with one sample `x` loaded and a program of one descriptor. -/
def loaded (d : Descr) (x : Sample) : State :=
  { State.reset with buf := [(0, x)], len := 1, srate := 4, plen := 1, prog := oneSlot d }

/-- The same block in the middle of its run. -/
def running (d : Descr) (x : Sample) : State := { loaded d x with state := .busy }

/-- What a test looks at in the outcome of a step. -/
def seen {α : Type} (f : State → α) : Outcome → Option α
  | .next t => some (f t)
  | .fault _ => none
  | .refused _ => none

/-- V-TEL-2, index 5: `PREV` is the raw -32768, and takes the unfiltered sample. -/
theorem test_tel_step :
    seen (fun t => (t.buf.read 0, t.prev, t.idx))
      (step { running 0x053F00000000000000 0 with prev := fOfSample (-32768) }) =
      some (some 24576, fOfSample 0, 1) := by decide

/-- V-TEL-5, index 4. -/
theorem test_tel : telSample 0xBF800000 (fOfSample 32767) (-32768) = -1 := by decide

/-- P2 of 95, the bit crusher's step on 1500. -/
theorem test_bcr_step :
    seen (fun t => t.buf.read 0) (step (running 0x070000000800000000 1500)) = some (some 1280) := by
  decide

/-- R57: a step that reads a word with no value stops. -/
theorem test_unwritten :
    step { running 0x070000000800000000 0 with buf := [] } = .fault .unwrittenSample := rfl

/-- V-RMD-2: the entry of an RMD stage latches `INC` of `SRATE` = 4, and the two phases are separate (R32). -/
theorem test_rmd_entry :
    seen (fun t => (t.inc, t.phR, t.phT, t.sp, t.idx))
      (step { running 0 0 with
        len := 1, idx := 1, plen := 2, phR := 5, phT := 7
        prog := #v[0x053F00000000000000, 0x063F80000000000000, 0, 0, 0, 0, 0] }) =
      some (0x3FC90FDB, 0, 7, 1, 0) := by decide

/-- V-SEQ-5 and V-SEQ-6, whose capacity is 8: the lowest slot first; the length before everything. -/
theorem test_validate :
    validate 8 { State.reset with
      plen := 2, prog := #v[0x013C23D70A00000001, 0, 0, 0, 0, 0, 0] } = some (.reservedField, 0) ∧
    validate 8 { State.reset with len := 10, plen := 1, prog := oneSlot 0 } = some (.badLen, 0) := by
  decide

/-- V-SEQ-7 and V-SEQ-8. -/
theorem test_validate_plen :
    validate 8 { State.reset with plen := 9, prog := oneSlot 0 } = some (.badPlen, 0) ∧
    validate 8 { State.reset with plen := 1, prog := oneSlot 0x070000000800000000 } = none := by
  decide

/-- V-SEQ-1 (registers 5 and 11) and V-SEQ-13 (`PLEN` written 0xFFFFFFF3 reads 3). -/
theorem test_registers :
    regValue 5 State.reset = 7 ∧ regValue 11 State.reset = 0x0440C000003E4CCCCD ∧
    regValue 5 (regUpdate 5 0xFFFFFFF3 State.reset) = 3 ∧
    regUpdate 1 0xFFFFFFFF State.reset = State.reset := ⟨by decide, by decide, by decide, rfl⟩

/-- The host's question: the word of V-ENC-8 runs as the first instruction after reset. -/
theorem test_withFetchWord :
    seen (fun t => (t.buf.read 0, t.idx)) (step (State.reset.withFetchWord 72 0x070000000800000000)) =
      some (some 0, 1) := by decide

/-! ## The assembler -/

/-- The text of V-ENC-1, in both syntaxes of R79, and of V-ENC-9. -/
theorem test_assembleText :
    assembleText "TRM 6, 0.2 ; tremolo".toList = some [0x0440C000003E4CCCCD] ∧
    assembleText "Tremolo(rate=6, depth=0.2)".toList = some [0x0440C000003E4CCCCD] ∧
    assembleText "BCR 4294967295".toList = some [0x07FFFFFFFF00000000] := by decide

/-- The program P1 of 95, and a line that does not read. -/
theorem test_assembleText_lines :
    assembleText "TRM 6, 0.2\nRMD 20".toList = some [0x0440C000003E4CCCCD, 0x0641A0000000000000] ∧
    assembleText "XYZ 1".toList = none := by decide

/-! ## Witnesses: for each statement with hypotheses, values that meet them

A witness of a statement about every state is about the small states above. `NMAX` is open, so where a
hypothesis speaks of it the proof uses that it is at least 1. -/

/-- DecodeOfEncodeIsTheInstruction. -/
theorem witness_wellFormed : (Instr.trm 0x40C00000 0xFFFFFFFF).wellFormed = true := rfl

/-- EncodeOfDecodeIsTheDescriptor: the greatest `A` and the greatest `B` (V-ENC-9, V-ENC-13). -/
theorem witness_decode :
    decode 0x07FFFFFFFF00000000 = .legal (.bcr 0xFFFFFFFF) ∧
    decode 0x0400000000FFFFFFFF = .legal (.trm 0 0xFFFFFFFF) := by decide

/-- SumsRoundToNearestEven, ProductsRoundToNearestEven, QuotientsRoundToNearestEven: the largest finite value,
the smallest subnormal, and an infinity for the value compared with. -/
theorem witness_finite :
    fIsFin 0x7F7FFFFF = true ∧ fIsFin 0x00000001 = true ∧ fIsZero 0x00000001 = false ∧
    fIsNaN fPosInf = false := by decide

/-- The last clause of the three: 1 + 2^-24 lies halfway between 1 and the next value. -/
theorem witness_tie :
    |fVal (fAdd fOne 0x33800000) - (fVal fOne + fVal 0x33800000)| =
      |fVal 0x3F800001 - (fVal fOne + fVal 0x33800000)| ∧
    fVal 0x3F800001 ≠ fVal (fAdd fOne 0x33800000) := by decide

/-- NonFiniteOperands, clause by clause: infinities of one sign and of both signs. -/
theorem witness_nonfinite :
    fIsNaN fNaN = true ∧ fIsInf fNegInf = true ∧ fIsZero fMinusZero = true ∧ fIsInf fPosInf = true ∧
    (fNeg fPosInf = fNeg fPosInf ∧ fNeg fNegInf = fNeg fNegInf ∧ fNeg fPosInf ≠ fNeg fNegInf) ∧
    fIsFin 0x00000001 = true ∧ fIsZero 0x00000001 = false := by decide

/-- IntegerConversionIsExact: the greatest integer. -/
theorem witness_integer : |(2 ^ 24 : Int)| ≤ 2 ^ 24 ∧ |(-(2 ^ 24) : Int)| ≤ 2 ^ 24 := by decide

/-- NormalizeConsequences: the values next to 1 and -1, and the two ends of the clamp. -/
theorem witness_normalize :
    (fLt fMinusOne 0xBF7FFFFF = true ∧ fLt 0xBF7FFFFF fOne = true) ∧
    (fLe fMinMag fMinMag = true ∧ fLe fMinMag fMaxMag = true ∧ fLe fMaxMag fMaxMag = true) := by
  decide

/-- PhaseStaysInRange: both bounds, and a sum past `TWO_PI`. -/
theorem witness_phase :
    fLe fZero fTwoPi = true ∧ fLe fTwoPi fTwoPi = true ∧ fLe fZero fZero = true ∧
    fLe fZero 0x3FC90FDB = true ∧ fLe 0x3FC90FDB fTwoPi = true ∧
    fGt (fAdd fTwoPi 0x3FC90FDB) fTwoPi = true := by decide

/-- PhaseCornerCases, clause by clause. -/
theorem witness_phase_corners :
    (fIsZero fMinusZero = true ∧ (1 : BitVec 32) ≠ 0) ∧
    (fIsFin 0x00000001 = true ∧ fLt fZero 0x00000001 = true) ∧ fIsNaN fNaN = true := by decide

/-- PinkShaperStaysAtZero: the record of R107, with the registers of stage entry. -/
theorem witness_pink :
    (fIsFin Config.pinkKellet.d0 = true ∧ fIsFin Config.pinkKellet.d1 = true ∧
      fIsFin Config.pinkKellet.d2 = true ∧ fIsFin Config.pinkKellet.d3 = true ∧
      fIsFin Config.pinkKellet.d4 = true ∧ fIsFin Config.pinkKellet.d5 = true ∧
      fIsFin Config.pinkKellet.g0 = true ∧ fIsFin Config.pinkKellet.g1 = true ∧
      fIsFin Config.pinkKellet.g2 = true ∧ fIsFin Config.pinkKellet.g3 = true ∧
      fIsFin Config.pinkKellet.g4 = true ∧ fIsFin Config.pinkKellet.g5 = true ∧
      fIsFin Config.pinkKellet.g6 = true ∧ fIsFin Config.pinkKellet.gw = true ∧
      fIsFin Config.pinkKellet.att = true ∧ fIsZero Config.pinkKellet.dc = true) ∧
    fIsZero PinkRegs.zero.b0 = true ∧ fIsZero PinkRegs.zero.b6 = true := by decide

/-- AwnResult, ApnResult, ScdResult, TrmResult, TelResult, RmdResult, BcrResult: a loaded word. -/
theorem witness_loaded :
    (running 0x070000000800000000 1500).buf.read (running 0x070000000800000000 1500).idx.toNat =
      some 1500 := by decide

/-- UnwrittenSampleStops: a word that holds no value. -/
theorem witness_unwritten : State.reset.buf.read State.reset.idx.toNat = none := by decide

/-- FrameOfPureStages, FrameOfNoiseStages, FrameOfPhaseStages, FrameOfTelephone, FloatStagesStoreInRange: every
operation answers a next state on a loaded word. -/
theorem witness_exec (i : Instr) : ∃ t, exec i (running 0 1500) = .next t := by
  cases i <;> exact ⟨_, rfl⟩

/-- FloatStagesStoreInRange: the operations it is about. -/
theorem witness_normalizes : normalizes (.awn 0) = true ∧ normalizes (.rmd 0) = true := by decide

/-- ScdResult: whichever order the block has, the scaled sample is of that order. -/
theorem witness_scdInput (gain : F32) (x : Sample) :
    scdInput Config.scdOrder gain (fOfSample x) =
      (match Config.scdOrder with
      | .gainFirst => fDiv (fMul (fOfSample x) gain) fMaxMag
      | .divideFirst => fMul (fDiv (fOfSample x) fMaxMag) gain) := rfl

/-- SoftClipProperties: the ends of the range, both signs of a gain, and two ordered samples. -/
theorem witness_softclip :
    (InNormalRange 32767 ∧ InNormalRange (-32767)) ∧
    (fIsFin 0x7F7FFFFF = true ∧ fLe fZero 0x7F7FFFFF = true ∧ fLe fZero fMinusZero = true) ∧
    (fIsFin 0xBF800000 = true ∧ fLe 0xBF800000 fZero = true) ∧
    (-32768 : Sample).toInt ≤ (32767 : Sample).toInt := by
  refine ⟨⟨?_, ?_⟩, by decide, by decide, by decide⟩ <;> exact ⟨by decide, by decide⟩

/-- TremoloProperties, TremoloDepthZeroIsIdentity, RingModulatorProperties: a finite phase; the two ends of the
depth's range; depth -0; the two ends of the samples. -/
theorem witness_tremolo :
    fIsFin 0x40C90FDB = true ∧ fLe fZero fZero = true ∧ fLe fZero fOne = true ∧ fLe fOne fOne = true ∧
    fIsZero fMinusZero = true ∧ (-32767 : Sample).toInt = -32767 ∧ (-32768 : Sample).toInt = -32768 := by
  decide

/-- TelephoneProperties: a finite coefficient. -/
theorem witness_telephone : fIsFin 0x3F666666 = true := by decide

/-- BitCrusherProperties, BitCrusherExtremes: the last clauses' hypotheses at their bounds. -/
theorem witness_bitcrusher :
    InNormalRange (-32767) ∧ (-32768 : Sample).toInt = -32768 ∧ 1 ≤ (1 : BitVec 32).toNat ∧
    16 ≤ (16 : BitVec 32).toNat :=
  ⟨⟨by decide, by decide⟩, by decide, by decide, by decide⟩

/-- StepRunsTheDecodedOperation: with no move of the host, and with a turn given to the block. -/
theorem witness_step :
    ((running 0x070000000800000000 1500).state = .busy ∧
      (running 0x070000000800000000 1500).idx.toNat < (running 0x070000000800000000 1500).len.toNat ∧
      fetchSlot (running 0x070000000800000000 1500) (running 0x070000000800000000 1500).sp.toNat =
        some 0x070000000800000000 ∧
      decode 0x070000000800000000 = .legal (.bcr 8) ∧ (running 0x070000000800000000 1500).host = []) ∧
    { running 0x070000000800000000 1500 with host := [.noMove, .regRead 1] }.host =
      .noMove :: [.regRead 1] := by decide

/-- A block at the end of slot `k` of a program of two. -/
def atEnd (k : BitVec 3) (d : Descr) : State :=
  { running 0 0 with
    idx := 1, sp := k, plen := 2
    prog := #v[0x070000000800000000, d, 0, 0, 0, 0, 0] }

/-- StageEndEntersTheNextSlot: the last slot, and a next slot of each operation. -/
theorem witness_stageEnd :
    ((atEnd 1 0).host = [] ∧ (atEnd 1 0).state = .busy ∧ (atEnd 1 0).idx = (atEnd 1 0).len ∧
      (atEnd 1 0).sp.toNat + 1 = (atEnd 1 0).plen.toNat) ∧
    (∀ d, (atEnd 0 d).idx = (atEnd 0 d).len ∧ (atEnd 0 d).sp.toNat + 1 ≠ (atEnd 0 d).plen.toNat ∧
      fetchSlot (atEnd 0 d) ((atEnd 0 d).sp.toNat + 1) = some d) ∧
    (∀ i : Instr, ∃ d, decode d = .legal i) := by
  refine ⟨by decide, fun d => ⟨rfl, ?_, rfl⟩, fun i => ⟨encode i, ?_⟩⟩
  · exact (by decide : (0 : BitVec 3).toNat + 1 ≠ (2 : BitVec 4).toNat)
  · unfold decode
    cases i <;> simp [encode_eq, oneParamOp, Instr.opcode, Instr.operandA, Instr.operandB]

/-- NothingHappensOutsideBusy. -/
theorem witness_waits : State.reset.host = [] ∧ State.reset.state ≠ .busy := by decide

/-- ValidationReportsTheFirstFault: the four cases, at the bounds of their ranges; the capacity is 8. -/
theorem witness_validate :
    (8 < { State.reset with len := 9 }.len.toNat) ∧
    ({ State.reset with len := 8, plen := 8 }.len.toNat ≤ 8 ∧
      7 < { State.reset with len := 8, plen := 8 }.plen.toNat) ∧
    ((atEnd 0 0).len.toNat ≤ 8 ∧ (atEnd 0 0).plen.toNat ≤ 7 ∧ 1 < (atEnd 0 0).plen.toNat ∧
      fetchSlot (atEnd 0 0) 1 = some 0 ∧ decode 0 = .illegal .illegalOp ∧
      fetchSlot (atEnd 0 0) 0 = some 0x070000000800000000 ∧
      decode 0x070000000800000000 = .legal (.bcr 8)) := by decide

/-- The last case of it: every slot below `PLEN` is legal. -/
theorem witness_validate_legal :
    ∀ k d, k < (loaded 0x070000000800000000 1500).plen.toNat →
      fetchSlot (loaded 0x070000000800000000 1500) k = some d → ∃ i, decode d = .legal i := by
  intro k d hk hd
  have hk1 : k < 1 := hk
  have h0 : k = 0 := by omega
  subst h0
  have : some (0x070000000800000000 : Descr) = some d := hd
  injection this with this
  subst this
  exact ⟨.bcr 8, by decide⟩

/-- A loaded block with a legal descriptor in slot 0 is ready, whatever `NMAX` is. -/
theorem loaded_ready {d : Descr} {i : Instr} (x : Sample) (h : decode d = .legal i) :
    ReadyToStart (loaded d x) where
  canStart := .inl rfl
  valid := by
    rw [validate_eq_none]
    refine ⟨one_le_nmax, by show (1 : BitVec 4).toNat ≤ 7; decide, ?_⟩
    intro k e hk he
    have hk1 : k < 1 := hk
    have h0 : k = 0 := by omega
    subst h0
    have e2 : some d = some e := he
    injection e2 with e2
    exact ⟨i, e2 ▸ h⟩
  loaded := by
    intro k hk
    have hk1 : k < 1 := hk
    have h0 : k = 0 := by omega
    subst h0
    exact ⟨x, rfl⟩

/-- StartFaultsBeginsOrIsIgnored, the accepted cases: validation passes, with a program and with none. -/
theorem witness_start :
    ((1 : BitVec 72).getLsbD 0 = true ∧
      validate Config.nmax (loaded 0x070000000800000000 1500) = none ∧
      (loaded 0x070000000800000000 1500).plen ≠ 0) ∧
    validate Config.nmax { loaded 0 1500 with plen := 0 } = none ∧ (0 : BitVec 72).getLsbD 0 = false := by
  refine ⟨⟨by decide, (loaded_ready 1500 (i := .bcr 8) (by decide)).valid, by decide⟩, ?_, by decide⟩
  rw [validate_eq_none]
  exact ⟨one_le_nmax, by show (0 : BitVec 4).toNat ≤ 7; decide, fun k d hk => absurd hk (Nat.not_lt_zero k)⟩

/-- StartFaultsBeginsOrIsIgnored, the failing case: an illegal descriptor in slot 0. -/
theorem witness_start_faults : validate Config.nmax (loaded 0 1500) = some (.illegalOp, 0) := by
  unfold validate
  rw [if_neg (by show ¬ (1 : BitVec 32).toNat > Config.nmax; have := one_le_nmax; simp; omega)]
  rfl

/-- StartFaultsBeginsOrIsIgnored, the entry of slot 0: a loaded block with any legal descriptor there, such as the
seven of `test_decode_awn` to `test_decode_bcr`, and the move that starts it. -/
theorem witness_start_entry {d : Descr} {i : Instr} (h : decode d = .legal i) (x : Sample) :
    { loaded d x with host := [.regWrite 0 1] }.host = .regWrite 0 1 :: [] ∧
    { loaded d x with host := [.regWrite 0 1] }.state = .idle ∧
    validate Config.nmax { loaded d x with host := [.regWrite 0 1] } = none ∧
    { loaded d x with host := [.regWrite 0 1] }.plen ≠ 0 ∧
    fetchSlot { loaded d x with host := [.regWrite 0 1] } 0 = some d :=
  ⟨rfl, rfl, (loaded_ready x h).valid, by show (1 : BitVec 4) ≠ 0; decide, rfl⟩

/-- ErrIsStickyUntilReset, HostMovesWhileBusyChangeNothing, ResetFromEveryState: a move that waits, in each
`STATE`. -/
theorem witness_moves :
    { State.reset with state := .err, host := [.regWrite 0 1] }.host ≠ .reset :: [] ∧
    { running 0 0 with host := [.bufWrite 0 7] }.host = .bufWrite 0 7 :: [] ∧
    HostMove.bufWrite 0 7 ≠ .noMove ∧ HostMove.bufWrite 0 7 ≠ .reset ∧
    { running 0 0 with host := [.reset] }.host = .reset :: [] := by decide

/-- The same hypothesis of ErrIsStickyUntilReset, for every rest of the list. -/
theorem witness_sticky (rest : List HostMove) :
    { State.reset with state := .err, host := [.regWrite 0 1] }.host ≠ .reset :: rest := by
  show [HostMove.regWrite 0 1] ≠ .reset :: rest
  intro h
  injection h with h
  cases h

/-- RegisterReadsBackWhatWasWritten: a write of every register but `CTRL` waits outside BUSY, a number of each
clause, and a read of every register waits, here while BUSY. -/
theorem witness_registers :
    (∀ n, { State.reset with host := [.regWrite n 7] }.host = .regWrite n 7 :: [] ∧
      { State.reset with host := [.regWrite n 7] }.state ≠ .busy) ∧
    (2 ≠ 0 ∧ 5 ≠ 0 ∧ 8 ≠ 0 ∧ 14 ≠ 0 ∧ 15 ≠ 0) ∧ (8 ≤ 14 ∧ 14 ≤ 14) ∧
    ∀ n, { running 0 0 with host := [.regRead n] }.host = .regRead n :: [] :=
  ⟨fun _ => ⟨rfl, nofun⟩, by decide, by decide, fun _ => rfl⟩

/-- HostBufferReadsBack, the operations: the last index of a capacity of 8 and the first past it. -/
theorem witness_hostBuffer : State.reset.state ≠ .busy ∧ 7 < 8 ∧ 8 ≤ 8 := by decide

/-- HostBufferReadsBack, the moves: a write and a read below the capacity wait outside BUSY on a word that holds
a value; the last index below it and the first past it; a word that holds none, and BUSY. -/
theorem witness_hostBuffer_moves :
    ({ loaded 0 1500 with host := [.bufWrite 0 7] }.host = .bufWrite 0 7 :: [] ∧
      { loaded 0 1500 with host := [.bufRead 0] }.host = .bufRead 0 :: [] ∧
      (loaded 0 1500).state ≠ .busy ∧ (loaded 0 1500).buf.read 0 = some 1500) ∧
    (0 < Config.nmax ∧ Config.nmax - 1 < Config.nmax ∧ Config.nmax ≤ Config.nmax) ∧
    State.reset.buf.read 0 = none ∧ (running 0 1500).state = .busy := by
  have h := one_le_nmax
  exact ⟨by decide, ⟨by omega, by omega, by omega⟩, by decide, by decide⟩

/-- A BUSY block meets the invariant. -/
theorem witness_inv : Inv (running 0x070000000800000000 1500) where
  bufCanonical := by decide
  bufInRange := by
    intro c hc
    have : c = (0, 1500) := by simpa [running, loaded] using hc
    rw [this]
    exact one_le_nmax
  faultRecorded := by decide
  slotRecorded := fun _ _ => rfl
  busyRunnable := fun _ =>
    { lenFits := one_le_nmax
      plenFits := by decide
      spInProgram := by decide
      idxInBuffer := by decide
      legal := witness_validate_legal }

/-- StepKeepsTheInvariant: that block's step answers a next state. -/
theorem witness_inv_step : ∃ t, step (running 0x070000000800000000 1500) = .next t := ⟨_, rfl⟩

/-- A run from a ready state with a program comes to its end: the hypothesis about the run in every statement
about whole runs. -/
theorem ready_runs {s : State} (h : ReadyToStart s) (hp : s.plen.toNat ≠ 0) :
    ∃ t, afterStart s (runSteps s) = .next t := by
  rcases h.started with ⟨h0, -⟩ | ⟨d, i, u, -, -, -, hs, hr, hl⟩
  · exact absurd h0 hp
  · obtain ⟨-, t, ht, -⟩ := hr.induction (P := fun _ => True) (fun _ _ _ _ _ => trivial) trivial
    refine ⟨t, ?_⟩
    unfold afterStart
    rw [Nat.add_comm, run_succ _ hs, ← hl]
    exact ht

/-- StartedRunReachesDone, RunKeepsLengthAndFormat, RunDrawsOneWordForEachNoiseSample: a ready state whose
program draws noise, and its run. -/
theorem witness_run :
    ReadyToStart (loaded 0x013C23D70A00000000 1500) ∧
    ∃ t, afterStart (loaded 0x013C23D70A00000000 1500)
      (runSteps (loaded 0x013C23D70A00000000 1500)) = .next t := by
  have h := loaded_ready (d := 0x013C23D70A00000000) (i := .awn 0x3C23D70A) 1500 (by decide)
  exact ⟨h, ready_runs h (by decide)⟩

/-- RunLeavesSamplesInRange: a program that normalizes. -/
theorem witness_run_normalizes :
    ReadyToStart (loaded 0x053F00000000000000 1500) ∧
    ∃ i ∈ programOf (loaded 0x053F00000000000000 1500), normalizes i = true :=
  ⟨loaded_ready (i := .tel 0x3F000000) 1500 (by decide), .tel 0x3F000000, by decide, by decide⟩

/-- RunWithoutNoiseKeepsZeros: a program without noise on a buffer of zeros. -/
theorem witness_run_zeros :
    ReadyToStart (loaded 0x053F00000000000000 0) ∧
    (∀ i ∈ programOf (loaded 0x053F00000000000000 0), isNoise i = false) ∧
    ∀ j, j < (loaded 0x053F00000000000000 0).len.toNat →
      (loaded 0x053F00000000000000 0).buf.read j = some 0 := by
  refine ⟨loaded_ready (i := .tel 0x3F000000) 0 (by decide), by decide, ?_⟩
  intro j hj
  have hj1 : j < 1 := hj
  have h0 : j = 0 := by omega
  subst h0
  rfl

/-- The same loaded block with another past: another `STATE`, another `PREV` and other phases. -/
def loadedAgain (d : Descr) (x : Sample) : State :=
  { loaded d x with state := .done, prev := 5, phT := 7, phR := 9 }

theorem two_runs_ready :
    ReadyToStart { loadedAgain 0x053F00000000000000 1500 with buf := [(0, 1500), (1, 3)] } where
  canStart := .inr rfl
  valid := (loaded_ready (d := 0x053F00000000000000) (i := .tel 0x3F000000) 1500 (by decide)).valid
  loaded := by
    intro k hk
    have hk1 : k < 1 := hk
    have h0 : k = 0 := by omega
    subst h0
    exact ⟨1500, rfl⟩

/-- OutputDependsOnEarlierInputsOnly: both runs come to their end. -/
theorem witness_two_runs_end :
    (∃ t, afterStart (loaded 0x053F00000000000000 1500)
      (runSteps (loaded 0x053F00000000000000 1500)) = .next t) ∧
    ∃ t, afterStart { loadedAgain 0x053F00000000000000 1500 with buf := [(0, 1500), (1, 3)] }
      (runSteps { loadedAgain 0x053F00000000000000 1500 with buf := [(0, 1500), (1, 3)] }) = .next t :=
  ⟨ready_runs (loaded_ready (i := .tel 0x3F000000) 1500 (by decide)) (by decide),
    ready_runs two_runs_ready (by decide)⟩

/-- OutputDependsOnEarlierInputsOnly: a second ready state, and one that differs above index 0. -/
theorem witness_two_runs :
    ReadyToStart { loadedAgain 0x053F00000000000000 1500 with buf := [(0, 1500), (1, 3)] } ∧
    { loadedAgain 0x053F00000000000000 1500 with buf := [(0, 1500), (1, 3)] }.npos =
      (loaded 0x053F00000000000000 1500).npos ∧
    ∀ j, j ≤ 0 → { loadedAgain 0x053F00000000000000 1500 with buf := [(0, 1500), (1, 3)] }.buf.read j =
      (loaded 0x053F00000000000000 1500).buf.read j := by
  refine ⟨two_runs_ready, rfl, ?_⟩
  · intro j hj
    have h0 : j = 0 := by omega
    subst h0
    rfl

/-- RunWithoutNoiseIgnoresTheRest: a ready state with another noise position and other private registers, a
program without noise, and both runs. -/
theorem witness_ignores :
    ReadyToStart { loadedAgain 0x053F00000000000000 1500 with npos := 6 } ∧
    (∀ i ∈ programOf (loaded 0x053F00000000000000 1500), isNoise i = false) ∧
    (∃ t, afterStart (loaded 0x053F00000000000000 1500)
      (runSteps (loaded 0x053F00000000000000 1500)) = .next t) ∧
    ∃ t, afterStart { loadedAgain 0x053F00000000000000 1500 with npos := 6 }
      (runSteps { loadedAgain 0x053F00000000000000 1500 with npos := 6 }) = .next t := by
  have h := loaded_ready (d := 0x053F00000000000000) (i := .tel 0x3F000000) 1500 (by decide)
  have h' : ReadyToStart { loadedAgain 0x053F00000000000000 1500 with npos := 6 } :=
    ⟨.inr rfl, h.valid, h.loaded⟩
  exact ⟨h', by decide, ready_runs h (by decide), ready_runs h' (by decide)⟩

/-- AssembledLinesDecode: seven well-formed lines, which assemble, and eight. -/
theorem witness_assemble :
    ((List.replicate 7 (AsmLine.bcr 8)).length ≤ 7 ∧
      ∀ l ∈ List.replicate 7 (AsmLine.bcr 8), AsmLine.wellFormed l = true) ∧
    (∃ ds, assemble (.lines (List.replicate 7 (.bcr 8))) = some ds) ∧
    7 < (List.replicate 8 (AsmLine.bcr 8)).length := ⟨by decide, ⟨_, rfl⟩, by decide⟩

/-- HostSequenceLoadsTheBlock: one sample and seven descriptors. -/
theorem witness_host :
    (State.reset.state = .idle ∨ State.reset.state = .done) ∧
    ([1500] : List Sample).length ≤ Config.nmax ∧
    (List.replicate 7 (0x070000000800000000 : Descr)).length ≤ 7 :=
  ⟨.inl rfl, one_le_nmax, by decide⟩

end Sys2Proof.Machine.Tests
end

namespace Sys2Proof.Machine

/-! ## Conversion of small integers (R10, R92) -/

/-- An integer is its sign and its magnitude. -/
theorem signed_natAbs (x : Int) : signed (decide (x < 0)) x.natAbs = x := by
  by_cases h : x < 0
  · rw [decide_eq_true h, signed_true]; omega
  · rw [decide_eq_false h, signed_false]; omega

/-- The finite patterns are those with a value of magnitude below 2^277 units. -/
theorem fIsFin_iff_natAbs_fVal_lt {a : F32} :
    fIsFin a = true ↔ (fVal a).natAbs < 2 ^ 23 * 2 ^ 254 := by
  rw [fIsFin_iff, ← magVal_lt_iff, magVal_inf, natAbs_fVal]

/-- An integer of magnitude at most 2^24, counted in units, is below the infinity. -/
theorem mul_units_lt_inf {m : Nat} (h : m ≤ 2 ^ 24) : m * 2 ^ 149 < 2 ^ 23 * 2 ^ 254 := by
  calc m * 2 ^ 149 ≤ 2 ^ 24 * 2 ^ 149 := Nat.mul_le_mul_right _ h
    _ < 2 ^ 23 * 2 ^ 254 := by norm_num

/-- An integer of at most 24 bits times the unit count needs no rounding: its magnitude is
`m * 2 ^ k` with `m` a significand. -/
theorem fVal_fOfInt {n : Int} (h : n.natAbs ≤ 2 ^ 24) : fVal (fOfInt n) = n * fOneUnits := by
  have hn : n * (fOneUnits : Int) =
      signed (decide (n * (fOneUnits : Int) < 0)) (n.natAbs * 2 ^ 149) := by
    conv_lhs => rw [← signed_natAbs (n * fOneUnits), Int.natAbs_mul, Int.natAbs_natCast]
    rfl
  rw [(fOfInt_fVal n).2, hn, roundUnits_exact _ h (mul_units_lt_inf h).le]

theorem fIsFin_fOfInt {n : Int} (h : n.natAbs ≤ 2 ^ 24) : fIsFin (fOfInt n) = true := by
  rw [fIsFin_iff_natAbs_fVal_lt, fVal_fOfInt h, Int.natAbs_mul, Int.natAbs_natCast]
  exact mul_units_lt_inf h

/-- A Sample has 16 bits, so its magnitude is far below 2^24. -/
theorem natAbs_toInt_sample_le (x : Sample) : x.toInt.natAbs ≤ 2 ^ 24 := by
  have hlo := x.le_toInt
  have hhi := x.toInt_lt
  norm_num at hlo hhi
  omega

/-- Settles O10: an integer of magnitude at most 2^24 times 2^149 has at most 24 significant bits and
lies below the infinity, so the one rounding of the conversion keeps it; a Sample is such an integer. -/
theorem integerConversionIsExact : Obligations.IntegerConversionIsExact := by
  unfold Obligations.IntegerConversionIsExact
  constructor
  · intro n hn
    have h : n.natAbs ≤ 2 ^ 24 := by rw [Int.abs_eq_natAbs] at hn; exact_mod_cast hn
    exact ⟨fIsFin_fOfInt h, fVal_fOfInt h⟩
  · intro x
    have h := natAbs_toInt_sample_le x
    exact ⟨fIsFin_fOfInt h, fVal_fOfInt h⟩

end Sys2Proof.Machine

namespace Sys2Proof.Machine

/-! ## The host's registers (R24, R204) -/

/-- A register write, register by register: a number selects at most one of the five fields. -/
theorem regUpdate_eq (n : Nat) (v : BitVec 72) (s : State) :
    regUpdate n v s = { s with
      len := if n = 2 then v.setWidth 32 else s.len
      srate := if n = 3 then v.setWidth 32 else s.srate
      fmeta := if n = 4 then v.setWidth 32 else s.fmeta
      plen := if n = 5 then v.setWidth 4 else s.plen
      prog := if 8 ≤ n then s.prog.setIfInBounds (n - 8) v else s.prog } := by
  unfold regUpdate
  by_cases h2 : n = 2
  · subst h2; rfl
  by_cases h3 : n = 3
  · subst h3; rfl
  by_cases h4 : n = 4
  · subst h4; rfl
  by_cases h5 : n = 5
  · subst h5; rfl
  simp only [h2, h3, h4, h5, if_false]
  split <;> rfl

/-- A register write stays within `LEN`, `SRATE`, `FMETA`, `PLEN` and `PROG`. -/
theorem regUpdate_frame (n : Nat) (v : BitVec 72) (s : State) :
    regUpdate n v s = { s with
      len := (regUpdate n v s).len, srate := (regUpdate n v s).srate
      fmeta := (regUpdate n v s).fmeta, plen := (regUpdate n v s).plen
      prog := (regUpdate n v s).prog } := by
  rw [regUpdate_eq]

@[simp] theorem regUpdate_len (n : Nat) (v : BitVec 72) (s : State) :
    (regUpdate n v s).len = if n = 2 then v.setWidth 32 else s.len := by rw [regUpdate_eq]

@[simp] theorem regUpdate_srate (n : Nat) (v : BitVec 72) (s : State) :
    (regUpdate n v s).srate = if n = 3 then v.setWidth 32 else s.srate := by rw [regUpdate_eq]

@[simp] theorem regUpdate_fmeta (n : Nat) (v : BitVec 72) (s : State) :
    (regUpdate n v s).fmeta = if n = 4 then v.setWidth 32 else s.fmeta := by rw [regUpdate_eq]

@[simp] theorem regUpdate_plen (n : Nat) (v : BitVec 72) (s : State) :
    (regUpdate n v s).plen = if n = 5 then v.setWidth 4 else s.plen := by rw [regUpdate_eq]

@[simp] theorem regUpdate_prog (n : Nat) (v : BitVec 72) (s : State) :
    (regUpdate n v s).prog = if 8 ≤ n then s.prog.setIfInBounds (n - 8) v else s.prog := by
  rw [regUpdate_eq]

@[simp] theorem statusWord_regUpdate (n : Nat) (v : BitVec 72) (s : State) :
    statusWord (regUpdate n v s) = statusWord s := by
  rw [regUpdate_eq]; rfl

/-- A register write changes the one slot its number names, where the store has it (R28: seven slots). -/
theorem fetchSlot_regUpdate (n : Nat) (v : BitVec 72) (s : State) (k : Nat) :
    fetchSlot (regUpdate n v s) k = if n = 8 + k ∧ k < 7 then some v else fetchSlot s k := by
  by_cases hk : k < 7
  · unfold fetchSlot
    rw [regUpdate_prog]
    by_cases hn : n = 8 + k
    · subst hn
      rw [if_pos (by omega), if_pos ⟨rfl, hk⟩, Nat.add_sub_cancel_left,
        Vector.getElem?_setIfInBounds_self_of_lt hk]
    · have hne : ¬ (n = 8 + k ∧ k < 7) := fun h => hn h.1
      rw [if_neg hne]
      split
      · exact Vector.getElem?_setIfInBounds_ne (by omega)
      · rfl
  · rw [if_neg fun h => hk h.2, fetchSlot_of_ge (by omega), fetchSlot_of_ge (by omega)]

/-- `PROG[k]` is register `8 + k`. -/
theorem regValue_prog {n : Nat} (h : 8 ≤ n) (s : State) :
    regValue n s = (fetchSlot s (n - 8)).getD 0 := by
  unfold regValue
  rw [if_neg (by omega), if_neg (by omega), if_neg (by omega), if_neg (by omega), if_neg (by omega),
    if_pos h]

/-- `CTRL` and the reserved numbers read 0. -/
theorem regValue_reserved {n : Nat} (h : n = 0 ∨ n = 6 ∨ n = 7 ∨ 15 ≤ n) (s : State) :
    regValue n s = 0 := by
  rcases h with rfl | rfl | rfl | h
  · rfl
  · rfl
  · rfl
  · rw [regValue_prog (by omega), fetchSlot_of_ge (by omega)]; rfl

/-- A write of register `n` leaves the value of every other register (R24). -/
theorem regValue_regUpdate_of_ne {m n : Nat} (h : m ≠ n) (v : BitVec 72) (s : State) :
    regValue m (regUpdate n v s) = regValue m s := by
  by_cases hm : 8 ≤ m
  · rw [regValue_prog hm, regValue_prog hm, fetchSlot_regUpdate, if_neg (by omega)]
  · push Not at hm
    interval_cases m <;> simp [regValue, h.symm]

/-- The written register keeps the bits it has room for; `STATUS` and the reserved numbers keep none (R24). -/
theorem regValue_regUpdate_same (n : Nat) (v : BitVec 72) (s : State) :
    regValue n (regUpdate n v s) =
      if n = 2 ∨ n = 3 ∨ n = 4 then (v.setWidth 32).setWidth 72
      else if n = 5 then (v.setWidth 4).setWidth 72
      else if 8 ≤ n ∧ n ≤ 14 then v
      else regValue n s := by
  by_cases h : 8 ≤ n
  · rw [if_neg (by omega), if_neg (by omega), regValue_prog h, fetchSlot_regUpdate]
    by_cases hn : n ≤ 14
    · rw [if_pos (by omega), if_pos ⟨h, hn⟩]; rfl
    · rw [if_neg (by omega), if_neg fun c => hn c.2, regValue_prog h]
  · push Not at h
    interval_cases n <;> rfl

/-- Outside BUSY a write of a register other than `CTRL` is a step that updates it (R204). -/
theorem step_regWrite {s : State} {n : Nat} {v : BitVec 72} {rest : List HostMove}
    (hs : s.host = .regWrite n v :: rest) (hb : s.state ≠ .busy) (hn : n ≠ 0) :
    step s = .next (regUpdate n v { s with host := rest }) := by
  rw [step_move hs]
  show hostRegWrite n v { s with host := rest } = _
  unfold hostRegWrite
  rw [if_neg hb, if_neg hn]

/-- Reading a register is a step in every `STATE` (R204, R210). -/
theorem step_regRead {s : State} {n : Nat} {rest : List HostMove} (hs : s.host = .regRead n :: rest) :
    step s = .next { s with host := rest, replies := .reg n (regValue n s) :: s.replies } :=
  step_move hs

/-- Settles O43: the write is `regUpdate`, whose frame and whose effect on the value of the same and of every
other register the lemmas above give; the read answers `regValue`. -/
theorem registerReadsBackWhatWasWritten : Obligations.RegisterReadsBackWhatWasWritten := by
  unfold Obligations.RegisterReadsBackWhatWasWritten
  constructor
  · intro s n v rest hs hb hn
    refine ⟨_, step_regWrite hs hb hn, regUpdate_frame n v { s with host := rest },
      fun m hm => regValue_regUpdate_of_ne hm v { s with host := rest },
      regValue_regUpdate_same n v { s with host := rest }, fun h => ?_⟩
    exact regValue_reserved (.inr h) _
  · intro s n rest hs
    exact ⟨step_regRead hs, rfl, fun h => regValue_reserved h s⟩

/-! ## The status word (R23, R181) -/

theorem statusWord_stateBits (s : State) :
    (statusWord s).extractLsb' 0 2 = stateBits s.state :=
  BitVec.extractLsb'_append_eq_right

theorem statusWord_reserved_low (s : State) : (statusWord s).extractLsb' 2 2 = 0 :=
  (BitVec.extractLsb'_append_eq_of_le (by decide)).trans BitVec.extractLsb'_append_eq_right

/-- Above the four low bits stand `ECODE`, `ESLOT` and zeros. -/
theorem statusWord_extract_above {start : Nat} (h : 4 ≤ start) (len : Nat) (s : State) :
    (statusWord s).extractLsb' start len =
      (0#21 ++ s.eslot ++ ecodeBits s.ecode).extractLsb' (start - 4) len :=
  calc (statusWord s).extractLsb' start len
    _ = (0#21 ++ s.eslot ++ ecodeBits s.ecode ++ 0#2).extractLsb' (start - 2) len :=
      BitVec.extractLsb'_append_eq_of_le (by omega)
    _ = (0#21 ++ s.eslot ++ ecodeBits s.ecode).extractLsb' (start - 2 - 2) len :=
      BitVec.extractLsb'_append_eq_of_le (by omega)

theorem statusWord_ecodeBits (s : State) :
    (statusWord s).extractLsb' 4 4 = ecodeBits s.ecode :=
  (statusWord_extract_above (by decide) 4 s).trans BitVec.extractLsb'_append_eq_right

/-- Above the eight low bits stand `ESLOT` and zeros. -/
theorem statusWord_extract_above_ecode {start : Nat} (h : 8 ≤ start) (len : Nat) (s : State) :
    (statusWord s).extractLsb' start len = (0#21 ++ s.eslot).extractLsb' (start - 4 - 4) len :=
  (statusWord_extract_above (by omega) len s).trans (BitVec.extractLsb'_append_eq_of_le (by omega))

theorem statusWord_eslot (s : State) : (statusWord s).extractLsb' 8 3 = s.eslot :=
  (statusWord_extract_above_ecode (by decide) 3 s).trans BitVec.extractLsb'_append_eq_right

theorem statusWord_reserved_high (s : State) : (statusWord s).extractLsb' 11 21 = 0 :=
  (statusWord_extract_above_ecode (by decide) 21 s).trans BitVec.extractLsb'_append_eq_left

/-- Settles O44: `STATUS` is its five fields side by side, so extracting one of them answers it; the codes are
the tables of R23 and R181. -/
theorem statusRegisterFields : Obligations.StatusRegisterFields := by
  unfold Obligations.StatusRegisterFields
  intro s
  refine ⟨?_, ?_, statusWord_eslot s, statusWord_reserved_low s, statusWord_reserved_high s⟩
  · rw [statusWord_stateBits]
    cases s.state <;> rfl
  · rw [statusWord_ecodeBits]
    cases s.ecode <;> rfl

/-! ## The state after reset (R39) -/

/-- The reset program, descriptor by descriptor: the operations of R170, only the tremolo's operands given. -/
theorem toList_prog_reset : State.reset.prog.toList =
    [0x01#8 ++ Config.defWhiteLevel ++ 0#32, 0x02#8 ++ Config.defPinkLevel ++ 0#32,
      0x03#8 ++ Config.defGain ++ 0#32, 0x0440C000003E4CCCCD#72, 0x05#8 ++ Config.defAlpha ++ 0#32,
      0x06#8 ++ Config.defRingHz ++ 0#32, 0x07#8 ++ Config.defBits ++ 0#32] := rfl

/-- Settles O47: the fields and the empty buffer are the reset state's own; its program is
`toList_prog_reset`. -/
theorem resetState : Obligations.ResetState := by
  unfold Obligations.ResetState
  refine ⟨?_, ?_, Memory.read_nil, toList_prog_reset, ?_⟩
  · decide
  · exact ⟨rfl, rfl, rfl, rfl, rfl⟩
  · decide

/-- Settles O48: the buffer lists no word, no fault is recorded, and the block is IDLE. -/
theorem invariantAfterReset : Obligations.InvariantAfterReset := by
  unfold Obligations.InvariantAfterReset
  exact {
    bufCanonical := Memory.wf_reset
    bufInRange := fun _ h => absurd h List.not_mem_nil
    faultRecorded := by decide
    slotRecorded := fun _ _ => rfl
    busyRunnable := nofun }

end Sys2Proof.Machine

namespace Sys2Proof.Machine

/-! ## A sample step and the word it reads (R57) -/

theorem exec_of_unwritten {i : Instr} {s : State} (h : s.buf.read s.idx.toNat = none) :
    exec i s = .fault .unwrittenSample := by
  rw [exec_eq, sampleStep_of_unwritten h]

/-- Settles O23: every operation is one `sampleStep`, whose load decides. -/
theorem unwrittenSampleStops : Obligations.UnwrittenSampleStops := by
  unfold Obligations.UnwrittenSampleStops
  intro i s
  exact ⟨exec_of_unwritten, fun _ hx => ⟨_, exec_of_read hx⟩⟩

/-! ## The host's port of the buffer (R56, R204) -/

theorem hostBufWrite_busy {capacity i : Nat} {v : Sample} {s : State} (hb : s.state = .busy) :
    hostBufWrite capacity i v s = s := if_pos hb

theorem hostBufWrite_of_lt {capacity i : Nat} {v : Sample} {s : State} (hb : s.state ≠ .busy)
    (hi : i < capacity) : hostBufWrite capacity i v s = { s with buf := s.buf.write i v } := by
  rw [hostBufWrite, if_neg hb, if_pos hi]

/-- Past the capacity a write is ignored in every `STATE` (R53, R210). -/
theorem hostBufWrite_of_ge {capacity i : Nat} {v : Sample} {s : State} (hi : capacity ≤ i) :
    hostBufWrite capacity i v s = s := by
  rw [hostBufWrite, if_neg (Nat.not_lt.mpr hi), ite_self]

/-- The Sample a host read of the buffer is owed (R53, R57, R210). -/
theorem hostBufValue_eq_some {capacity i : Nat} {s : State} {x : Sample} :
    hostBufValue capacity i s = some x ↔ s.state ≠ .busy ∧ i < capacity ∧ s.buf.read i = some x := by
  unfold hostBufValue
  by_cases hb : s.state = .busy
  · simp [hb]
  by_cases hi : i < capacity
  · simp [hb, hi]
  · simp [hb, hi]

/-- The three reasons for which a host read of the buffer is owed no value. -/
theorem hostBufValue_eq_none {capacity i : Nat} {s : State} :
    hostBufValue capacity i s = none ↔ s.state = .busy ∨ capacity ≤ i ∨ s.buf.read i = none := by
  unfold hostBufValue
  by_cases hb : s.state = .busy
  · simp [hb]
  by_cases hi : i < capacity
  · simp [hb, hi, Nat.not_le.mpr hi]
  · simp [hb, hi, Nat.not_lt.mp hi]

theorem hostBufRead_of_value {capacity i : Nat} {s : State} {x : Sample}
    (hx : hostBufValue capacity i s = some x) :
    hostBufRead capacity i s = { s with replies := .sample i x :: s.replies } := by
  rw [hostBufRead, hx]

theorem hostBufRead_of_none {capacity i : Nat} {s : State} (hn : hostBufValue capacity i s = none) :
    hostBufRead capacity i s = { s with
      replies := .sample i (Config.freeSample s.freeCount) :: s.replies
      freeCount := s.freeCount + 1 } := by
  rw [hostBufRead, hn]

/-- What a host write below the capacity leaves is what a host read is owed. -/
theorem hostBufValue_hostBufWrite {capacity i : Nat} {v : Sample} {s : State} (hb : s.state ≠ .busy)
    (hi : i < capacity) : hostBufValue capacity i (hostBufWrite capacity i v s) = some v := by
  rw [hostBufWrite_of_lt hb hi]
  exact hostBufValue_eq_some.mpr ⟨hb, hi, Memory.read_write_same _ _ _⟩

theorem step_bufWrite {s : State} {i : Nat} {v : Sample} {rest : List HostMove}
    (hs : s.host = .bufWrite i v :: rest) :
    step s = .next (hostBufWrite Config.nmax i v { s with host := rest }) :=
  step_move hs

theorem step_bufRead {s : State} {i : Nat} {rest : List HostMove} (hs : s.host = .bufRead i :: rest) :
    step s = .next (hostBufRead Config.nmax i { s with host := rest }) :=
  step_move hs

/-- Settles O45: a write below the capacity is one `Memory.write`, which a read of the same index sees and every
other does not; the two lemmas about `hostBufValue` say where a read is owed a value. -/
theorem hostBufferReadsBack : Obligations.HostBufferReadsBack := by
  unfold Obligations.HostBufferReadsBack
  refine ⟨fun s capacity i v hb => ⟨fun hi => ⟨hostBufValue_hostBufWrite hb hi, ?_⟩, hostBufWrite_of_ge⟩,
    fun s i v rest hs hb => ⟨fun hi => ?_, fun hi => ?_⟩, fun s i rest hs => ⟨?_, ?_⟩⟩
  · rw [hostBufWrite_of_lt hb hi]
    exact fun j hj => Memory.read_write_ne _ v hj
  · rw [step_bufWrite hs, hostBufWrite_of_lt (s := { s with host := rest }) hb hi]
    exact ⟨_, rfl, rfl, Memory.read_write_same _ i v, fun j hj => Memory.read_write_ne _ v hj⟩
  · rw [step_bufWrite hs, hostBufWrite_of_ge hi]
  · intro x hb hi hx
    rw [step_bufRead hs,
      hostBufRead_of_value (s := { s with host := rest }) (hostBufValue_eq_some.mpr ⟨hb, hi, hx⟩)]
  · intro hfree
    rw [step_bufRead hs, hostBufRead_of_none (s := { s with host := rest })
      (hostBufValue_eq_none.mpr hfree)]
    exact ⟨_, rfl⟩

/-! ## What START and a register write can do -/

/-- A START request is ignored, begins a run that validation has passed, or raises the fault validation
reports (R160, R161). -/
theorem startRequest_cases (s : State) :
    startRequest s = .next s ∨
    (validate Config.nmax s = none ∧ startRequest s = beginRun s) ∨
    ∃ c k, validate Config.nmax s = some (c, k) ∧ startRequest s = .next (raiseFault c k s) := by
  have hstate : (s.state = .busy ∨ s.state = .err) ∨ (s.state = .idle ∨ s.state = .done) := by
    cases s.state <;> decide
  rcases hstate with hign | hcan
  · exact .inl (startRequest_ignored hign)
  · cases hv : validate Config.nmax s with
    | none => exact .inr (.inl ⟨rfl, startRequest_valid hcan hv⟩)
    | some fault => exact .inr (.inr ⟨_, _, rfl, startRequest_invalid hcan hv⟩)

/-- A register write is ignored, requests a run, or outside BUSY updates a register (R204, R210). -/
theorem hostRegWrite_cases (n : Nat) (v : BitVec 72) (s : State) :
    hostRegWrite n v s = .next s ∨ hostRegWrite n v s = startRequest s ∨
    (s.state ≠ .busy ∧ hostRegWrite n v s = .next (regUpdate n v s)) := by
  unfold hostRegWrite
  by_cases hb : s.state = .busy
  · exact .inl (if_pos hb)
  rw [if_neg hb]
  by_cases hn : n = 0
  · rw [if_pos hn]
    by_cases hv : v.getLsbD 0 = true
    · exact .inr (.inl (if_pos hv))
    · exact .inl (if_neg hv)
  · exact .inr (.inr ⟨hb, if_neg hn⟩)

/-! ## What keeps the invariant

Of the state's fields `Inv` reads `BUF`, `LEN`, `PLEN`, `PROG`, `STATUS` and the two counters. -/

/-- A block that can run still can at another slot of the same program and another index of the same buffer. -/
theorem Runnable.moved {s t : State} (h : Runnable s) (hlen : t.len = s.len) (hplen : t.plen = s.plen)
    (hprog : t.prog = s.prog) (hsp : t.sp.toNat < s.plen.toNat) (hidx : t.idx.toNat ≤ s.len.toNat) :
    Runnable t where
  lenFits := hlen ▸ h.lenFits
  plenFits := hplen ▸ h.plenFits
  spInProgram := hplen ▸ hsp
  idxInBuffer := hlen ▸ hidx
  legal k d hk hd := h.legal k d (hplen ▸ hk) (by rwa [fetchSlot, hprog] at hd)

/-- Validation has checked what a run needs, but for the two counters (R161). -/
theorem runnable_of_validate {s : State} (hv : validate Config.nmax s = none)
    (hsp : s.sp.toNat < s.plen.toNat) (hidx : s.idx.toNat ≤ s.len.toNat) : Runnable s :=
  have ⟨hlen, hplen, hlegal⟩ := validate_eq_none.mp hv
  ⟨hlen, hplen, hsp, hidx, hlegal⟩

/-- The invariant says nothing about the host agent. -/
theorem Inv.withHostAgent {s : State} (h : Inv s) (moves : List HostMove) (rs : List HostReply) (n : Nat) :
    Inv { s with host := moves, replies := rs, freeCount := n } :=
  { h with
    busyRunnable := fun hb =>
      have hr := h.busyRunnable hb
      hr.moved rfl rfl rfl hr.spInProgram hr.idxInBuffer }

/-- A recorded fault means ERR (R184), so a BUSY block has none. -/
theorem Inv.noFault_of_busy {s : State} (h : Inv s) (hb : s.state = .busy) : s.ecode = .none := by
  by_contra hc
  have herr : s.state = .err := h.faultRecorded.mpr hc
  rw [hb] at herr
  cases herr

/-! ### The sequencer -/

/-- Stage entry changes nothing `Inv` reads. -/
theorem Inv.stageEntered {s : State} (h : Inv s) (i : Instr) : Inv (stageEntry i s) where
  bufCanonical := by simpa using h.bufCanonical
  bufInRange := by simpa using h.bufInRange
  faultRecorded := by simpa using h.faultRecorded
  slotRecorded := by simpa using h.slotRecorded
  busyRunnable hb := by
    have hr : Runnable s := h.busyRunnable (by simpa using hb)
    exact hr.moved (by simp) (by simp) (by simp) (by simpa using hr.spInProgram)
      (by simpa using hr.idxInBuffer)

/-- A BUSY block whose run could end here, and which can run in slot `k` if the program has one, keeps the
invariant on entering `k` (R162, R166). -/
theorem enter_keeps_inv {k : Nat} {s t : State} (hend : Inv { s with state := .done })
    (hrun : k ≠ s.plen.toNat → Runnable { s with sp := BitVec.ofNat 3 k, idx := 0 })
    (hb : s.state = .busy) (h : enter k s = .next t) : Inv t := by
  rcases enter_next h with ⟨-, rfl⟩ | ⟨hk, d, i, -, -, rfl⟩
  · exact hend
  · have hfault : s.ecode = .none := by simpa using hend.faultRecorded
    refine Inv.stageEntered ?_ i
    exact { hend with
      faultRecorded := by simp [hb, hfault]
      busyRunnable := fun _ => hrun hk }

/-- A sample step stores at an index below `LEN`, and `IDX` goes up to `LEN` at most (R164). -/
theorem exec_keeps_inv {i : Instr} {s t : State} (h : Inv s) (hb : s.state = .busy)
    (hlt : s.idx.toNat < s.len.toNat) (hexec : exec i s = .next t) : Inv t := by
  obtain ⟨x, -, rfl⟩ := exec_next hexec
  have hr : Runnable s := h.busyRunnable hb
  exact {
    bufCanonical := by simpa using Memory.wf_write h.bufCanonical _ _
    bufInRange := by
      simpa using Memory.write_inRange h.bufInRange (lt_of_lt_of_le hlt hr.lenFits)
    faultRecorded := by simpa using h.faultRecorded
    slotRecorded := by simpa using h.slotRecorded
    busyRunnable := fun _ => hr.moved (by simp) (by simp) (by simp) (by simpa using hr.spInProgram)
      (by rw [finishSample_idx, privateOf_idx, idx_succ hlt]; exact hlt) }

/-- The end of a stage of a BUSY block enters the slot after `SP`, or the run is over (R165). -/
theorem stageEnd_keeps_inv {s t : State} (h : Inv s) (hb : s.state = .busy)
    (henter : enter (s.sp.toNat + 1) s = .next t) : Inv t := by
  have hr : Runnable s := h.busyRunnable hb
  refine enter_keeps_inv ?_ (fun hk => ?_) hb henter
  · exact { h with
      faultRecorded := by simp [h.noFault_of_busy hb]
      busyRunnable := nofun }
  · have hsp := hr.spInProgram
    have hplen := hr.plenFits
    refine hr.moved rfl rfl rfl ?_ (Nat.zero_le _)
    simp only [ofNat_three (show s.sp.toNat + 1 < 8 by omega)]
    omega

theorem sequencerStep_keeps_inv {s t : State} (h : Inv s) (hs : sequencerStep s = .next t) : Inv t := by
  rcases sequencerStep_next hs with ⟨-, rfl⟩ | ⟨hb, hlt, d, i, -, -, hexec⟩ | ⟨hb, -, henter⟩
  · exact h
  · exact exec_keeps_inv h hb hlt hexec
  · exact stageEnd_keeps_inv h hb henter

/-! ### The host -/

/-- A fault validation reports is one of R181's, and only a descriptor's fault names a slot. -/
theorem raiseFault_keeps_inv {c : ECode} {k : BitVec 3} {s : State} (h : Inv s)
    (hv : validate Config.nmax s = some (c, k)) : Inv (raiseFault c k s) where
  bufCanonical := h.bufCanonical
  bufInRange := h.bufInRange
  faultRecorded := by
    rcases validate_code hv with ⟨rfl | rfl, -⟩ | rfl | rfl <;> simp
  slotRecorded hop hres := by
    rcases validate_code hv with ⟨-, hk⟩ | hc | hc
    · exact hk
    · exact absurd hc hop
    · exact absurd hc hres
  busyRunnable := nofun

/-- A run that validation has passed begins with the invariant (R160, R161). -/
theorem beginRun_keeps_inv {s t : State} (h : Inv s) (hv : validate Config.nmax s = none)
    (hs : beginRun s = .next t) : Inv t := by
  refine enter_keeps_inv ?_ (fun hk => ?_) rfl hs
  · exact { h with
      faultRecorded := by simp
      slotRecorded := fun _ _ => rfl
      busyRunnable := nofun }
  · exact runnable_of_validate hv (Nat.pos_of_ne_zero (Ne.symm hk)) (Nat.zero_le _)

theorem startRequest_keeps_inv {s t : State} (h : Inv s) (hs : startRequest s = .next t) : Inv t := by
  rcases startRequest_cases s with hr | ⟨hv, hr⟩ | ⟨c, k, hv, hr⟩ <;> rw [hr] at hs
  · cases hs; exact h
  · exact beginRun_keeps_inv h hv hs
  · cases hs; exact raiseFault_keeps_inv h hv

/-- Outside BUSY the registers may take any value: validation looks at them again (R160, R161). -/
theorem regUpdate_keeps_inv {s : State} (h : Inv s) (hb : s.state ≠ .busy) (n : Nat) (v : BitVec 72) :
    Inv (regUpdate n v s) := by
  rw [regUpdate_eq]
  exact { h with busyRunnable := fun hbusy => absurd hbusy hb }

theorem hostRegWrite_keeps_inv {n : Nat} {v : BitVec 72} {s t : State} (h : Inv s)
    (hs : hostRegWrite n v s = .next t) : Inv t := by
  rcases hostRegWrite_cases n v s with hr | hr | ⟨hb, hr⟩ <;> rw [hr] at hs
  · cases hs; exact h
  · exact startRequest_keeps_inv h hs
  · cases hs; exact regUpdate_keeps_inv h hb n v

theorem hostBufWrite_keeps_inv {s : State} (h : Inv s) (i : Nat) (v : Sample) :
    Inv (hostBufWrite Config.nmax i v s) := by
  by_cases hb : s.state = .busy
  · rwa [hostBufWrite_busy hb]
  by_cases hi : i < Config.nmax
  · rw [hostBufWrite_of_lt hb hi]
    exact { h with
      bufCanonical := Memory.wf_write h.bufCanonical i v
      bufInRange := Memory.write_inRange h.bufInRange hi
      busyRunnable := fun hbusy => absurd hbusy hb }
  · rwa [hostBufWrite_of_ge (Nat.not_lt.mp hi)]

theorem hostBufRead_keeps_inv {s : State} (h : Inv s) (capacity i : Nat) :
    Inv (hostBufRead capacity i s) := by
  cases hx : hostBufValue capacity i s with
  | none => rw [hostBufRead_of_none hx]; exact h.withHostAgent _ _ _
  | some x => rw [hostBufRead_of_value hx]; exact h.withHostAgent _ _ _

theorem hostMove_keeps_inv {m : HostMove} {s t : State} (h : Inv s) (hs : hostMove m s = .next t) :
    Inv t := by
  cases m with
  | noMove => exact sequencerStep_keeps_inv h hs
  | regWrite n v => exact hostRegWrite_keeps_inv h hs
  | regRead n => cases hs; exact h.withHostAgent _ _ _
  | bufWrite i v => cases hs; exact hostBufWrite_keeps_inv h i v
  | bufRead i => cases hs; exact hostBufRead_keeps_inv h Config.nmax i
  | reset => cases hs; exact Inv.withHostAgent invariantAfterReset _ _ _

/-- Settles O49: the step is the sequencer's or a move of the host, and each of the two keeps the invariant. -/
theorem stepKeepsTheInvariant : Obligations.StepKeepsTheInvariant := by
  unfold Obligations.StepKeepsTheInvariant
  intro s t h hs
  rcases step_cases s with ⟨-, hstep⟩ | ⟨m, rest, -, hstep⟩
  · exact sequencerStep_keeps_inv h (hstep ▸ hs)
  · exact hostMove_keeps_inv (h.withHostAgent rest s.replies s.freeCount) (hstep ▸ hs)

/-! ## Which steps answer a next state (R180) -/

/-- Entering a slot of a program of at most seven legal slots, or its end, answers a next state. -/
theorem enter_answers {k : Nat} {s : State} (hk : k ≤ s.plen.toNat) (hplen : s.plen.toNat ≤ 7)
    (hlegal : ∀ k d, k < s.plen.toNat → fetchSlot s k = some d → ∃ i, decode d = .legal i) :
    ∃ t, enter k s = .next t := by
  by_cases hend : k = s.plen.toNat
  · exact ⟨_, enter_end hend⟩
  · have hd := fetchSlot_of_lt (s := s) (show k < 7 by omega)
    obtain ⟨i, hi⟩ := hlegal k _ (by omega) hd
    exact ⟨_, enter_slot hend hd hi⟩

theorem startRequest_answers (s : State) : ∃ t, startRequest s = .next t := by
  rcases startRequest_cases s with hr | ⟨hv, hr⟩ | ⟨c, k, -, hr⟩ <;> rw [hr]
  · exact ⟨_, rfl⟩
  · obtain ⟨-, hplen, hlegal⟩ := validate_eq_none.mp hv
    exact enter_answers (Nat.zero_le _) hplen hlegal
  · exact ⟨_, rfl⟩

theorem hostRegWrite_answers (n : Nat) (v : BitVec 72) (s : State) :
    ∃ t, hostRegWrite n v s = .next t := by
  rcases hostRegWrite_cases n v s with hr | hr | ⟨-, hr⟩ <;> rw [hr]
  · exact ⟨_, rfl⟩
  · exact startRequest_answers s
  · exact ⟨_, rfl⟩

/-- The operation a BUSY block is in. -/
theorem Runnable.op {s : State} (h : Runnable s) :
    ∃ d i, fetchSlot s s.sp.toNat = some d ∧ decode d = .legal i := by
  have hd := fetchSlot_of_lt (s := s) (lt_of_lt_of_le h.spInProgram h.plenFits)
  obtain ⟨i, hi⟩ := h.legal _ _ h.spInProgram hd
  exact ⟨_, i, hd, hi⟩

theorem sequencerStep_answers_or_unwritten {s : State} (h : Inv s) :
    (∃ t, sequencerStep s = .next t) ∨
    (sequencerStep s = .fault .unwrittenSample ∧ s.state = .busy ∧ s.buf.read s.idx.toNat = none) := by
  by_cases hb : s.state = .busy
  · have hr : Runnable s := h.busyRunnable hb
    rcases Nat.lt_or_eq_of_le hr.idxInBuffer with hlt | heq
    · obtain ⟨d, i, hd, hi⟩ := hr.op
      rw [sequencerStep_sample hb hlt hd hi]
      cases hx : s.buf.read s.idx.toNat with
      | none => exact .inr ⟨exec_of_unwritten hx, hb, rfl⟩
      | some x => exact .inl ⟨_, exec_of_read hx⟩
    · rw [sequencerStep_stageEnd hb (BitVec.eq_of_toNat_eq heq)]
      exact .inl (enter_answers hr.spInProgram hr.plenFits hr.legal)
  · exact .inl ⟨s, sequencerStep_waits hb⟩

/-- Only the turn given to the block can stop. -/
theorem hostMove_answers {m : HostMove} (hm : m ≠ .noMove) (s : State) : ∃ t, hostMove m s = .next t := by
  cases m with
  | noMove => exact absurd rfl hm
  | regWrite n v => exact hostRegWrite_answers n v s
  | regRead n => exact ⟨_, rfl⟩
  | bufWrite i v => exact ⟨_, rfl⟩
  | bufRead i => exact ⟨_, rfl⟩
  | reset => exact ⟨_, rfl⟩

/-- Settles O50: a move of the host answers, and a turn of the block stops on an unwritten word alone. -/
theorem onlyAnUnwrittenSampleStops : Obligations.OnlyAnUnwrittenSampleStops := by
  unfold Obligations.OnlyAnUnwrittenSampleStops
  intro s h
  rcases step_cases s with ⟨-, hstep⟩ | ⟨m, rest, -, hstep⟩
  · rw [hstep]
    exact sequencerStep_answers_or_unwritten h
  · rw [hstep]
    by_cases hm : m = .noMove
    · subst hm
      exact sequencerStep_answers_or_unwritten (h.withHostAgent rest s.replies s.freeCount)
    · exact .inl (hostMove_answers hm _)

end Sys2Proof.Machine

namespace Sys2Proof

/-! ## The fields of an encoding (R70) -/

@[simp] theorem opField_encode (i : Instr) : opField (encode i) = i.opcode := by
  rw [encode_eq, opField_ofFields]

@[simp] theorem aField_encode (i : Instr) : aField (encode i) = i.operandA := by
  rw [encode_eq, aField_ofFields]

@[simp] theorem bField_encode (i : Instr) : bField (encode i) = i.operandB := by
  rw [encode_eq, bField_ofFields]

/-! ## One-parameter operations (R72 to R74) -/

/-- TRM is the only operation that uses field `B` (R73). -/
theorem Instr.operandB_eq_zero {i : Instr} (h : i.opcode ≠ 0x04) : i.operandB = 0 := by
  cases i with
  | trm rateHz depth => exact absurd rfl h
  | _ => rfl

theorem oneParamOp_opcode {i : Instr} (h : i.opcode ≠ 0x04) :
    oneParamOp i.opcode i.operandA = some i := by
  cases i with
  | trm rateHz depth => exact absurd rfl h
  | _ => rfl

theorem oneParamOp_eq_some {op : BitVec 8} {a : BitVec 32} {i : Instr} (h : oneParamOp op a = some i) :
    i.opcode = op ∧ i.operandA = a ∧ i.operandB = 0 := by
  unfold oneParamOp at h
  split_ifs at h with hop hop hop hop hop hop <;> cases h <;> exact ⟨hop.symm, rfl, rfl⟩

theorem oneParamOp_ne_none_iff {op : BitVec 8} {a : BitVec 32} :
    oneParamOp op a ≠ none ↔
      op = 0x01 ∨ op = 0x02 ∨ op = 0x03 ∨ op = 0x05 ∨ op = 0x06 ∨ op = 0x07 := by
  constructor
  · intro h
    by_contra hop
    simp only [not_or] at hop
    exact h (by simp only [oneParamOp, hop, if_false])
  · rintro (rfl | rfl | rfl | rfl | rfl | rfl) <;> exact nofun

/-! ## What decoding answers (R75): TRM first, then the operation `OP` names, then field `B` -/

theorem decode_trm {d : Descr} (hop : opField d = 0x04) :
    decode d = .legal (.trm (aField d) (bField d)) := if_pos hop

theorem decode_oneParam {d : Descr} {i : Instr} (hi : oneParamOp (opField d) (aField d) = some i) :
    decode d = if bField d = 0 then .legal i else .illegal .reservedField := by
  have hop : opField d ≠ 0x04 := fun h4 => by rw [h4] at hi; cases hi
  rw [decode, if_neg hop, hi]

theorem decode_noOp {d : Descr} (hop : opField d ≠ 0x04)
    (hnone : oneParamOp (opField d) (aField d) = none) : decode d = .illegal .illegalOp := by
  rw [decode, if_neg hop, hnone]

theorem decode_cases (d : Descr) :
    (opField d = 0x04 ∧ decode d = .legal (.trm (aField d) (bField d))) ∨
    (∃ i, oneParamOp (opField d) (aField d) = some i ∧
      decode d = if bField d = 0 then .legal i else .illegal .reservedField) ∨
    (opField d ≠ 0x04 ∧ oneParamOp (opField d) (aField d) = none ∧ decode d = .illegal .illegalOp) := by
  by_cases hop : opField d = 0x04
  · exact .inl ⟨hop, decode_trm hop⟩
  · cases hi : oneParamOp (opField d) (aField d) with
    | some i => exact .inr (.inl ⟨i, rfl, decode_oneParam hi⟩)
    | none => exact .inr (.inr ⟨hop, rfl, decode_noOp hop hi⟩)

/-! ## The round trip (R75) -/

theorem decode_encode (i : Instr) : decode (encode i) = .legal i := by
  by_cases hop : i.opcode = 0x04
  · rw [decode_trm (by rwa [opField_encode]), aField_encode, bField_encode]
    cases i with
    | trm rateHz depth => rfl
    | _ => cases hop
  · rw [decode_oneParam (by simpa using oneParamOp_opcode hop), bField_encode,
      if_pos (Instr.operandB_eq_zero hop)]

theorem encode_of_decode_legal {d : Descr} {i : Instr} (h : decode d = .legal i) : encode i = d := by
  rcases decode_cases d with ⟨hop, hd⟩ | ⟨j, hj, hd⟩ | ⟨-, -, hd⟩ <;> rw [hd] at h
  · cases h
    calc encode (.trm (aField d) (bField d)) = ofFields 0x04 (aField d) (bField d) := rfl
      _ = d := by rw [← hop, ofFields_fields]
  · obtain ⟨hop, hA, hB⟩ := oneParamOp_eq_some hj
    split_ifs at h with hzero
    cases h
    rw [encode_eq, hop, hA, hB, ← hzero, ofFields_fields]
  · cases h

/-- Settles O1: the decoder reads back the three fields the encoder wrote, and where it tests `B` for zero
the encoder wrote zero. -/
theorem decodeOfEncodeIsTheInstruction : Obligations.DecodeOfEncodeIsTheInstruction := by
  unfold Obligations.DecodeOfEncodeIsTheInstruction
  exact fun i _ => decode_encode i

/-- Settles O2: what the decoder answers holds `A` and, for TRM, `B`; for every other operation it has seen
that `B` is zero. -/
theorem encodeOfDecodeIsTheDescriptor : Obligations.EncodeOfDecodeIsTheDescriptor := by
  unfold Obligations.EncodeOfDecodeIsTheDescriptor
  exact fun _ _ => encode_of_decode_legal

/-! ## The illegal descriptors (R76) -/

theorem decode_eq_illegalOp_iff {d : Descr} :
    decode d = .illegal .illegalOp ↔ opField d = 0x00 ∨ 0x08 ≤ opField d := by
  rcases decode_cases d with ⟨hop, hd⟩ | ⟨i, hi, hd⟩ | ⟨hop, hnone, hd⟩ <;> rw [hd]
  · exact iff_of_false nofun (by rw [hop]; decide)
  · have hnamed := oneParamOp_ne_none_iff.mp (Option.ne_none_iff_exists'.mpr ⟨i, hi⟩)
    refine iff_of_false (by split_ifs <;> exact nofun) ?_
    rcases hnamed with h | h | h | h | h | h <;> rw [h] <;> decide
  · have hunnamed := mt oneParamOp_ne_none_iff.mpr (not_not.mpr hnone)
    refine iff_of_true rfl ?_
    simp only [not_or] at hunnamed
    bv_omega

theorem decode_eq_reservedField_iff {d : Descr} :
    decode d = .illegal .reservedField ↔
      (opField d = 0x01 ∨ opField d = 0x02 ∨ opField d = 0x03 ∨ opField d = 0x05 ∨ opField d = 0x06 ∨
        opField d = 0x07) ∧ bField d ≠ 0 := by
  rw [← oneParamOp_ne_none_iff (a := aField d)]
  rcases decode_cases d with ⟨hop, hd⟩ | ⟨i, hi, hd⟩ | ⟨-, hnone, hd⟩ <;> rw [hd]
  · simp [hop, oneParamOp]
  · simp [hi]
  · simp [hnone]

/-- Settles O4: the decoder answers `illegalOp` where `OP` names no operation, and `reservedField` where it names
a one-parameter one beside a nonzero `B`. -/
theorem illegalDescriptorsByName : Obligations.IllegalDescriptorsByName := by
  unfold Obligations.IllegalDescriptorsByName
  exact fun _ => ⟨decode_eq_illegalOp_iff, decode_eq_reservedField_iff⟩

/-! ## The rows of the operation table (R74) -/

theorem Instr.opcode_defined (i : Instr) : ¬(i.opcode = 0x00 ∨ 0x08 ≤ i.opcode) := by
  cases i <;> simp only [Instr.opcode] <;> decide

/-! The columns `mask` and `match`, field by field. -/

theorem tableMask_of_trm {row : Instr} (hop : row.opcode = 0x04) :
    row.tableMask = ofFields (BitVec.allOnes 8) 0 0 := by
  cases row with
  | trm rateHz depth => simp only [Instr.tableMask]; decide
  | _ => cases hop

theorem tableMask_of_oneParam {row : Instr} (hop : row.opcode ≠ 0x04) :
    row.tableMask = ofFields (BitVec.allOnes 8) 0 (BitVec.allOnes 32) := by
  cases row with
  | trm rateHz depth => exact absurd rfl hop
  | _ => simp only [Instr.tableMask]; decide

theorem tableMatch_eq (row : Instr) : row.tableMatch = ofFields row.opcode 0 0 := by
  cases row <;> simp only [Instr.tableMatch, Instr.opcode] <;> decide

theorem and_tableMask_eq_iff (d : Descr) (row : Instr) :
    d &&& row.tableMask = row.tableMatch ↔
      opField d = row.opcode ∧ (row.opcode ≠ 0x04 → bField d = 0) := by
  rw [tableMatch_eq, and_mask_eq_iff]
  by_cases hop : row.opcode = 0x04
  · simp [tableMask_of_trm hop, hop, -BitVec.reduceAllOnes]
  · rw [imp_iff_right hop]
    simp [tableMask_of_oneParam hop, -BitVec.reduceAllOnes]

/-- The descriptors of the operations with one `OP` value: a nonzero `B` beside it stands for none, but for TRM. -/
theorem exists_legal_opcode_iff (d : Descr) (row : Instr) :
    (∃ i, decode d = .legal i ∧ i.opcode = row.opcode) ↔
      opField d = row.opcode ∧ (row.opcode ≠ 0x04 → bField d = 0) := by
  constructor
  · rintro ⟨i, hi, hop⟩
    rw [← encode_of_decode_legal hi, opField_encode, bField_encode, ← hop]
    exact ⟨rfl, Instr.operandB_eq_zero⟩
  · rintro ⟨hop, hB⟩
    cases hd : decode d with
    | legal i => exact ⟨i, rfl, by rw [← opField_encode, encode_of_decode_legal hd, hop]⟩
    | illegal why =>
      cases why with
      | illegalOp => exact absurd (hop ▸ decode_eq_illegalOp_iff.mp hd) row.opcode_defined
      | reservedField =>
        obtain ⟨hone, hne⟩ := decode_eq_reservedField_iff.mp hd
        refine absurd (hB fun h4 => ?_) hne
        rw [hop, h4] at hone
        revert hone
        decide

/-- Settles O3: the row's mask and match, and the decoder, both ask for the row's `OP` and, but for TRM, a zero
`B`. -/
theorem legalExactlyOnTableRows : Obligations.LegalExactlyOnTableRows := by
  unfold Obligations.LegalExactlyOnTableRows
  exact fun d row => (and_tableMask_eq_iff d row).trans (exists_legal_opcode_iff d row).symm

/-! ## Worked encodings (R81) -/

/-- Settles O5: each legal word is the encoding of its operation; the others have an `OP` out of range, or a nonzero
`B`. -/
theorem workedEncodingsDecode : Obligations.WorkedEncodingsDecode := by
  unfold Obligations.WorkedEncodingsDecode
  exact ⟨decode_encode (.trm 0x40C00000 0x3E4CCCCD), decode_encode (.rmd 0x41A00000),
    decode_encode (.awn 0x3C23D70A), decode_encode (.apn 0x3D4CCCCD), decode_encode (.scd 0x40000000),
    decode_encode (.tel 0x3F000000), decode_encode (.bcr 8), decode_encode (.bcr 16),
    decode_eq_illegalOp_iff.mpr (by decide), decode_eq_illegalOp_iff.mpr (by decide),
    decode_eq_reservedField_iff.mpr (by decide)⟩

end Sys2Proof

namespace Sys2Proof.Machine

/-! ## The assembler (R79, R80) -/

theorem map_decode_map_encode (is : List Instr) : (is.map encode).map decode = is.map .legal := by
  rw [List.map_map]
  exact List.map_congr_left fun i _ => decode_encode i

theorem wellFormed_lines {ls : List AsmLine} :
    AsmProgram.wellFormed (.lines ls) = true ↔
      ls.length ≤ 7 ∧ ∀ l ∈ ls, AsmLine.wellFormed l = true := by
  simp [AsmProgram.wellFormed]

theorem assemble_lines_eq_some {ls : List AsmLine} {ds : List Descr} :
    assemble (.lines ls) = some ds ↔
      (ls.length ≤ 7 ∧ ∀ l ∈ ls, AsmLine.wellFormed l = true) ∧
        (ls.map AsmLine.toInstr).map encode = ds := by
  rw [← wellFormed_lines, assemble, AsmProgram.instrs, Option.ite_none_right_eq_some, Option.some_inj]

/-- Settles O58: lines assemble to the encodings of their operations, which decode to them. -/
theorem assembledLinesDecode : Obligations.AssembledLinesDecode := by
  unfold Obligations.AssembledLinesDecode
  intro ls
  have hdecode : ∀ ds, assemble (.lines ls) = some ds →
      ds.length = ls.length ∧ ds.map decode = ls.map fun l => .legal (AsmLine.toInstr l) := by
    intro ds h
    obtain ⟨-, rfl⟩ := assemble_lines_eq_some.mp h
    exact ⟨by simp, by rw [map_decode_map_encode, List.map_map]; rfl⟩
  refine ⟨fun hlong => ?_, fun hlen hwf => ?_, hdecode⟩
  · refine Option.eq_none_iff_forall_ne_some.mpr fun ds h => ?_
    obtain ⟨⟨hlen, -⟩, -⟩ := assemble_lines_eq_some.mp h
    exact absurd hlen (Nat.not_le.mpr hlong)
  · have h := assemble_lines_eq_some.mpr ⟨⟨hlen, hwf⟩, rfl⟩
    exact ⟨_, h, hdecode _ h⟩

/-- Settles O59: `PIPELINE` stands for the default chain, whose encodings are the reset program. -/
theorem pipelineAssemblesToTheDefaultChain : Obligations.PipelineAssemblesToTheDefaultChain := by
  unfold Obligations.PipelineAssemblesToTheDefaultChain
  calc assemble .pipeline = some (defaultChain.map encode) := rfl
    _ = some State.reset.prog.toList := rfl

end Sys2Proof.Machine

namespace Sys2Proof.Machine

/-! ## Rounding to nearest, ties to even (R91) -/

/-- `r` is no NaN, the value of no other pattern comes nearer to `x / d`, and where another value comes as near
the pattern `r` is even. Distances are multiplied by `d`, as R91's statements write them. -/
def NearestEven (r : F32) (d x : Int) : Prop :=
  fIsNaN r = false ∧ ∀ c : F32, fIsNaN c = false →
    |fVal r * d - x| ≤ |fVal c * d - x| ∧
    (|fVal r * d - x| = |fVal c * d - x| → fVal c ≠ fVal r → fMag r % 2 = 0)

/-- The pattern of a rounded magnitude with its sign is nearest to the signed exact value. -/
theorem nearestEven_fPack_roundMag (s : Bool) (n : Nat) {d : Nat} (hd : 0 < d) :
    NearestEven (fPack s (roundMag n d)) d (signed s n) := by
  refine ⟨fIsNaN_fPack_roundMag s n d, fun c hc => ?_⟩
  rw [fVal_fPack_roundMag, fMag_fPack s (roundMag_lt n d)]
  exact signed_roundMag_nearest s n hd c hc

theorem magVal_pos_of_not_zero {a : F32} (h : fIsZero a = false) : 0 < magVal (fMag a) :=
  magVal_pos (by simpa [fIsZero] using h)

/-- A factor without a sign may be taken out of a signed value. -/
theorem signed_mul_natCast (s : Bool) (m k : Nat) : signed s (m * k) = signed s m * k := by
  rw [← signed_false k, signed_mul, Bool.bne_false]

/-- Distances do not change when the unit and the exact value both change sign. -/
theorem NearestEven.neg {r : F32} {d x : Int} (h : NearestEven r d x) : NearestEven r (-d) (-x) := by
  have hdist : ∀ v : Int, |v * -d - -x| = |v * d - x| := fun v => by
    rw [← abs_neg]; congr 1; ring
  refine ⟨h.1, fun c hc => ?_⟩
  rw [hdist, hdist]
  exact h.2 c hc

/-- A finite sum is the exact sum's rounded magnitude under its sign, where a zero sum may have either. -/
theorem fAdd_eq_fPack_roundMag {a b : F32} (ha : fIsFin a = true) (hb : fIsFin b = true) :
    ∃ s, fAdd a b = fPack s (roundMag (fVal a + fVal b).natAbs 1) ∧
      signed s (fVal a + fVal b).natAbs = fVal a + fVal b := by
  unfold fAdd
  simp only [fIsNaN_of_fin ha, fIsNaN_of_fin hb, fIsInf_of_fin ha, fIsInf_of_fin hb, Bool.or_false,
    Bool.false_eq_true, if_false]
  by_cases h0 : fVal a + fVal b = 0
  · rw [if_pos h0, h0, Int.natAbs_zero, roundMag_zero]
    exact ⟨_, rfl, signed_zero _⟩
  · rw [if_neg h0]
    exact ⟨_, rfl, signed_natAbs _⟩

theorem nearestEven_fAdd {a b : F32} (ha : fIsFin a = true) (hb : fIsFin b = true) :
    NearestEven (fAdd a b) 1 (fVal a + fVal b) := by
  obtain ⟨s, hr, hx⟩ := fAdd_eq_fPack_roundMag ha hb
  have h := nearestEven_fPack_roundMag s (fVal a + fVal b).natAbs Nat.one_pos
  rwa [← hr, hx, Nat.cast_one] at h

theorem nearestEven_fSub {a b : F32} (ha : fIsFin a = true) (hb : fIsFin b = true) :
    NearestEven (fSub a b) 1 (fVal a - fVal b) := by
  have h := nearestEven_fAdd ha (b := fNegate b) (by rwa [fIsFin_fNegate])
  rwa [fVal_fNegate, ← sub_eq_add_neg] at h

theorem nearestEven_fMul {a b : F32} (ha : fIsFin a = true) (hb : fIsFin b = true) :
    NearestEven (fMul a b) fOneUnits (fVal a * fVal b) := by
  rw [fMul_fin ha hb, fVal_eq a, fVal_eq b, signed_mul]
  exact nearestEven_fPack_roundMag _ _ fOneUnits_pos

theorem nearestEven_fDiv {a b : F32} (ha : fIsFin a = true) (hb : fIsFin b = true)
    (h0 : fIsZero b = false) : NearestEven (fDiv a b) (fVal b) (fVal a * fOneUnits) := by
  have hpos : 0 < magVal (fMag b) := magVal_pos_of_not_zero h0
  have h := nearestEven_fPack_roundMag (fNeg a != fNeg b) (magVal (fMag a) * fOneUnits) hpos
  rw [← fDiv_fin ha hb h0] at h
  rw [fVal_eq a, ← signed_mul_natCast, fVal_eq b]
  cases hs : fNeg b
  · rwa [hs, Bool.bne_false] at h
  · rw [hs, Bool.bne_true, signed_not] at h
    simpa using h.neg

/-- Settles O6: the one rounding of the exact sum is to nearest, ties to even; a difference is the sum with the
negated operand. -/
theorem sumsRoundToNearestEven : Obligations.SumsRoundToNearestEven := by
  unfold Obligations.SumsRoundToNearestEven
  intro a b ha hb
  have hadd := nearestEven_fAdd ha hb
  have hsub := nearestEven_fSub ha hb
  simp only [NearestEven, mul_one] at hadd hsub
  exact ⟨hadd, hsub⟩

/-- Settles O7: the one rounding of the exact product is to nearest, ties to even. -/
theorem productsRoundToNearestEven : Obligations.ProductsRoundToNearestEven := by
  unfold Obligations.ProductsRoundToNearestEven
  exact fun _ _ ha hb => nearestEven_fMul ha hb

/-- Settles O8: the one rounding of the exact quotient is to nearest, ties to even. -/
theorem quotientsRoundToNearestEven : Obligations.QuotientsRoundToNearestEven := by
  unfold Obligations.QuotientsRoundToNearestEven
  exact fun _ _ ha hb h0 => nearestEven_fDiv ha hb h0

end Sys2Proof.Machine

namespace Sys2Proof.Machine

/-! ## NaN and infinity (R93) -/

theorem fIsNaN_of_inf {a : F32} (h : fIsInf a = true) : fIsNaN a = false := by
  rw [fIsInf_iff] at h
  simp [fIsNaN, h]

theorem fIsInf_fPack_inf (s : Bool) : fIsInf (fPack s fInfMag) = true :=
  fIsInf_iff.mpr (fMag_fPack s fInfMag_lt)

theorem fSub_nan {a b : F32} (h : fIsNaN a = true ∨ fIsNaN b = true) : fSub a b = fNaN :=
  fAdd_nan (by rwa [fIsNaN_fNegate])

theorem fAdd_inf_of_neg_ne {a b : F32} (ha : fIsInf a = true) (hb : fIsInf b = true)
    (hs : fNeg a ≠ fNeg b) : fAdd a b = fNaN := by
  simp [fAdd, fIsNaN_of_inf ha, fIsNaN_of_inf hb, ha, hb, hs]

theorem fDiv_inf_inf {a b : F32} (ha : fIsInf a = true) (hb : fIsInf b = true) : fDiv a b = fNaN := by
  simp [fDiv, fIsNaN_of_inf ha, fIsNaN_of_inf hb, ha, hb]

theorem fMul_zero_inf {a b : F32} (ha : fIsZero a = true) (hb : fIsInf b = true) : fMul a b = fNaN := by
  simp [fMul, fIsNaN_of_fin (fIsFin_of_zero ha), fIsNaN_of_inf hb, ha, hb]

theorem fDiv_zero_zero {a b : F32} (ha : fIsZero a = true) (hb : fIsZero b = true) : fDiv a b = fNaN := by
  have fa := fIsFin_of_zero ha
  have fb := fIsFin_of_zero hb
  simp [fDiv, fIsNaN_of_fin fa, fIsNaN_of_fin fb, fIsInf_of_fin fa, fIsInf_of_fin fb, ha, hb]

/-- Anything but a NaN or a zero, divided by a zero, is an infinity. -/
theorem fDiv_by_zero {a b : F32} (hn : fIsNaN a = false) (h0 : fIsZero a = false)
    (hb : fIsZero b = true) : fDiv a b = fPack (fNeg a != fNeg b) fInfMag := by
  have fb := fIsFin_of_zero hb
  unfold fDiv
  simp [hn, h0, hb, fIsNaN_of_fin fb, fIsInf_of_fin fb]

/-- Settles O9: the operators test for a NaN first, then for an infinity, then a quotient for a zero divisor. -/
theorem nonFiniteOperands : Obligations.NonFiniteOperands := by
  unfold Obligations.NonFiniteOperands
  refine ⟨fun a b h => ?_, fun a b ha hb => ⟨?_, fun hs => ?_, fun hs => ?_⟩, fun a b ha hb => ⟨?_, ?_⟩,
    fun a b ha hb => ?_, fun a b ha h0 hb => ?_⟩
  · rw [fAdd_nan h, fSub_nan h, fMul_nan h, fDiv_nan h]
    exact ⟨fIsNaN_fNaN, fIsNaN_fNaN, fIsNaN_fNaN, fIsNaN_fNaN⟩
  · rw [fDiv_inf_inf ha hb, fIsNaN_fNaN]
  · rw [fSub, fAdd_inf_of_neg_ne ha (by rwa [fIsInf_fNegate]) (by simp [hs]), fIsNaN_fNaN]
  · rw [fAdd_inf_of_neg_ne ha hb hs, fIsNaN_fNaN]
  · rw [fMul_zero_inf ha hb, fIsNaN_fNaN]
  · rw [fMul_comm, fMul_zero_inf ha hb, fIsNaN_fNaN]
  · rw [fDiv_zero_zero ha hb, fIsNaN_fNaN]
  · rw [fDiv_by_zero (fIsNaN_of_fin ha) h0 hb, fIsInf_fPack_inf]

end Sys2Proof.Machine

namespace Sys2Proof.Machine

/-! ## The consequences of normalize (R98, R99) -/

theorem fOneUnits_cast_pos : (0 : Int) < fOneUnits := by exact_mod_cast fOneUnits_pos

theorem fIsNaN_fOfInt (n : Int) : fIsNaN (fOfInt n) = false := (fOfInt_fVal n).1

/-- Inside the clamp `normalize` truncates the exact value. -/
theorem normalizeInt_of_inside {v : F32} (hn : fIsNaN v = false)
    (hlo : -(32767 * (fOneUnits : Int)) ≤ fVal v) (hhi : fVal v ≤ 32767 * fOneUnits) :
    normalizeInt v = (fVal v).tdiv fOneUnits := by
  rcases normalizeInt_cases v with ⟨h, -⟩ | ⟨-, h, -⟩ | ⟨-, h, -⟩ | ⟨-, -, -, e⟩
  · rw [hn] at h; cases h
  · exact absurd hhi h.not_ge
  · exact absurd hlo h.not_ge
  · exact e

/-- The clamp bounds the magnitude before the truncation, which does not enlarge it. -/
theorem abs_normalizeInt_le (v : F32) : |normalizeInt v| ≤ 32767 := by
  rcases normalizeInt_cases v with ⟨-, e⟩ | ⟨-, -, e⟩ | ⟨-, -, e⟩ | ⟨-, hlo, hhi, -⟩
  · rw [e]; norm_num
  · rw [e]; norm_num
  · rw [e]; norm_num
  · have hm : magVal (fMag v) ≤ 32767 * fOneUnits := by
      rw [← natAbs_fVal]; omega
    exact_mod_cast normalizeInt_abs_le hm

/-- The result fits a Sample, so storing it loses nothing. -/
theorem toInt_normalize (v : F32) : (normalize v).toInt = normalizeInt v := by
  obtain ⟨hlo, hhi⟩ := abs_le.mp (abs_normalizeInt_le v)
  exact BitVec.toInt_ofInt_eq_self (by norm_num) (by norm_num; omega) (by norm_num; omega)

theorem inNormalRange_normalize (v : F32) : InNormalRange (normalize v) := by
  unfold InNormalRange
  rw [toInt_normalize]
  exact abs_le.mp (abs_normalizeInt_le v)

/-- An exactly converted integer comes back clamped. -/
theorem normalizeInt_fOfInt {n : Int} (h : n.natAbs ≤ 2 ^ 24) :
    normalizeInt (fOfInt n) = clamp n (-32767) 32767 := by
  have hU := fOneUnits_cast_pos
  have hv := fVal_fOfInt h
  unfold clamp
  rcases normalizeInt_cases (fOfInt n) with ⟨hn, -⟩ | ⟨-, hb, e⟩ | ⟨-, hb, e⟩ | ⟨-, hlo, hhi, e⟩
  · rw [fIsNaN_fOfInt] at hn; cases hn
  · rw [hv] at hb
    have hn : 32767 < n := lt_of_mul_lt_mul_right hb hU.le
    rw [e, if_neg (by omega), if_pos hn]
  · rw [hv, ← Int.neg_mul] at hb
    rw [e, if_pos (lt_of_mul_lt_mul_right hb hU.le)]
  · rw [hv, ← Int.neg_mul] at hlo
    rw [hv] at hhi
    have hn1 : -32767 ≤ n := le_of_mul_le_mul_right hlo hU
    have hn2 : n ≤ 32767 := le_of_mul_le_mul_right hhi hU
    rw [e, hv, Int.mul_tdiv_cancel _ hU.ne', if_neg (by omega), if_neg (by omega)]

/-- A value of magnitude below 1 is truncated to 0. -/
theorem normalizeInt_of_abs_lt_one {v : F32} (hn : fIsNaN v = false) (h : |fVal v| < fOneUnits) :
    normalizeInt v = 0 := by
  obtain ⟨hlo, hhi⟩ := abs_lt.mp h
  rw [normalizeInt_of_inside hn (by omega) (by omega), ← Int.natAbs_eq_zero, Int.natAbs_tdiv,
    Int.natAbs_natCast]
  exact Nat.div_eq_of_lt (by omega)

/-- Settles O11: `normalize` by the exact value, clamped and then truncated. -/
theorem normalizeConsequences : Obligations.NormalizeConsequences := by
  unfold Obligations.NormalizeConsequences
  refine ⟨fun v => ?range, fun n hlo hhi => ?integer, ?floor, ⟨?plusZero, ?minusZero, fun v hlo hhi => ?belowOne⟩,
    ⟨fun v hlo hhi => ?inside, ?positive, ?negative⟩, fun u v h => ?mono⟩
  case range =>
    obtain ⟨hlo, hhi⟩ := abs_le.mp (abs_normalizeInt_le v)
    exact ⟨hlo, hhi, toInt_normalize v⟩
  case integer =>
    rw [normalizeInt_fOfInt (by omega), clamp, if_neg (by omega), if_neg (by omega)]
  case floor =>
    rw [normalizeInt_fOfInt (by norm_num)]
    decide
  case plusZero => exact normalizeInt_of_zeroOrNaN (.inl (by decide))
  case minusZero => exact normalizeInt_of_zeroOrNaN (.inl (by decide))
  case belowOne =>
    obtain ⟨-, hn, h1⟩ := fLt_iff.mp hlo
    obtain ⟨-, -, h2⟩ := fLt_iff.mp hhi
    rw [fVal_fMinusOne] at h1
    rw [fVal_fOne] at h2
    exact normalizeInt_of_abs_lt_one hn (abs_lt.mpr ⟨h1, h2⟩)
  case inside =>
    obtain ⟨-, hn, h1⟩ := fLe_iff.mp hlo
    obtain ⟨-, -, h2⟩ := fLe_iff.mp hhi
    rw [fVal_fMinMag] at h1
    rw [fVal_fMaxMag] at h2
    exact normalizeInt_of_inside hn h1 h2
  case positive => decide +kernel
  case negative => decide +kernel
  case mono =>
    obtain ⟨hu, hv, huv⟩ := fLe_iff.mp h
    exact normalizeInt_mono hu hv huv

/-! ## The word a normalizing operation stores (R99 item 1) -/

/-- Settles O28: each of the six operations stores a result of `normalize` at the index it read. -/
theorem floatStagesStoreInRange : Obligations.FloatStagesStoreInRange := by
  unfold Obligations.FloatStagesStoreInRange
  intro i s t hi h
  obtain ⟨x, -, rfl⟩ := exec_next h
  refine ⟨resultOf i s x, ?_, ?_⟩
  · rw [finishSample_buf, privateOf_buf, privateOf_idx, Memory.read_write_same]
  · cases i with
    | bcr bits => cases hi
    | _ => exact inNormalRange_normalize _

end Sys2Proof.Machine

namespace Sys2Proof.Machine

/-! ## The white value (R101) -/

theorem fIsFin_fOfSample (x : Sample) : fIsFin (fOfSample x) = true :=
  fIsFin_fOfInt (natAbs_toInt_sample_le x)

theorem fVal_fOfSample (x : Sample) : fVal (fOfSample x) = x.toInt * fOneUnits :=
  fVal_fOfInt (natAbs_toInt_sample_le x)

theorem fNeg_fOfInt (n : Int) : fNeg (fOfInt n) = decide (n < 0) := fNeg_fPack _ (roundMag_lt _ _)

theorem magVal_f32768 : magVal (fMag f32768) = 2 ^ 15 * fOneUnits := by decide +kernel

theorem fIsNaN_whiteOf (r : Sample) : fIsNaN (whiteOf r) = false :=
  fIsNaN_fDiv (fIsFin_fOfSample r) (by decide) (by decide)

/-- A drawn word has 16 bits, so its quotient by 2^15 needs no rounding. -/
theorem fVal_whiteOf (r : Sample) : fVal (whiteOf r) = r.toInt * 2 ^ 134 := by
  have hr : r.toInt.natAbs ≤ 2 ^ 24 := natAbs_toInt_sample_le r
  have hmag : magVal (fMag (fOfSample r)) = r.toInt.natAbs * fOneUnits := by
    rw [← natAbs_fVal, fVal_fOfSample, Int.natAbs_mul, Int.natAbs_natCast]
  have hscale : r.toInt.natAbs * fOneUnits * fOneUnits =
      r.toInt.natAbs * 2 ^ 134 * (2 ^ 15 * fOneUnits) := by
    unfold fOneUnits; ring
  have hexact : magVal (roundMag (r.toInt.natAbs * 2 ^ 134 * (2 ^ 15 * fOneUnits)) (2 ^ 15 * fOneUnits)) =
      r.toInt.natAbs * 2 ^ 134 :=
    magVal_roundMag_exact (Nat.mul_pos (by norm_num) fOneUnits_pos) hr
      ((Nat.mul_le_mul_left _ (Nat.pow_le_pow_right (by norm_num) (by norm_num))).trans
        (mul_units_lt_inf hr).le)
  rw [whiteOf, fVal_fDiv (fIsFin_fOfSample r) (by decide) (by decide), hmag, magVal_f32768, hscale, hexact,
    show fNeg f32768 = false by decide, Bool.bne_false, fOfSample, fNeg_fOfInt, signed_mul_natCast,
    signed_natAbs, Nat.cast_pow, Nat.cast_ofNat]

/-- Settles O12: the quotient is exact, and a drawn word lies in [-2^15, 2^15). -/
theorem whiteValueIsExact : Obligations.WhiteValueIsExact := by
  unfold Obligations.WhiteValueIsExact
  intro r
  have hunits : (fOneUnits : Int) = 2 ^ 15 * 2 ^ 134 := by unfold fOneUnits; norm_num
  have hlo := r.le_toInt
  have hhi := r.toInt_lt
  refine ⟨?_, fLe_iff.mpr ⟨by decide, fIsNaN_whiteOf r, ?_⟩, fLt_iff.mpr ⟨fIsNaN_whiteOf r, by decide, ?_⟩⟩
  · rw [fVal_whiteOf, hunits]; ring
  · rw [fVal_fMinusOne, fVal_whiteOf, hunits, ← Int.neg_mul]
    exact Int.mul_le_mul_of_nonneg_right hlo (by norm_num)
  · rw [fVal_fOne, fVal_whiteOf, hunits]
    exact Int.mul_lt_mul_of_pos_right hhi (by norm_num)

end Sys2Proof.Machine

namespace Sys2Proof.Machine

/-! ## Zeros under the float operators, and the pink shaper at zero (R106, R108) -/

theorem fIsZero_of_zeroOrNaN {a : F32} (h : ZeroOrNaN a) (hn : fIsNaN a = false) : fIsZero a = true := by
  rcases h with h | h
  · exact fIsZero_iff.mpr h
  · rw [hn] at h; cases h

theorem zeroOrNaN_of_zero {a : F32} (h : fIsZero a = true) : ZeroOrNaN a := .inl (fIsZero_iff.mp h)

theorem fIsZero_fMul {a b : F32} (ha : fIsFin a = true) (hb : fIsZero b = true) :
    fIsZero (fMul a b) = true :=
  fIsZero_of_zeroOrNaN (zeroOrNaN_fMul_right (zeroOrNaN_of_zero hb) a)
    (fIsNaN_fMul ha (fIsFin_of_zero hb))

theorem fIsZero_fAdd {a b : F32} (ha : fIsZero a = true) (hb : fIsZero b = true) :
    fIsZero (fAdd a b) = true :=
  fIsZero_of_zeroOrNaN (zeroOrNaN_fAdd (zeroOrNaN_of_zero ha) (zeroOrNaN_of_zero hb))
    (fAdd_fin (fIsFin_of_zero ha) (fIsFin_of_zero hb)).1

theorem fIsZero_fDiv {a b : F32} (ha : fIsZero a = true) (hb : fIsFin b = true) (h0 : fIsZero b = false) :
    fIsZero (fDiv a b) = true :=
  fIsZero_of_zeroOrNaN (zeroOrNaN_fDiv (zeroOrNaN_of_zero ha) hb h0)
    (fIsNaN_fDiv (fIsFin_of_zero ha) hb h0)

theorem fIsZero_whiteOf_zero : fIsZero (whiteOf 0) = true := by
  rw [fIsZero_iff, ← fVal_eq_zero, fVal_whiteOf]
  simp

theorem fIsZero_pinkTerm {d g b white : F32} (hd : fIsFin d = true) (hg : fIsFin g = true)
    (hb : fIsZero b = true) (hw : fIsZero white = true) : fIsZero (pinkTerm d g b white) = true :=
  fIsZero_fAdd (fIsZero_fMul hd hb) (fIsZero_fMul hg hw)

/-- Settles O15: finite constants times zeros, and sums of zeros, are zeros. -/
theorem pinkShaperStaysAtZero : Obligations.PinkShaperStaysAtZero := by
  unfold Obligations.PinkShaperStaysAtZero
  intro c b hd0 hd1 hd2 hd3 hd4 hd5 hg0 hg1 hg2 hg3 hg4 hg5 hg6 hgw hatt hdc hb0 hb1 hb2 hb3 hb4 hb5 hb6
  have hw := fIsZero_whiteOf_zero
  have n0 : fIsZero (pinkNext c b 0).b0 = true := fIsZero_pinkTerm hd0 hg0 hb0 hw
  have n1 : fIsZero (pinkNext c b 0).b1 = true := fIsZero_pinkTerm hd1 hg1 hb1 hw
  have n2 : fIsZero (pinkNext c b 0).b2 = true := fIsZero_pinkTerm hd2 hg2 hb2 hw
  have n3 : fIsZero (pinkNext c b 0).b3 = true := fIsZero_pinkTerm hd3 hg3 hb3 hw
  have n4 : fIsZero (pinkNext c b 0).b4 = true := fIsZero_pinkTerm hd4 hg4 hb4 hw
  have n5 : fIsZero (pinkNext c b 0).b5 = true := fIsZero_pinkTerm hd5 hg5 hb5 hw
  have n6 : fIsZero (pinkNext c b 0).b6 = true := fIsZero_fMul hg6 hw
  have terms := fIsZero_fAdd (fIsZero_fAdd (fIsZero_fAdd (fIsZero_fAdd (fIsZero_fAdd n0 n1) n2) n3) n4) n5
  have sum := fIsZero_fAdd (fIsZero_fAdd (fIsZero_fAdd terms hb6) (fIsZero_fMul hgw hw)) hdc
  have value : fIsZero (pinkValue c b 0) = true := by
    unfold pinkValue
    rw [fMul_comm]
    exact fIsZero_fMul hatt sum
  exact ⟨n0, n1, n2, n3, n4, n5, n6, value⟩

end Sys2Proof.Machine

namespace Sys2Proof.Machine

/-! ## The phase accumulator (R102 to R105) -/

theorem advance_of_wrap {ph inc : F32} (h : fGt (fAdd ph inc) fTwoPi = true) :
    advance ph inc = fSub (fAdd ph inc) fTwoPi := if_pos h

theorem advance_of_no_wrap {ph inc : F32} (h : fGt (fAdd ph inc) fTwoPi ≠ true) :
    advance ph inc = fAdd ph inc := if_neg h

theorem fVal_fZero : fVal fZero = 0 := by decide

/-- A value between two finite ones is finite. -/
theorem fIsFin_of_between {lo a hi : F32} (hlo : fIsFin lo = true) (hhi : fIsFin hi = true)
    (h1 : fVal lo ≤ fVal a) (h2 : fVal a ≤ fVal hi) : fIsFin a = true := by
  rw [fIsFin_iff_natAbs_fVal_lt] at *
  omega

/-- A phase of R105. -/
def InPhaseRange (ph : F32) : Prop := fLe fZero ph = true ∧ fLe ph fTwoPi = true

theorem inPhaseRange_iff {ph : F32} :
    InPhaseRange ph ↔ fIsNaN ph = false ∧ 0 ≤ fVal ph ∧ fVal ph ≤ fVal fTwoPi := by
  have hz : fIsNaN fZero = false := by decide
  have ht : fIsNaN fTwoPi = false := by decide
  unfold InPhaseRange
  rw [fLe_iff, fLe_iff, fVal_fZero, hz, ht]
  tauto

theorem InPhaseRange.fin {ph : F32} (h : InPhaseRange ph) : fIsFin ph = true := by
  obtain ⟨-, h0, h1⟩ := inPhaseRange_iff.mp h
  exact fIsFin_of_between (lo := fZero) (hi := fTwoPi) (by decide) (by decide) (by rwa [fVal_fZero]) h1

theorem inPhaseRange_fZero : InPhaseRange fZero := ⟨by decide +kernel, by decide +kernel⟩

/-- Twice `TWO_PI`, a representable value: the same significand in the next binade. -/
def twiceTwoPi : F32 := 0x41490FDB

theorem fVal_twiceTwoPi : fVal twiceTwoPi = fVal fTwoPi + fVal fTwoPi := by decide +kernel

/-- The rounded sum of two phases is not negative and at most twice `TWO_PI`, which rounding keeps. -/
theorem fAdd_of_inPhaseRange {ph inc : F32} (hp : InPhaseRange ph) (hi : InPhaseRange inc) :
    0 ≤ fVal (fAdd ph inc) ∧ fVal (fAdd ph inc) ≤ fVal fTwoPi + fVal fTwoPi := by
  obtain ⟨-, p0, p1⟩ := inPhaseRange_iff.mp hp
  obtain ⟨-, i0, i1⟩ := inPhaseRange_iff.mp hi
  rw [← fVal_fZero, ← fVal_twiceTwoPi]
  exact ⟨le_fVal_fAdd hp.fin hi.fin (by decide) (by rw [fVal_fZero]; omega),
    fVal_fAdd_le hp.fin hi.fin (by decide) (by rw [fVal_twiceTwoPi]; omega)⟩

/-- An advance that wraps subtracts `TWO_PI` from a greater sum, so it leaves a positive phase. -/
theorem advance_wrap_inPhaseRange {ph inc : F32} (hp : InPhaseRange ph) (hi : InPhaseRange inc)
    (hw : fGt (fAdd ph inc) fTwoPi = true) :
    InPhaseRange (advance ph inc) ∧ 0 < fVal (advance ph inc) := by
  obtain ⟨s0, s1⟩ := fAdd_of_inPhaseRange hp hi
  obtain ⟨-, -, hgt⟩ := fGt_iff.mp hw
  have hs : fIsFin (fAdd ph inc) = true :=
    fIsFin_of_between (lo := fZero) (hi := twiceTwoPi) (by decide) (by decide)
      (by rwa [fVal_fZero]) (by rwa [fVal_twiceTwoPi])
  have ht : fIsFin fTwoPi = true := by decide
  obtain ⟨hn, hv⟩ := fSub_fin hs ht
  have hpos : 0 < fVal (fSub (fAdd ph inc) fTwoPi) := by
    rw [hv]; exact roundUnits_pos (by omega)
  rw [advance_of_wrap hw]
  exact ⟨inPhaseRange_iff.mpr ⟨hn, hpos.le, fVal_fSub_le hs ht (by decide) (by omega)⟩, hpos⟩

theorem advance_inPhaseRange {ph inc : F32} (hp : InPhaseRange ph) (hi : InPhaseRange inc) :
    InPhaseRange (advance ph inc) := by
  by_cases hw : fGt (fAdd ph inc) fTwoPi = true
  · exact (advance_wrap_inPhaseRange hp hi hw).1
  · have hn : fIsNaN (fAdd ph inc) = false := (fAdd_fin hp.fin hi.fin).1
    have hle : fVal (fAdd ph inc) ≤ fVal fTwoPi :=
      not_lt.mp fun hlt => hw (fGt_iff.mpr ⟨hn, by decide, hlt⟩)
    rw [advance_of_no_wrap hw]
    exact inPhaseRange_iff.mpr ⟨hn, (fAdd_of_inPhaseRange hp hi).1, hle⟩

/-- Every phase of a stage is in range: its first is, and an advance keeps it so. -/
theorem iterate_advance_inPhaseRange {inc : F32} (hi : InPhaseRange inc) (n : Nat) :
    InPhaseRange ((fun ph => advance ph inc)^[n] fZero) := by
  induction n with
  | zero => exact inPhaseRange_fZero
  | succ n ih =>
    rw [Function.iterate_succ_apply']
    exact advance_inPhaseRange ih hi

/-- Settles O13: an advance keeps the range, by its two cases, and a wrap leaves more than zero. -/
theorem phaseStaysInRange : Obligations.PhaseStaysInRange := by
  unfold Obligations.PhaseStaysInRange
  intro inc h0 h1
  have hi : InPhaseRange inc := ⟨h0, h1⟩
  refine ⟨fun n => iterate_advance_inPhaseRange hi n, fun ph p0 p1 => ?_⟩
  have hp : InPhaseRange ph := ⟨p0, p1⟩
  obtain ⟨a0, a1⟩ := advance_inPhaseRange hp hi
  refine ⟨a0, a1, fun hw => fLt_iff.mpr ⟨by decide, (fLe_iff.mp a1).1, ?_⟩⟩
  rw [fVal_fZero]
  exact (advance_wrap_inPhaseRange hp hi hw).2

/-! ## Corner cases of the phase step and the phase (R104) -/

theorem fNeg_of_fVal_pos {a : F32} (h : 0 < fVal a) : fNeg a = false := by
  by_contra hs
  rw [fVal_eq, Bool.eq_true_of_not_eq_false hs, signed_true] at h
  omega

theorem fIsZero_of_fVal_pos {a : F32} (h : 0 < fVal a) : fIsZero a = false := by
  rw [Bool.eq_false_iff, Ne, fIsZero_iff, ← fVal_eq_zero]
  exact h.ne'

/-- 2^32, above every sample rate. -/
def f2Pow32 : F32 := 0x4F800000

theorem fVal_f2Pow32 : fVal f2Pow32 = 2 ^ 32 * fOneUnits := by decide +kernel

theorem fVal_fOfWord (w : BitVec 32) : fVal (fOfWord w) = roundUnits (w.toNat * fOneUnits) :=
  (fOfInt_fVal w.toNat).2

theorem fIsFin_fOfWord (w : BitVec 32) : fIsFin (fOfWord w) = true := by
  have hw : (w.toNat : Int) ≤ 2 ^ 32 := by exact_mod_cast w.isLt.le
  have h0 : fVal fZero ≤ fVal (fOfWord w) := by
    rw [fVal_fOfWord, fVal_fZero, ← roundUnits_zero]
    exact roundUnits_mono (by positivity)
  have h1 : fVal (fOfWord w) ≤ fVal f2Pow32 := by
    rw [fVal_fOfWord, ← roundUnits_fVal (a := f2Pow32) (by decide), fVal_f2Pow32]
    exact roundUnits_mono (Int.mul_le_mul_of_nonneg_right hw fOneUnits_cast_pos.le)
  exact fIsFin_of_between (by decide) (by decide) h0 h1

theorem fIsZero_fOfWord_of_ne {w : BitVec 32} (h : w ≠ 0) : fIsZero (fOfWord w) = false := by
  have hw : w.toNat ≠ 0 := fun h0 => h (BitVec.eq_of_toNat_eq h0)
  apply fIsZero_of_fVal_pos
  rw [fVal_fOfWord]
  exact roundUnits_pos (Int.mul_pos (by omega) fOneUnits_cast_pos)

theorem fOfWord_zero : fOfWord 0 = fZero := by decide

theorem fOneUnits_le_magVal_fTwoPi : fOneUnits ≤ magVal (fMag fTwoPi) := by decide +kernel

/-- `TWO_PI` times a nonzero finite value is at least the smallest subnormal in magnitude, so it does not
round to zero. -/
theorem fIsZero_fMul_fTwoPi {hz : F32} (hf : fIsFin hz = true) (h0 : fIsZero hz = false) :
    fIsZero (fMul fTwoPi hz) = false := by
  have hpos : 0 < magVal (fMag hz) := magVal_pos_of_not_zero h0
  have hone : 1 ≤ roundMag (magVal (fMag fTwoPi) * magVal (fMag hz)) fOneUnits := by
    refine le_roundMag fOneUnits_pos (by decide) ?_
    rw [show magVal 1 = 1 by decide, Nat.one_mul]
    exact fOneUnits_le_magVal_fTwoPi.trans (Nat.le_mul_of_pos_right _ hpos)
  rw [fMul_fin (by decide) hf, Bool.eq_false_iff, Ne, fIsZero_iff, fMag_fPack _ (roundMag_lt _ _)]
  omega

/-- A positive frequency over a sample rate of zero. -/
theorem phaseStep_rate_zero {hz : F32} (hf : fIsFin hz = true) (hpos : 0 < fVal hz) :
    phaseStep hz 0 = fPosInf := by
  have ht : fIsFin fTwoPi = true := by decide
  have hs : fNeg (fMul fTwoPi hz) = false := by
    rw [fMul_fin ht hf, fNeg_fPack _ (roundMag_lt _ _), fNeg_of_fVal_pos hpos]
    decide
  have h0 : fIsZero (fMul fTwoPi hz) = false := fIsZero_fMul_fTwoPi hf (fIsZero_of_fVal_pos hpos)
  rw [phaseStep, fOfWord_zero, fDiv_by_zero (fIsNaN_fMul ht hf) h0 (by decide), hs]
  decide

theorem phaseStep_of_zero {hz : F32} {srate : BitVec 32} (h : fIsZero hz = true) (hr : srate ≠ 0) :
    fIsZero (phaseStep hz srate) = true :=
  fIsZero_fDiv (fIsZero_fMul (by decide) h) (fIsFin_fOfWord srate) (fIsZero_fOfWord_of_ne hr)

theorem advance_of_zeros {ph inc : F32} (hp : fIsZero ph = true) (hi : fIsZero inc = true) :
    fIsZero (advance ph inc) = true := by
  have hs := fIsZero_fAdd hp hi
  have hw : fGt (fAdd ph inc) fTwoPi ≠ true := fun h => by
    have hlt : fVal fTwoPi < fVal (fAdd ph inc) := (fGt_iff.mp h).2.2
    rw [fVal_eq_zero.mpr (fIsZero_iff.mp hs)] at hlt
    exact absurd hlt (by decide +kernel)
  rwa [advance_of_no_wrap hw]

theorem advance_nan {ph inc : F32} (h : fIsNaN inc = true) : advance ph inc = fNaN := by
  unfold advance
  rw [fAdd_nan (.inr h)]
  rfl

/-- Settles O14: each row of R104's table is a product and a quotient of the corner values. -/
theorem phaseCornerCases : Obligations.PhaseCornerCases := by
  unfold Obligations.PhaseCornerCases
  refine ⟨fun hz srate h hr => ?zeroHz, fun hz hf hlt => ?zeroRate, fun hz h => ?bothZero,
    fun hz srate h => ?nanHz, fun ph inc h => ?nanStep⟩
  case zeroHz =>
    have hstep := phaseStep_of_zero h hr
    exact ⟨hstep, fun ph hp => advance_of_zeros hp hstep⟩
  case zeroRate =>
    have hpos : 0 < fVal hz := by
      rw [← fVal_fZero]; exact (fLt_iff.mp hlt).2.2
    exact ⟨phaseStep_rate_zero hf hpos, by decide +kernel, by decide +kernel⟩
  case bothZero =>
    rw [phaseStep, fOfWord_zero, fDiv_zero_zero (fIsZero_fMul (by decide) h) (by decide), fIsNaN_fNaN]
  case nanHz => rw [phaseStep, fMul_nan (.inr h), fDiv_nan (.inl fIsNaN_fNaN), fIsNaN_fNaN]
  case nanStep => rw [advance_nan h, fIsNaN_fNaN]

end Sys2Proof.Machine

namespace Sys2Proof.Machine

/-! ## What every sample step leaves unchanged (R66)

The registers of the map, `SP`, `INC`, the host agent, and the words of `BUF` away from `IDX`: said of every
operation. What an operation does to the other private registers is its own `privateOf`. -/

theorem exec_keeps_registers {i : Instr} {s t : State} (h : exec i s = .next t) :
    t.len = s.len ∧ t.srate = s.srate ∧ t.fmeta = s.fmeta ∧ t.plen = s.plen ∧ t.prog = s.prog ∧
      t.state = s.state ∧ t.ecode = s.ecode ∧ t.eslot = s.eslot ∧ t.sp = s.sp := by
  obtain ⟨x, -, rfl⟩ := exec_next h
  simp

theorem exec_keeps_inc_and_host {i : Instr} {s t : State} (h : exec i s = .next t) :
    t.inc = s.inc ∧ t.host = s.host ∧ t.replies = s.replies ∧ t.freeCount = s.freeCount := by
  obtain ⟨x, -, rfl⟩ := exec_next h
  simp

theorem exec_keeps_other_words {i : Instr} {s t : State} (h : exec i s = .next t) {j : Nat}
    (hj : j ≠ s.idx.toNat) : t.buf.read j = s.buf.read j := by
  obtain ⟨x, -, rfl⟩ := exec_next h
  rw [finishSample_buf, privateOf_buf, privateOf_idx, Memory.read_write_ne _ _ hj]

/-! ## The private state of the noise stages (R120, R122) -/

theorem privateOf_awn (level : F32) (s : State) (x : Sample) :
    privateOf (.awn level) s x = s.consumeDraw := rfl

theorem privateOf_apn (level : F32) (s : State) (x : Sample) :
    privateOf (.apn level) s x =
      { s.consumeDraw with pinkRegs := pinkNext Config.pink s.pinkRegs (drawnWord s) } := rfl

/-- AWN draws and does nothing else to a private register. -/
theorem exec_awn_keeps_pinkRegs {level : F32} {s t : State} (h : exec (.awn level) s = .next t) :
    t.pinkRegs = s.pinkRegs := by
  obtain ⟨x, -, rfl⟩ := exec_next h
  rw [finishSample_pinkRegs, privateOf_awn, consumeDraw_pinkRegs]

/-- The phases and `PREV` belong to other stages (R32). -/
theorem exec_noise_keeps_phases_and_prev {i : Instr} {s t : State} {level : F32}
    (hi : i = .awn level ∨ i = .apn level) (h : exec i s = .next t) :
    t.phT = s.phT ∧ t.phR = s.phR ∧ t.prev = s.prev := by
  obtain ⟨x, -, rfl⟩ := exec_next h
  rcases hi with rfl | rfl
  · simp [privateOf_awn]
  · simp [privateOf_apn]

/-- Settles O25: the frame of every sample step, and the noise stages' own effect on the private registers. -/
theorem frameOfNoiseStages : Obligations.FrameOfNoiseStages := by
  unfold Obligations.FrameOfNoiseStages
  intro i s t level hi h
  obtain ⟨hinc, hhost, hreplies, hfree⟩ := exec_keeps_inc_and_host h
  obtain ⟨hphT, hphR, hprev⟩ := exec_noise_keeps_phases_and_prev hi h
  have hpink : i = .awn level → t.pinkRegs = s.pinkRegs := by
    rintro rfl
    exact exec_awn_keeps_pinkRegs h
  exact ⟨exec_keeps_registers h, ⟨hpink, hphT, hphR, hinc, hprev, hhost, hreplies, hfree⟩,
    fun _ hj => exec_keeps_other_words h hj⟩

/-! ## The results of the noise stages (R120, R122) -/

theorem exec_awn_of_read {level : F32} {s : State} {x : Sample} (hx : s.buf.read s.idx.toNat = some x) :
    exec (.awn level) s = .next (s.consumeDraw.finishSample (awnSample level x (drawnWord s))) :=
  exec_of_read hx

/-- One call of `generate()` gives both the value that APN scales and the shaper's next state (R106). -/
theorem exec_apn_of_read {level : F32} {s : State} {x : Sample} (hx : s.buf.read s.idx.toNat = some x) :
    exec (.apn level) s = .next (State.finishSample
      { s.consumeDraw with pinkRegs := pinkNext Config.pink s.pinkRegs (drawnWord s) }
      (apnSample level x (pinkValue Config.pink s.pinkRegs (drawnWord s)))) :=
  exec_of_read hx

/-- The one constant of the shaper that the source gives, RNE(0.11) (R107). -/
theorem pink_att : Config.pink.att = 0x3DE147AE := rfl

/-- Settles O16: the sample step of AWN, with the draw and the store written out. -/
theorem awnResult : Obligations.AwnResult := by
  unfold Obligations.AwnResult
  intro level s x hx
  rw [exec_awn_of_read hx, awnSample, drawnWord, State.finishSample, State.consumeDraw]

/-- Settles O17: `w`, `b` and `p` are the model's white value, next shaper state and shaper value. -/
theorem apnResult : Obligations.ApnResult := by
  unfold Obligations.ApnResult
  intro level s x w b p hx hw hb hp
  have hwhite : w = whiteOf (drawnWord s) := hw
  have hnext : b = pinkNext Config.pink s.pinkRegs (drawnWord s) := by
    rw [hb, hwhite]; rfl
  have hvalue : p = pinkValue Config.pink s.pinkRegs (drawnWord s) := by
    rw [hp, hwhite, hnext, pinkValue, pink_att]
  rw [exec_apn_of_read hx, ← hnext, ← hvalue, apnSample, apnScale, State.finishSample, State.consumeDraw]

end Sys2Proof.Machine

namespace Sys2Proof.Machine

/-! ## The stages without private state: SCD and BCR (R130, R150, R66) -/

theorem privateOf_pure {i : Instr} (hi : (∃ gain, i = .scd gain) ∨ ∃ bits, i = .bcr bits) (s : State)
    (x : Sample) : privateOf i s x = s := by
  rcases hi with ⟨gain, rfl⟩ | ⟨bits, rfl⟩
  · rfl
  · rfl

/-- A step of SCD or BCR is its store and the advance of `IDX`. -/
theorem exec_pure_next {i : Instr} {s t : State} (hi : (∃ gain, i = .scd gain) ∨ ∃ bits, i = .bcr bits)
    (h : exec i s = .next t) : ∃ y, t = s.finishSample y := by
  obtain ⟨x, -, rfl⟩ := exec_next h
  exact ⟨resultOf i s x, by rw [privateOf_pure hi]⟩

/-- Settles O24: the store and the advance of `IDX` touch no private register and no other word. -/
theorem frameOfPureStages : Obligations.FrameOfPureStages := by
  unfold Obligations.FrameOfPureStages
  intro i s t hi h
  refine ⟨exec_keeps_registers h, ?registers, fun _ hj => exec_keeps_other_words h hj⟩
  case registers =>
    obtain ⟨y, rfl⟩ := exec_pure_next hi h
    simp

/-! ## The result of SCD (R130) -/

theorem exec_scd_of_read {gain : F32} {s : State} {x : Sample} (hx : s.buf.read s.idx.toNat = some x) :
    exec (.scd gain) s = .next (s.finishSample (scdSample Config.scdOrder ftanh gain x)) :=
  exec_of_read hx

/-- Settles O18: `n` is the argument of the hyperbolic tangent, in whichever order the block has. -/
theorem scdResult : Obligations.ScdResult := by
  unfold Obligations.ScdResult
  intro gain s x n hx hn
  have hinput : n = scdInput Config.scdOrder gain (fOfSample x) := hn
  rw [exec_scd_of_read hx, scdSample, ← hinput, State.finishSample]

end Sys2Proof.Machine

namespace Sys2Proof.Machine

/-! ## Division by a positive value is monotone (R91, R93)

The dividend may be an infinity: the product with a large gain overflows. -/

theorem natAbs_fVal_le_inf {a : F32} (h : fIsNaN a = false) : (fVal a).natAbs ≤ magVal fInfMag := by
  rw [natAbs_fVal, magVal_le_iff]
  simpa [fIsNaN] using h

theorem natAbs_fVal_of_inf {a : F32} (h : fIsInf a = true) : (fVal a).natAbs = magVal fInfMag := by
  rw [natAbs_fVal, fIsInf_iff.mp h]

theorem natAbs_fVal_lt_inf {a : F32} (h : fIsFin a = true) : (fVal a).natAbs < magVal fInfMag := by
  rw [natAbs_fVal, magVal_lt_iff]
  exact fIsFin_iff.mp h

section
variable {b : F32} (hb : fIsFin b = true) (hpos : 0 < fVal b)
include hb hpos

/-- A positive finite divisor keeps an infinity. -/
theorem fDiv_inf_pos {a : F32} (ha : fIsInf a = true) : fDiv a b = a := by
  unfold fDiv
  rw [if_neg (by simp [fIsNaN_of_inf ha, fIsNaN_of_fin hb]), if_pos ha,
    if_neg (by simp [fIsInf_of_fin hb]), fNeg_of_fVal_pos hpos, Bool.bne_false, ← fIsInf_iff.mp ha,
    fPack_self]

theorem fIsNaN_fDiv_pos {a : F32} (ha : fIsNaN a = false) : fIsNaN (fDiv a b) = false := by
  rcases fin_or_inf ha with hf | hi
  · exact fIsNaN_fDiv hf hb (fIsZero_of_fVal_pos hpos)
  · rwa [fDiv_inf_pos hb hpos hi]

theorem fVal_fDiv_mono_of_fin {a a' : F32} (ha : fIsFin a = true) (ha' : fIsFin a' = true)
    (h : fVal a ≤ fVal a') : fVal (fDiv a b) ≤ fVal (fDiv a' b) := by
  have h0 := fIsZero_of_fVal_pos hpos
  have hd : 0 < magVal (fMag b) := magVal_pos_of_not_zero h0
  rw [fVal_fDiv ha hb h0, fVal_fDiv ha' hb h0, fNeg_of_fVal_pos hpos, Bool.bne_false, Bool.bne_false]
  refine signed_mono (f := fun m => magVal (roundMag (m * fOneUnits) (magVal (fMag b)))) ?mono ?zero h
  case mono =>
    exact fun m n hmn => magVal_le_iff.mpr
      (roundMag_mono hd hd (Nat.mul_le_mul_right _ (Nat.mul_le_mul_right _ hmn)))
  case zero => simp only [Nat.zero_mul, roundMag_zero, magVal_zero]

/-- An infinity below a finite value is the lowest value, and one above it is the highest; both are kept. -/
theorem fLe_fDiv {a a' : F32} (h : fLe a a' = true) : fLe (fDiv a b) (fDiv a' b) = true := by
  obtain ⟨hn, hn', hle⟩ := fLe_iff.mp h
  have hq := fIsNaN_fDiv_pos hb hpos hn
  have hq' := fIsNaN_fDiv_pos hb hpos hn'
  refine fLe_iff.mpr ⟨hq, hq', ?_⟩
  rcases fin_or_inf hn with hf | hi <;> rcases fin_or_inf hn' with hf' | hi'
  · exact fVal_fDiv_mono_of_fin hb hpos hf hf' hle
  · have hlt := natAbs_fVal_lt_inf hf
    have htop := natAbs_fVal_of_inf hi'
    have hbound := natAbs_fVal_le_inf hq
    rw [fDiv_inf_pos hb hpos hi']
    omega
  · have hlt := natAbs_fVal_lt_inf hf'
    have hbottom := natAbs_fVal_of_inf hi
    have hbound := natAbs_fVal_le_inf hq'
    rw [fDiv_inf_pos hb hpos hi]
    omega
  · rwa [fDiv_inf_pos hb hpos hi, fDiv_inf_pos hb hpos hi']

end

/-- A divisor of magnitude at least 1 does not enlarge, so a finite quotient stays finite. -/
theorem fIsFin_fDiv {a b : F32} (ha : fIsFin a = true) (hb : fIsFin b = true)
    (h1 : fOneUnits ≤ magVal (fMag b)) : fIsFin (fDiv a b) = true := by
  have hd : 0 < magVal (fMag b) := fOneUnits_pos.trans_le h1
  have h0 : fIsZero b = false := by
    rw [Bool.eq_false_iff, Ne, fIsZero_iff, ← magVal_eq_zero]
    exact hd.ne'
  rw [fIsFin_iff, fDiv_fin ha hb h0, fMag_fPack _ (roundMag_lt _ _)]
  exact (roundMag_le hd (Nat.mul_le_mul_left _ h1)).trans_lt (fIsFin_iff.mp ha)

/-! ## Values of opposite sign (R131: every step of SCD commutes with negation) -/

/-- Two patterns of opposite value, or two NaNs: what the operators make of two operands of opposite sign. -/
def Opposed (a b : F32) : Prop := a = fNegate b ∨ (fIsNaN a = true ∧ fIsNaN b = true)

theorem Opposed.fMul_right {a b : F32} (h : Opposed a b) (c : F32) : Opposed (fMul a c) (fMul b c) := by
  rcases h with rfl | ⟨ha, hb⟩
  · exact fMul_fNegate
  · rw [fMul_nan (.inl ha), fMul_nan (.inl hb)]
    exact .inr ⟨fIsNaN_fNaN, fIsNaN_fNaN⟩

theorem Opposed.fMul_left {a b : F32} (h : Opposed a b) (c : F32) : Opposed (fMul c a) (fMul c b) := by
  rw [fMul_comm c a, fMul_comm c b]
  exact h.fMul_right c

theorem Opposed.fDiv_right {a b : F32} (h : Opposed a b) (c : F32) : Opposed (fDiv a c) (fDiv b c) := by
  rcases h with rfl | ⟨ha, hb⟩
  · exact fDiv_fNegate
  · rw [fDiv_nan (.inl ha), fDiv_nan (.inl hb)]
    exact .inr ⟨fIsNaN_fNaN, fIsNaN_fNaN⟩

theorem Opposed.normalizeInt_eq_neg {a b : F32} (h : Opposed a b) : normalizeInt a = -normalizeInt b := by
  rcases h with rfl | ⟨ha, hb⟩
  · exact normalizeInt_fNegate b
  · rw [normalizeInt_of_zeroOrNaN (.inr ha), normalizeInt_of_zeroOrNaN (.inr hb), Int.neg_zero]

theorem Opposed.scdInput_sample {v w : F32} (h : Opposed v w) (order : Config.ScdOrder) (gain : F32) :
    Opposed (scdInput order gain v) (scdInput order gain w) := by
  cases order with
  | gainFirst => exact (h.fMul_right gain).fDiv_right fMaxMag
  | divideFirst => exact (h.fDiv_right fMaxMag).fMul_right gain

theorem Opposed.scdInput_gain {g k : F32} (h : Opposed g k) (order : Config.ScdOrder) (v : F32) :
    Opposed (scdInput order g v) (scdInput order k v) := by
  cases order with
  | gainFirst => exact (h.fMul_left v).fDiv_right fMaxMag
  | divideFirst => exact h.fMul_left (fDiv v fMaxMag)

/-- The conversion of an integer other than 0, which has one pattern where a float zero has two. -/
theorem fOfInt_neg {n : Int} (h : n ≠ 0) : fOfInt (-n) = fNegate (fOfInt n) := by
  have hs : decide (-n < 0) = !decide (n < 0) := by
    rw [← decide_not, decide_eq_decide]; omega
  unfold fOfInt
  rw [hs, Int.natAbs_neg, fPack_not _ (roundMag_lt _ _)]

theorem toInt_neg_of_inNormalRange {x : Sample} (h : InNormalRange x) : (-x).toInt = -x.toInt := by
  obtain ⟨hlo, -⟩ := h
  refine BitVec.toInt_neg_of_ne_intMin fun hmin => ?_
  rw [hmin] at hlo
  exact absurd hlo (by decide)

/-! ## The input of the hyperbolic tangent is monotone in the sample -/

theorem fIsFin_fMaxMag : fIsFin fMaxMag = true := by decide

theorem fVal_fMaxMag_pos : 0 < fVal fMaxMag := by
  rw [fVal_fMaxMag]
  exact Int.mul_pos (by norm_num) fOneUnits_cast_pos

theorem fOneUnits_le_magVal_fMaxMag : fOneUnits ≤ magVal (fMag fMaxMag) := by decide +kernel

theorem fOfSample_mono {x y : Sample} (h : x.toInt ≤ y.toInt) : fLe (fOfSample x) (fOfSample y) = true := by
  refine fLe_iff.mpr ⟨fIsNaN_fOfInt _, fIsNaN_fOfInt _, ?_⟩
  rw [fVal_fOfSample, fVal_fOfSample]
  exact Int.mul_le_mul_of_nonneg_right h fOneUnits_cast_pos.le

theorem fLe_fMul {a a' b : F32} (ha : fIsFin a = true) (ha' : fIsFin a' = true) (hb : fIsFin b = true)
    (hb0 : 0 ≤ fVal b) (h : fLe a a' = true) : fLe (fMul a b) (fMul a' b) = true :=
  fLe_iff.mpr ⟨fIsNaN_fMul ha hb, fIsNaN_fMul ha' hb, fMul_mono ha ha' hb hb0 (fLe_iff.mp h).2.2⟩

/-- Both orders scale by two factors that are not negative. -/
theorem fLe_scdInput (order : Config.ScdOrder) {gain v w : F32} (hg : fIsFin gain = true)
    (hg0 : 0 ≤ fVal gain) (hv : fIsFin v = true) (hw : fIsFin w = true) (h : fLe v w = true) :
    fLe (scdInput order gain v) (scdInput order gain w) = true := by
  have hdiv : ∀ {a a' : F32}, fLe a a' = true → fLe (fDiv a fMaxMag) (fDiv a' fMaxMag) = true :=
    fLe_fDiv fIsFin_fMaxMag fVal_fMaxMag_pos
  have hfin : ∀ {a : F32}, fIsFin a = true → fIsFin (fDiv a fMaxMag) = true :=
    fun ha => fIsFin_fDiv ha fIsFin_fMaxMag fOneUnits_le_magVal_fMaxMag
  cases order with
  | gainFirst => exact hdiv (fLe_fMul hv hw hg hg0 h)
  | divideFirst => exact fLe_fMul (hfin hv) (hfin hw) hg hg0 (hdiv h)

/-! ## What an admissible hyperbolic tangent keeps (R96) -/

section
variable {tanh : F32 → F32} (ht : TanhAdmissible tanh)
include ht

theorem TanhAdmissible.zeroOrNaN {a : F32} (h : ZeroOrNaN a) : ZeroOrNaN (tanh a) := by
  rcases h with hz | hn
  · cases hs : fNeg a with
    | false =>
      have ha : a = fZero := f32_ext hs hz
      rw [ha, ht.zero]
      exact .inl (by decide)
    | true =>
      have ha : a = fMinusZero := f32_ext hs hz
      rw [ha, ht.minusZero]
      exact .inl (by decide)
  · exact .inr (ht.nan a hn)

theorem TanhAdmissible.opposed {a b : F32} (h : Opposed a b) : Opposed (tanh a) (tanh b) := by
  rcases h with rfl | ⟨ha, hb⟩
  · cases hb : fIsNaN b with
    | false => exact .inl (ht.odd b hb)
    | true => exact .inr ⟨ht.nan _ (by simpa using hb), ht.nan b hb⟩
  · exact .inr ⟨ht.nan a ha, ht.nan b hb⟩

theorem TanhAdmissible.fin {a : F32} (h : fIsNaN a = false) : fIsFin (tanh a) = true := by
  obtain ⟨hlo, hhi⟩ := ht.range a h
  exact fIsFin_of_between (by decide) (by decide) (fLe_iff.mp hlo).2.2 (fLe_iff.mp hhi).2.2

/-! ## The properties of SCD (R131) -/

theorem scdSample_zero (order : Config.ScdOrder) (gain : F32) : scdSample order tanh gain 0 = 0 := by
  have hv : ZeroOrNaN (fOfSample 0) := .inl (by decide)
  have hinput : ZeroOrNaN (scdInput order gain (fOfSample 0)) := by
    cases order with
    | gainFirst => exact zeroOrNaN_fDiv (zeroOrNaN_fMul hv gain) fIsFin_fMaxMag (by decide)
    | divideFirst => exact zeroOrNaN_fMul (zeroOrNaN_fDiv hv fIsFin_fMaxMag (by decide)) gain
  exact normalize_of_zeroOrNaN (zeroOrNaN_fMul (ht.zeroOrNaN hinput) fMaxMag)

/-- The steps after the scaling commute with negation. -/
theorem normalize_scale_tanh_of_opposed {a b : F32} (h : Opposed a b) :
    (normalize (fMul (tanh a) fMaxMag)).toInt = -(normalize (fMul (tanh b) fMaxMag)).toInt := by
  rw [toInt_normalize, toInt_normalize]
  exact ((ht.opposed h).fMul_right fMaxMag).normalizeInt_eq_neg

theorem scdSample_neg (order : Config.ScdOrder) (gain : F32) {x : Sample} (hx : InNormalRange x) :
    (scdSample order tanh gain (-x)).toInt = -(scdSample order tanh gain x).toInt := by
  by_cases h0 : x = 0
  · rw [h0, show (-0 : Sample) = 0 by decide, scdSample_zero ht]
    decide
  · have hv : fOfSample (-x) = fNegate (fOfSample x) := by
      rw [fOfSample, toInt_neg_of_inNormalRange hx]
      exact fOfInt_neg fun h => h0 (BitVec.eq_of_toInt_eq h)
    exact normalize_scale_tanh_of_opposed ht (Opposed.scdInput_sample (.inl hv) order gain)

/-- A negated gain inverts the polarity. -/
theorem scdSample_fNegate_gain (order : Config.ScdOrder) (gain : F32) (x : Sample) :
    (scdSample order tanh (fNegate gain) x).toInt = -(scdSample order tanh gain x).toInt :=
  normalize_scale_tanh_of_opposed ht (Opposed.scdInput_gain (.inl rfl) order _)

/-- The steps after the scaling are monotone. -/
theorem normalize_scale_tanh_mono {a b : F32} (h : fLe a b = true) :
    (normalize (fMul (tanh a) fMaxMag)).toInt ≤ (normalize (fMul (tanh b) fMaxMag)).toInt := by
  obtain ⟨ha, hb, -⟩ := fLe_iff.mp h
  obtain ⟨hna, hnb, hle⟩ := fLe_iff.mp
    (fLe_fMul (ht.fin ha) (ht.fin hb) fIsFin_fMaxMag fVal_fMaxMag_pos.le (ht.mono a b h))
  rw [toInt_normalize, toInt_normalize]
  exact normalizeInt_mono hna hnb hle

theorem scdSample_mono (order : Config.ScdOrder) {gain : F32} (hg : fIsFin gain = true)
    (hg0 : 0 ≤ fVal gain) {x y : Sample} (h : x.toInt ≤ y.toInt) :
    (scdSample order tanh gain x).toInt ≤ (scdSample order tanh gain y).toInt :=
  normalize_scale_tanh_mono ht
    (fLe_scdInput order hg hg0 (fIsFin_fOfSample x) (fIsFin_fOfSample y) (fOfSample_mono h))

/-- A gain of at most 0 is a negated one of at least 0. -/
theorem scdSample_anti (order : Config.ScdOrder) {gain : F32} (hg : fIsFin gain = true)
    (hg0 : fVal gain ≤ 0) {x y : Sample} (h : x.toInt ≤ y.toInt) :
    (scdSample order tanh gain y).toInt ≤ (scdSample order tanh gain x).toInt := by
  have hmono := scdSample_mono ht order (gain := fNegate gain) (by simpa using hg) (by simpa using hg0) h
  rw [scdSample_fNegate_gain ht, scdSample_fNegate_gain ht] at hmono
  exact Int.neg_le_neg_iff.mp hmono

end

/-- Settles O29: each step of SCD commutes with negation and is monotone, in both orders of the scaling and
for every admissible hyperbolic tangent. -/
theorem softClipProperties : Obligations.SoftClipProperties := by
  unfold Obligations.SoftClipProperties
  intro order
  refine ⟨fun gain x => inNormalRange_normalize _, scdSample_zero ftanh_admissible order,
    fun gain x hx => scdSample_neg ftanh_admissible order gain hx, fun gain x y hg h0 h => ?rising,
    fun gain x y hg h0 h => ?falling⟩
  case rising =>
    have hg0 : 0 ≤ fVal gain := by rw [← fVal_fZero]; exact (fLe_iff.mp h0).2.2
    exact scdSample_mono ftanh_admissible order hg hg0 h
  case falling =>
    have hg0 : fVal gain ≤ 0 := by rw [← fVal_fZero]; exact (fLe_iff.mp h0).2.2
    exact scdSample_anti ftanh_admissible order hg hg0 h

end Sys2Proof.Machine

namespace Sys2Proof.Machine

/-! ## The stages with a phase: TRM and RMD (R135, R145, R66) -/

theorem privateOf_trm (rateHz depth : F32) (s : State) (x : Sample) :
    privateOf (.trm rateHz depth) s x = { s with phT := advance s.phT s.inc } := rfl

theorem privateOf_rmd (frequencyHz : F32) (s : State) (x : Sample) :
    privateOf (.rmd frequencyHz) s x = { s with phR := advance s.phR s.inc } := rfl

/-- The phase of RMD belongs to RMD alone (R32). -/
theorem exec_trm_keeps_phR {rateHz depth : F32} {s t : State} (h : exec (.trm rateHz depth) s = .next t) :
    t.phR = s.phR := by
  obtain ⟨x, -, rfl⟩ := exec_next h
  rw [finishSample_phR, privateOf_trm]

/-- The phase of TRM belongs to TRM alone (R32). -/
theorem exec_rmd_keeps_phT {frequencyHz : F32} {s t : State} (h : exec (.rmd frequencyHz) s = .next t) :
    t.phT = s.phT := by
  obtain ⟨x, -, rfl⟩ := exec_next h
  rw [finishSample_phT, privateOf_rmd]

/-- The shaper's registers and `PREV` belong to other stages, and neither of the two draws. -/
theorem exec_phase_keeps_pinkRegs_prev_npos {i : Instr} {s t : State} {hz depth : F32}
    (hi : i = .trm hz depth ∨ i = .rmd hz) (h : exec i s = .next t) :
    t.pinkRegs = s.pinkRegs ∧ t.prev = s.prev ∧ t.npos = s.npos := by
  obtain ⟨x, -, rfl⟩ := exec_next h
  rcases hi with rfl | rfl
  · simp [privateOf_trm]
  · simp [privateOf_rmd]

/-- Settles O26: the frame of every sample step, and each of the two stages' own phase. -/
theorem frameOfPhaseStages : Obligations.FrameOfPhaseStages := by
  unfold Obligations.FrameOfPhaseStages
  intro i s t hz depth hi h
  obtain ⟨hinc, hhost, hreplies, hfree⟩ := exec_keeps_inc_and_host h
  obtain ⟨hpink, hprev, hnpos⟩ := exec_phase_keeps_pinkRegs_prev_npos hi h
  have hphT : i = .rmd hz → t.phT = s.phT := by
    rintro rfl
    exact exec_rmd_keeps_phT h
  have hphR : i = .trm hz depth → t.phR = s.phR := by
    rintro rfl
    exact exec_trm_keeps_phR h
  exact ⟨exec_keeps_registers h, ⟨hpink, hphT, hphR, hinc, hprev, hnpos, hhost, hreplies, hfree⟩,
    fun _ hj => exec_keeps_other_words h hj⟩

/-! ## The result of TRM (R135) -/

theorem exec_trm_of_read {rateHz depth : F32} {s : State} {x : Sample}
    (hx : s.buf.read s.idx.toNat = some x) :
    exec (.trm rateHz depth) s = .next (State.finishSample { s with phT := advance s.phT s.inc }
      (trmSample fsin depth s.phT x)) :=
  exec_of_read hx

/-- Settles O19: `lfo` is the model's LFO at the phase before the advance. -/
theorem trmResult : Obligations.TrmResult := by
  unfold Obligations.TrmResult
  intro rateHz depth s x lfo hx hlfo
  have hmodel : lfo = trmLfo (fsin s.phT) := hlfo
  rw [exec_trm_of_read hx, trmSample, trmFactor, ← hmodel, State.finishSample]

end Sys2Proof.Machine

namespace Sys2Proof.Machine

/-! ## The unit interval under the float operators (R136) -/

/-- No NaN, and between 0 and 1: the range of the LFO, and of a depth that does not amplify. -/
def InUnitRange (a : F32) : Prop := fLe fZero a = true ∧ fLe a fOne = true

theorem inUnitRange_iff {a : F32} :
    InUnitRange a ↔ fIsNaN a = false ∧ 0 ≤ fVal a ∧ fVal a ≤ fOneUnits := by
  have hz : fIsNaN fZero = false := by decide
  have ho : fIsNaN fOne = false := by decide
  unfold InUnitRange
  rw [fLe_iff, fLe_iff, fVal_fZero, fVal_fOne, hz, ho]
  tauto

theorem fIsFin_fOne : fIsFin fOne = true := by decide

theorem fIsFin_fZero : fIsFin fZero = true := by decide

theorem InUnitRange.fin {a : F32} (h : InUnitRange a) : fIsFin a = true := by
  obtain ⟨hlo, hhi⟩ := h
  exact fIsFin_of_between fIsFin_fZero fIsFin_fOne (fLe_iff.mp hlo).2.2 (fLe_iff.mp hhi).2.2

/-- A magnitude of at most 1 is what a factor needs not to enlarge. -/
theorem InUnitRange.magVal_le {a : F32} (h : InUnitRange a) : magVal (fMag a) ≤ fOneUnits := by
  obtain ⟨-, h0, h1⟩ := inUnitRange_iff.mp h
  exact magVal_of_bounds (by omega) h1

/-- `1 ⊖ a`: the exact difference lies between 0 and 1, which rounding keeps. -/
theorem InUnitRange.one_sub {a : F32} (h : InUnitRange a) : InUnitRange (fSub fOne a) := by
  obtain ⟨-, h0, h1⟩ := inUnitRange_iff.mp h
  refine inUnitRange_iff.mpr ⟨(fSub_fin fIsFin_fOne h.fin).1, ?lower, ?upper⟩
  case lower =>
    rw [← fVal_fZero]
    exact le_fVal_fSub fIsFin_fOne h.fin (by decide) (by rw [fVal_fZero, fVal_fOne]; omega)
  case upper =>
    rw [← fVal_fOne]
    exact fVal_fSub_le fIsFin_fOne h.fin (by decide) (by omega)

theorem fVal_fMul_nonneg {a b : F32} (ha : fIsFin a = true) (hb : fIsFin b = true) (ha0 : 0 ≤ fVal a)
    (hb0 : 0 ≤ fVal b) : 0 ≤ fVal (fMul a b) := by
  have hzero : fVal (fMul fZero b) = 0 := by
    rw [fMul_comm]
    exact fVal_eq_zero.mpr (fIsZero_iff.mp (fIsZero_fMul hb (by decide)))
  rw [← hzero]
  exact fMul_mono fIsFin_fZero ha hb hb0 (by rwa [fVal_fZero])

/-- A factor of the unit interval does not enlarge a value that is not negative. -/
theorem InUnitRange.fVal_fMul_le {a b : F32} (ha : InUnitRange a) (hb : InUnitRange b) :
    fVal (fMul a b) ≤ fVal a := by
  have hle : magVal (fMag (fMul a b)) ≤ magVal (fMag a) := magVal_fMul_le ha.fin hb.fin hb.magVal_le
  rw [← natAbs_fVal, ← natAbs_fVal] at hle
  have h0 := (inUnitRange_iff.mp ha).2.1
  omega

theorem InUnitRange.fMul {a b : F32} (ha : InUnitRange a) (hb : InUnitRange b) :
    InUnitRange (fMul a b) := by
  obtain ⟨-, ha0, ha1⟩ := inUnitRange_iff.mp ha
  obtain ⟨-, hb0, -⟩ := inUnitRange_iff.mp hb
  exact inUnitRange_iff.mpr ⟨fIsNaN_fMul ha.fin hb.fin, fVal_fMul_nonneg ha.fin hb.fin ha0 hb0,
    (ha.fVal_fMul_le hb).trans ha1⟩

/-- Subtracting less leaves no less, after rounding too. -/
theorem fLe_fSub_left {a b c : F32} (ha : fIsFin a = true) (hb : fIsFin b = true) (hc : fIsFin c = true)
    (h : fVal c ≤ fVal b) : fLe (fSub a b) (fSub a c) = true := by
  obtain ⟨hnb, hvb⟩ := fSub_fin ha hb
  obtain ⟨hnc, hvc⟩ := fSub_fin ha hc
  refine fLe_iff.mpr ⟨hnb, hnc, ?_⟩
  rw [hvb, hvc]
  exact roundUnits_mono (by omega)

/-! ## The LFO and the factor of TRM (R135, R136) -/

/-- 2.0, the greatest sum of a sine and 1. -/
def fTwo : F32 := 0x40000000

theorem fVal_fTwo : fVal fTwo = 2 * fOneUnits := by decide +kernel

theorem fVal_fMul_fTwo_fHalf : fVal (fMul fTwo fHalf) = fOneUnits := by decide +kernel

theorem fVal_fHalf_nonneg : 0 ≤ fVal fHalf := by decide +kernel

/-- The sum of a sine and 1 lies in [0, 2], and half of it in [0, 1]. -/
theorem inUnitRange_trmLfo {s : F32} (hlo : fLe fMinusOne s = true) (hhi : fLe s fOne = true) :
    InUnitRange (trmLfo s) := by
  obtain ⟨-, -, h1⟩ := fLe_iff.mp hlo
  obtain ⟨-, -, h2⟩ := fLe_iff.mp hhi
  have hs : fIsFin s = true := fIsFin_of_between (by decide) fIsFin_fOne h1 h2
  rw [fVal_fMinusOne] at h1
  rw [fVal_fOne] at h2
  have hsum0 : fVal fZero ≤ fVal (fAdd s fOne) :=
    le_fVal_fAdd hs fIsFin_fOne (by decide) (by rw [fVal_fZero, fVal_fOne]; omega)
  have hsum2 : fVal (fAdd s fOne) ≤ fVal fTwo :=
    fVal_fAdd_le hs fIsFin_fOne (by decide) (by rw [fVal_fTwo, fVal_fOne]; omega)
  have hsum : fIsFin (fAdd s fOne) = true := fIsFin_of_between fIsFin_fZero (by decide) hsum0 hsum2
  rw [fVal_fZero] at hsum0
  refine inUnitRange_iff.mpr ⟨fIsNaN_fMul hsum (by decide), ?lower, ?upper⟩
  case lower => exact fVal_fMul_nonneg hsum (by decide) hsum0 fVal_fHalf_nonneg
  case upper =>
    rw [← fVal_fMul_fTwo_fHalf]
    exact fMul_mono hsum (by decide) (by decide) fVal_fHalf_nonneg hsum2

theorem inUnitRange_trmLfo_fsin {ph : F32} (h : fIsFin ph = true) : InUnitRange (trmLfo (fsin ph)) := by
  obtain ⟨-, hlo, hhi⟩ := fsin_admissible.finite ph h
  exact inUnitRange_trmLfo hlo hhi

theorem inUnitRange_trmFactor {depth s : F32} (hd : InUnitRange depth) (hs : InUnitRange (trmLfo s)) :
    InUnitRange (trmFactor depth s) :=
  (hd.fMul hs.one_sub).one_sub

theorem fLe_one_sub_depth_trmFactor {depth s : F32} (hd : InUnitRange depth)
    (hs : InUnitRange (trmLfo s)) : fLe (fSub fOne depth) (trmFactor depth s) = true :=
  fLe_fSub_left fIsFin_fOne hd.fin (hd.fMul hs.one_sub).fin (hd.fVal_fMul_le hs.one_sub)

/-! ## The output of TRM (R136) -/

theorem magVal_fOfSample (x : Sample) : magVal (fMag (fOfSample x)) = x.toInt.natAbs * fOneUnits := by
  rw [← natAbs_fVal, fVal_fOfSample, Int.natAbs_mul, Int.natAbs_natCast]

/-- A factor of magnitude at most 1 does not enlarge a Sample. -/
theorem abs_toInt_normalize_fMul_fOfSample_le (x : Sample) {m : F32} (hm : fIsFin m = true)
    (h1 : magVal (fMag m) ≤ fOneUnits) :
    |(normalize (fMul (fOfSample x) m)).toInt| ≤ |x.toInt| := by
  have hle := magVal_fMul_le (fIsFin_fOfSample x) hm h1
  rw [magVal_fOfSample] at hle
  rw [toInt_normalize, Int.abs_eq_natAbs x.toInt]
  exact normalizeInt_abs_le hle

theorem trmSample_zero (sin : F32 → F32) (depth ph : F32) : trmSample sin depth ph 0 = 0 :=
  normalize_of_zeroOrNaN (zeroOrNaN_fMul (.inl (by decide)) _)

/-- Settles O30: the LFO, a depth that does not amplify, and so the factor lie in the unit interval. -/
theorem tremoloProperties : Obligations.TremoloProperties := by
  unfold Obligations.TremoloProperties
  intro ph hph
  have hlfo := inUnitRange_trmLfo_fsin hph
  refine ⟨hlfo, fun depth h0 h1 => ?depth, fun depth x => inNormalRange_normalize _,
    fun depth => trmSample_zero fsin depth ph⟩
  case depth =>
    have hd : InUnitRange depth := ⟨h0, h1⟩
    have hm := inUnitRange_trmFactor hd hlfo
    exact ⟨fLe_one_sub_depth_trmFactor hd hlfo, hm.2,
      fun x => abs_toInt_normalize_fMul_fOfSample_le x hm.fin hm.magVal_le⟩

/-! ## Depth zero (R135 corner case a) -/

/-- A value other than 0 has one pattern. -/
theorem eq_of_fVal_eq_of_pos {a b : F32} (h : fVal a = fVal b) (hb : 0 < fVal b) : a = b := by
  have ha : 0 < fVal a := by rwa [h]
  have hm : magVal (fMag a) = magVal (fMag b) := by rw [← natAbs_fVal, ← natAbs_fVal, h]
  exact f32_ext ((fNeg_of_fVal_pos ha).trans (fNeg_of_fVal_pos hb).symm) (magVal_strictMono.injective hm)

theorem fVal_fOne_pos : 0 < fVal fOne := by
  rw [fVal_fOne]
  exact fOneUnits_cast_pos

/-- Multiplying by 1 needs no rounding. -/
theorem fMul_fOne {a : F32} (h : fIsFin a = true) : fMul a fOne = a := by
  have hone : magVal (fMag fOne) = fOneUnits := by decide +kernel
  rw [fMul_fin h fIsFin_fOne, hone, roundMag_exact _ fOneUnits_pos,
    min_eq_right (fIsFin_iff.mp h).le, fNeg_of_fVal_pos fVal_fOne_pos, Bool.bne_false, fPack_self]

/-- Subtracting either zero from 1 leaves 1. -/
theorem fSub_fOne_of_zero {z : F32} (h : fIsZero z = true) : fSub fOne z = fOne := by
  refine eq_of_fVal_eq_of_pos ?_ fVal_fOne_pos
  rw [(fSub_fin fIsFin_fOne (fIsFin_of_zero h)).2, fVal_eq_zero.mpr (fIsZero_iff.mp h), Int.sub_zero,
    roundUnits_fVal (by decide)]

theorem trmFactor_of_depth_zero {depth s : F32} (hd : fIsZero depth = true)
    (hs : InUnitRange (trmLfo s)) : trmFactor depth s = fOne := by
  have hz : fIsZero (fMul depth (fSub fOne (trmLfo s))) = true := by
    rw [fMul_comm]
    exact fIsZero_fMul hs.one_sub.fin hd
  exact fSub_fOne_of_zero hz

/-- With depth zero TRM is `normalize`, which clamps at -32767. -/
theorem toInt_trmSample_of_depth_zero {depth ph : F32} (hd : fIsZero depth = true)
    (hph : fIsFin ph = true) (x : Sample) :
    (trmSample fsin depth ph x).toInt = clamp x.toInt (-32767) 32767 := by
  rw [trmSample, trmFactor_of_depth_zero hd (inUnitRange_trmLfo_fsin hph), fMul_fOne (fIsFin_fOfSample x),
    toInt_normalize]
  exact normalizeInt_fOfInt (natAbs_toInt_sample_le x)

/-- Settles O31: the factor is 1, so the output is the sample clamped to [-32767, 32767]. -/
theorem tremoloDepthZeroIsIdentity : Obligations.TremoloDepthZeroIsIdentity := by
  unfold Obligations.TremoloDepthZeroIsIdentity
  intro depth ph x hd hph
  have hclamp := toInt_trmSample_of_depth_zero hd hph x
  refine ⟨fun hx => BitVec.eq_of_toInt_eq ?inside, fun hx => ?lowest⟩
  case inside =>
    obtain ⟨hlo, hhi⟩ := hx
    rw [hclamp, clamp, if_neg (by omega), if_neg (by omega)]
  case lowest =>
    rw [hclamp, hx]
    decide

end Sys2Proof.Machine

namespace Sys2Proof.Machine

/-! ## The telephone stage: what it leaves unchanged, and its result (R140, R66) -/

theorem privateOf_tel (alpha : F32) (s : State) (x : Sample) :
    privateOf (.tel alpha) s x = { s with prev := fOfSample x } := rfl

/-- The shaper's registers and the phases belong to other stages, and TEL does not draw. -/
theorem exec_tel_keeps_pinkRegs_phases_npos {alpha : F32} {s t : State}
    (h : exec (.tel alpha) s = .next t) :
    t.pinkRegs = s.pinkRegs ∧ t.phT = s.phT ∧ t.phR = s.phR ∧ t.npos = s.npos := by
  obtain ⟨x, -, rfl⟩ := exec_next h
  simp [privateOf_tel]

/-- Settles O27: the frame of every sample step, and `PREV` as TEL's one private register. -/
theorem frameOfTelephone : Obligations.FrameOfTelephone := by
  unfold Obligations.FrameOfTelephone
  intro alpha s t h
  obtain ⟨hinc, hhost, hreplies, hfree⟩ := exec_keeps_inc_and_host h
  obtain ⟨hpink, hphT, hphR, hnpos⟩ := exec_tel_keeps_pinkRegs_phases_npos h
  exact ⟨exec_keeps_registers h, ⟨hpink, hphT, hphR, hinc, hnpos, hhost, hreplies, hfree⟩,
    fun _ hj => exec_keeps_other_words h hj⟩

theorem exec_tel_of_read {alpha : F32} {s : State} {x : Sample} (hx : s.buf.read s.idx.toNat = some x) :
    exec (.tel alpha) s = .next (State.finishSample { s with prev := fOfSample x }
      (telSample alpha s.prev x)) :=
  exec_of_read hx

/-- Settles O20: the filter reads the old `PREV`, which the unfiltered sample then replaces. -/
theorem telResult : Obligations.TelResult := by
  unfold Obligations.TelResult
  intro alpha s x hx
  rw [exec_tel_of_read hx, telSample, fTelBoost, State.finishSample]

/-! ## Properties of the telephone filter (R140 corner case f, R141) -/

/-- A value other than 0, of either sign, has one pattern. -/
theorem eq_of_fVal_eq_of_ne_zero {a b : F32} (h : fVal a = fVal b) (hb : fVal b ≠ 0) : a = b := by
  rcases hb.lt_or_gt with hneg | hpos
  · have hn : fNegate a = fNegate b :=
      eq_of_fVal_eq_of_pos (by rw [fVal_fNegate, fVal_fNegate, h]) (by rw [fVal_fNegate]; omega)
    rw [← fNegate_fNegate a, hn, fNegate_fNegate]
  · exact eq_of_fVal_eq_of_pos h hpos

/-- Subtracting either zero leaves a value other than 0 as it is. -/
theorem fSub_of_zero {a z : F32} (ha : fIsFin a = true) (h0 : fVal a ≠ 0) (hz : fIsZero z = true) :
    fSub a z = a := by
  refine eq_of_fVal_eq_of_ne_zero ?_ h0
  rw [(fSub_fin ha (fIsFin_of_zero hz)).2, fVal_eq_zero.mpr (fIsZero_iff.mp hz), Int.sub_zero,
    roundUnits_fVal (fIsNaN_of_fin ha)]

theorem fVal_fOfSample_ne_zero {x : Sample} (h : x ≠ 0) : fVal (fOfSample x) ≠ 0 := by
  rw [fVal_fOfSample]
  exact mul_ne_zero (fun hx => h (BitVec.eq_of_toInt_eq hx)) fOneUnits_cast_pos.ne'

theorem zeroOrNaN_fOfSample_zero : ZeroOrNaN (fOfSample 0) := .inl (by decide)

/-- A zero sample after a zero one: `alpha` can only make a zero or, if not finite, a NaN of the zero. -/
theorem telSample_zero_of_prev {prev : F32} (hp : ZeroOrNaN prev) (alpha : F32) :
    telSample alpha prev 0 = 0 :=
  normalize_of_zeroOrNaN
    (zeroOrNaN_fMul (zeroOrNaN_fSub zeroOrNaN_fOfSample_zero (zeroOrNaN_fMul_right hp alpha)) fTelBoost)

/-- The first sample of a stage is boosted and not filtered. A zero sample is apart: the difference of two
zeros is a zero, whichever its sign. -/
theorem telSample_of_prev_zero {alpha prev : F32} (ha : fIsFin alpha = true) (hp : fIsZero prev = true)
    (x : Sample) : telSample alpha prev x = normalize (fMul (fOfSample x) fTelBoost) := by
  by_cases hx : x = 0
  · rw [hx, telSample_zero_of_prev (zeroOrNaN_of_zero hp),
      normalize_of_zeroOrNaN (zeroOrNaN_fMul zeroOrNaN_fOfSample_zero fTelBoost)]
  · rw [telSample, fSub_of_zero (fIsFin_fOfSample x) (fVal_fOfSample_ne_zero hx) (fIsZero_fMul ha hp)]

/-- Settles O32: the result is one of `normalize`, and a zero `PREV` takes nothing from the sample. -/
theorem telephoneProperties : Obligations.TelephoneProperties := by
  unfold Obligations.TelephoneProperties
  exact ⟨fun _ _ _ => inNormalRange_normalize _, fun _ x ha => telSample_of_prev_zero ha (by decide) x,
    fun alpha => telSample_zero_of_prev zeroOrNaN_fOfSample_zero alpha⟩

end Sys2Proof.Machine

namespace Sys2Proof.Machine

/-! ## The result of RMD (R145) -/

theorem exec_rmd_of_read {frequencyHz : F32} {s : State} {x : Sample}
    (hx : s.buf.read s.idx.toNat = some x) :
    exec (.rmd frequencyHz) s = .next (State.finishSample { s with phR := advance s.phR s.inc }
      (rmdSample fsin s.phR x)) :=
  exec_of_read hx

/-- Settles O21: the sine is taken at the phase before the advance. -/
theorem rmdResult : Obligations.RmdResult := by
  unfold Obligations.RmdResult
  intro frequencyHz s x hx
  rw [exec_rmd_of_read hx, rmdSample, State.finishSample]

/-! ## Properties of the ring modulator (R146) -/

/-- The sine of a finite phase has magnitude at most 1. -/
theorem magVal_fsin_le {ph : F32} (h : fIsFin ph = true) : magVal (fMag (fsin ph)) ≤ fOneUnits := by
  obtain ⟨-, hlo, hhi⟩ := fsin_admissible.finite ph h
  have h1 := (fLe_iff.mp hlo).2.2
  have h2 := (fLe_iff.mp hhi).2.2
  rw [fVal_fMinusOne] at h1
  rw [fVal_fOne] at h2
  exact magVal_of_bounds h1 h2

theorem fIsFin_fsin {ph : F32} (h : fIsFin ph = true) : fIsFin (fsin ph) = true :=
  (fsin_admissible.finite ph h).1

/-- The sine is 0 at the phase a stage begins with. -/
theorem rmdSample_phase_zero (x : Sample) : rmdSample fsin fZero x = 0 := by
  have hsin : ZeroOrNaN (fsin fZero) := by
    rw [fsin_admissible.zero]
    exact zeroOrNaN_of_zero (by decide)
  exact normalize_of_zeroOrNaN (zeroOrNaN_fMul_right hsin (fOfSample x))

/-- A zero sample stays zero at every phase: a sine that is no finite value makes a NaN of it, which
`normalize` sends to 0. -/
theorem rmdSample_zero (sin : F32 → F32) (ph : F32) : rmdSample sin ph 0 = 0 :=
  normalize_of_zeroOrNaN (zeroOrNaN_fMul zeroOrNaN_fOfSample_zero (sin ph))

/-- Settles O33: the sine at +0.0 is 0, and at every finite phase it is a factor of magnitude at most 1. -/
theorem ringModulatorProperties : Obligations.RingModulatorProperties := by
  unfold Obligations.RingModulatorProperties
  exact ⟨rmdSample_phase_zero, fun _ _ => inNormalRange_normalize _,
    fun _ x hph => abs_toInt_normalize_fMul_fOfSample_le x (fIsFin_fsin hph) (magVal_fsin_le hph),
    rmdSample_zero fsin⟩

end Sys2Proof.Machine

namespace Sys2Proof.Machine

/-! ## The result of BCR (R150) -/

theorem exec_bcr_of_read {bits : BitVec 32} {s : State} {x : Sample}
    (hx : s.buf.read s.idx.toNat = some x) :
    exec (.bcr bits) s = .next (s.finishSample (bcrSample bits x)) :=
  exec_of_read hx

/-- Settles O22: `step` and `q` are the model's step and quantized sample. -/
theorem bcrResult : Obligations.BcrResult := by
  unfold Obligations.BcrResult
  intro bits s x step q hx hstep hq
  have hstep' : step = bcrStep bits := hstep
  have hq' : q = bcrQuantize bits (wideOf x) := by rw [hq, hstep', bcrQuantize, tdiv, wideOf]
  rw [exec_bcr_of_read hx, bcrSample, ← hq', clamp, int16, State.finishSample]

/-! ## The step of the quantizer (R109, R150) -/

theorem bcrStep_pos (bits : BitVec 32) : 0 < bcrStep bits := Int.pow_pos (by decide)

/-- With no fraction to drop the step is 1 (R150 corner cases c and h). -/
theorem bcrStep_of_ge_16 {bits : BitVec 32} (h : 16 ≤ bits.toNat) : bcrStep bits = 1 := by
  have hshift : bcrShift bits = 0 := by unfold bcrShift; omega
  rw [bcrStep, hshift, pow_zero]

/-- The lowest Sample is a multiple of every step but the one of no bits (R150 corner case a). -/
theorem bcrStep_dvd_lowest {bits : BitVec 32} (h : 1 ≤ bits.toNat) : bcrStep bits ∣ -32768 := by
  have hshift : bcrShift bits ≤ 15 := by unfold bcrShift; omega
  have hpow : bcrStep bits ∣ 2 ^ 15 := pow_dvd_pow 2 hshift
  exact Int.dvd_neg.mpr hpow

/-! ## The quantizer on integers (R150, R151) -/

section
variable (bits : BitVec 32) (w : Int)

theorem bcrStep_dvd_bcrQuantize : bcrStep bits ∣ bcrQuantize bits w := Int.dvd_mul_left _ _

/-- Truncation toward zero treats the two signs alike. -/
theorem bcrQuantize_neg : bcrQuantize bits (-w) = -bcrQuantize bits w := by
  rw [bcrQuantize, tdiv, Int.neg_tdiv, Int.neg_mul, bcrQuantize, tdiv]

/-- What the quantizer drops is the remainder of the truncating division. -/
theorem sub_bcrQuantize : w - bcrQuantize bits w = w.tmod (bcrStep bits) := by
  have h := Int.tdiv_mul_add_tmod w (bcrStep bits)
  rw [bcrQuantize, tdiv]
  omega

theorem abs_sub_bcrQuantize_lt : |w - bcrQuantize bits w| < bcrStep bits := by
  rw [sub_bcrQuantize]
  exact abs_lt.mpr ⟨Int.lt_tmod_of_pos w (bcrStep_pos bits), Int.tmod_lt_of_pos w (bcrStep_pos bits)⟩

theorem bcrQuantize_eq_self_iff : bcrQuantize bits w = w ↔ bcrStep bits ∣ w := by
  rw [Int.dvd_iff_tmod_eq_zero, ← sub_bcrQuantize, sub_eq_zero, eq_comm]

theorem bcrQuantize_of_nonneg (h : 0 ≤ w) : 0 ≤ bcrQuantize bits w ∧ bcrQuantize bits w ≤ w := by
  refine ⟨Int.mul_nonneg (Int.tdiv_nonneg h (bcrStep_pos bits).le) (bcrStep_pos bits).le, ?_⟩
  rw [bcrQuantize, tdiv, Int.mul_comm]
  exact Int.mul_tdiv_self_le h

theorem bcrQuantize_of_nonpos (h : w ≤ 0) : w ≤ bcrQuantize bits w ∧ bcrQuantize bits w ≤ 0 := by
  have hneg := bcrQuantize_of_nonneg bits (-w) (Int.neg_nonneg_of_nonpos h)
  rw [bcrQuantize_neg] at hneg
  omega

theorem abs_bcrQuantize_le : |bcrQuantize bits w| ≤ |w| := by
  rcases Int.le_total 0 w with h | h
  · obtain ⟨h0, hle⟩ := bcrQuantize_of_nonneg bits w h
    rwa [abs_of_nonneg h0, abs_of_nonneg h]
  · obtain ⟨hle, h0⟩ := bcrQuantize_of_nonpos bits w h
    rw [abs_of_nonpos h0, abs_of_nonpos h]
    exact Int.neg_le_neg hle

/-- A multiple of the step smaller than the step is 0. -/
theorem bcrQuantize_eq_zero (h : |w| < bcrStep bits) : bcrQuantize bits w = 0 :=
  Int.eq_zero_of_abs_lt_dvd (bcrStep_dvd_bcrQuantize bits w) ((abs_bcrQuantize_le bits w).trans_lt h)

end

/-! ## The quantizer on Samples (R150, R151) -/

theorem toInt_sample_bounds (x : Sample) : -32768 ≤ x.toInt ∧ x.toInt ≤ 32767 :=
  ⟨x.le_toInt, x.toInt_le⟩

/-- The clamp never changes the quantized sample, which lies between the sample and 0 (R150 corner case b),
so storing it loses nothing. -/
theorem toInt_bcrSample (bits : BitVec 32) (x : Sample) :
    (bcrSample bits x).toInt = bcrQuantize bits x.toInt := by
  obtain ⟨hlo, hhi⟩ := toInt_sample_bounds x
  have hq : -32768 ≤ bcrQuantize bits x.toInt ∧ bcrQuantize bits x.toInt ≤ 32767 := by
    rcases Int.le_total 0 x.toInt with h | h
    · have := bcrQuantize_of_nonneg bits x.toInt h; omega
    · have := bcrQuantize_of_nonpos bits x.toInt h; omega
  rw [bcrSample, wideOf, clamp, if_neg (by omega), if_neg (by omega), int16]
  exact BitVec.toInt_ofInt_eq_self (by norm_num) hq.1 (Int.lt_add_one_of_le hq.2)

theorem bcrSample_eq_self_iff (bits : BitVec 32) (x : Sample) :
    bcrSample bits x = x ↔ bcrStep bits ∣ x.toInt := by
  rw [← BitVec.toInt_inj, toInt_bcrSample, bcrQuantize_eq_self_iff]

/-- The result is a multiple of the step already. -/
theorem bcrSample_idem (bits : BitVec 32) (x : Sample) :
    bcrSample bits (bcrSample bits x) = bcrSample bits x := by
  rw [bcrSample_eq_self_iff, toInt_bcrSample]
  exact bcrStep_dvd_bcrQuantize bits x.toInt

theorem bcrSample_lowest {bits : BitVec 32} {x : Sample} (hx : x.toInt = -32768) (h : 1 ≤ bits.toNat) :
    bcrSample bits x = x := by
  rw [bcrSample_eq_self_iff, hx]
  exact bcrStep_dvd_lowest h

theorem inNormalRange_bcrSample (bits : BitVec 32) {x : Sample} (hx : InNormalRange x) :
    InNormalRange (bcrSample bits x) := by
  unfold InNormalRange
  rw [toInt_bcrSample]
  exact abs_le.mp ((abs_bcrQuantize_le bits x.toInt).trans (abs_le.mpr hx))

theorem bcrSample_neg (bits : BitVec 32) {x : Sample} (hx : InNormalRange x) :
    bcrSample bits (-x) = -bcrSample bits x := by
  rw [← BitVec.toInt_inj, toInt_neg_of_inNormalRange (inNormalRange_bcrSample bits hx), toInt_bcrSample,
    toInt_bcrSample, toInt_neg_of_inNormalRange hx, bcrQuantize_neg]

theorem toInt_bcrSample_eq_zero {bits : BitVec 32} {x : Sample} (h : |x.toInt| < bcrStep bits) :
    (bcrSample bits x).toInt = 0 := by
  rw [toInt_bcrSample, bcrQuantize_eq_zero bits x.toInt h]

/-- Settles O34: the sample's integer result is the quantized integer, which is the sample's nearest
multiple of the step on the side of 0. -/
theorem bitCrusherProperties : Obligations.BitCrusherProperties := by
  unfold Obligations.BitCrusherProperties
  intro bits x
  refine ⟨?multiple, ?magnitude, ?nonneg, ?nonpos, ?near, bcrSample_eq_self_iff bits x, bcrSample_idem bits x,
    fun hx => ⟨bcrSample_neg bits hx, inNormalRange_bcrSample bits hx⟩, bcrSample_lowest⟩
  all_goals rw [toInt_bcrSample]
  case multiple => exact bcrStep_dvd_bcrQuantize bits x.toInt
  case magnitude => exact abs_bcrQuantize_le bits x.toInt
  case nonneg => exact fun h => (bcrQuantize_of_nonneg bits x.toInt h).1
  case nonpos => exact fun h => (bcrQuantize_of_nonpos bits x.toInt h).2
  case near => exact abs_sub_bcrQuantize_lt bits x.toInt

/-! ## The extreme bit depths (R150 corner cases c, d, e) -/

theorem bcrSample_of_ge_16 {bits : BitVec 32} (h : 16 ≤ bits.toNat) (x : Sample) : bcrSample bits x = x := by
  rw [bcrSample_eq_self_iff, bcrStep_of_ge_16 h]
  exact Int.one_dvd _

/-- The step of one bit is 32768, above every magnitude but that of the lowest Sample. -/
theorem toInt_bcrSample_one (x : Sample) :
    (bcrSample 1 x).toInt = if x.toInt = -32768 then -32768 else 0 := by
  split
  case isTrue hx => rw [bcrSample_lowest hx (by decide), hx]
  case isFalse hx =>
    obtain ⟨hlo, hhi⟩ := toInt_sample_bounds x
    have hstep : bcrStep 1 = 32768 := by decide
    refine toInt_bcrSample_eq_zero (abs_lt.mpr ?_)
    rw [hstep]
    omega

/-- The step of no bits is 65536, above the magnitude of every Sample. -/
theorem bcrSample_zero_bits (x : Sample) : bcrSample 0 x = 0 := by
  obtain ⟨hlo, hhi⟩ := toInt_sample_bounds x
  have hstep : bcrStep 0 = 65536 := by decide
  refine BitVec.eq_of_toInt_eq (toInt_bcrSample_eq_zero (abs_lt.mpr ?_))
  rw [hstep]
  omega

/-- Settles O35: a step of 1, a step that only -32768 reaches, and a step that no Sample reaches. -/
theorem bitCrusherExtremes : Obligations.BitCrusherExtremes := by
  unfold Obligations.BitCrusherExtremes
  exact ⟨fun _ x h => bcrSample_of_ge_16 h x, toInt_bcrSample_one, bcrSample_zero_bits⟩

end Sys2Proof.Machine

namespace Sys2Proof.Machine

/-! ## The turn of the sequencer (R163, R165, R201) -/

/-- A host list that makes no move gives the turn to the sequencer (R15). -/
theorem step_noMove {s : State} {rest : List HostMove} (h : s.host = .noMove :: rest) :
    step s = sequencerStep { s with host := rest } := step_move h

/-- Settles O36: with or without a `noMove` on the list the turn is the sequencer's, whose sample step runs the
operation of the slot. -/
theorem stepRunsTheDecodedOperation : Obligations.StepRunsTheDecodedOperation := by
  unfold Obligations.StepRunsTheDecodedOperation
  intro s d i hb hlt hd hi
  refine ⟨fun hq => ?_, fun rest hm => ?_⟩
  · rw [step_quiet hq, sequencerStep_sample hb hlt hd hi]
  · rw [step_noMove hm, sequencerStep_sample (s := { s with host := rest }) hb hlt hd hi]

/-- Settles O38: the turn is the sequencer's, which waits outside BUSY. -/
theorem nothingHappensOutsideBusy : Obligations.NothingHappensOutsideBusy := by
  unfold Obligations.NothingHappensOutsideBusy
  intro s hq hb
  rw [step_quiet hq, sequencerStep_waits hb]

/-- Settles O46: the block's fields are those of the reset state, whose program is the encoded default chain. -/
theorem resetFromEveryState : Obligations.ResetFromEveryState := by
  unfold Obligations.ResetFromEveryState
  intro s rest hm
  refine ⟨hostReset { s with host := rest }, step_move hm, ?_, ?_, Memory.read_nil, rfl⟩
  · exact ⟨rfl, rfl, rfl, rfl, rfl, rfl, rfl, rfl, rfl, rfl⟩
  · exact ⟨rfl, rfl, rfl, rfl, rfl⟩

/-! ## The host's moves while BUSY and in ERR (R184, R210) -/

/-- A read of the buffer stays within the host agent's own fields. -/
theorem hostBufRead_frame (capacity i : Nat) (s : State) :
    hostBufRead capacity i s = { s with
      replies := (hostBufRead capacity i s).replies
      freeCount := (hostBufRead capacity i s).freeCount } := by
  cases hx : hostBufValue capacity i s with
  | some x => rw [hostBufRead_of_value hx]
  | none => rw [hostBufRead_of_none hx]

/-- A write of the buffer stays within `BUF`. -/
theorem hostBufWrite_frame (capacity i : Nat) (v : Sample) (s : State) :
    hostBufWrite capacity i v s = { s with buf := (hostBufWrite capacity i v s).buf } := by
  by_cases hb : s.state = .busy
  · rw [hostBufWrite_busy hb]
  by_cases hi : i < capacity
  · rw [hostBufWrite_of_lt hb hi]
  · rw [hostBufWrite_of_ge (Nat.not_lt.mp hi)]

theorem hostRegWrite_busy {n : Nat} {v : BitVec 72} {s : State} (hb : s.state = .busy) :
    hostRegWrite n v s = .next s := if_pos hb

/-- Settles O42: a write is ignored while BUSY, and a read answers within the host agent's fields. -/
theorem hostMovesWhileBusyChangeNothing : Obligations.HostMovesWhileBusyChangeNothing := by
  unfold Obligations.HostMovesWhileBusyChangeNothing
  intro s m rest hb hm hturn hreset
  rw [step_move hm]
  have hb' : { s with host := rest }.state = .busy := hb
  cases m with
  | noMove => exact absurd rfl hturn
  | regWrite n v => exact ⟨_, hostRegWrite_busy hb', rfl⟩
  | regRead n => exact ⟨_, rfl, rfl⟩
  | bufWrite i v => exact ⟨_, congrArg Host.Outcome.next (hostBufWrite_busy hb'), rfl⟩
  | bufRead i => exact ⟨_, rfl, hostBufRead_frame Config.nmax i { s with host := rest }⟩
  | reset => exact absurd rfl hreset

/-- In ERR a register write starts nothing and leaves `STATUS` (R160, R184). -/
theorem hostRegWrite_err {n : Nat} {v : BitVec 72} {s : State} (he : s.state = .err) :
    hostRegWrite n v s = .next s ∨ hostRegWrite n v s = .next (regUpdate n v s) := by
  rcases hostRegWrite_cases n v s with h | h | ⟨-, h⟩
  · exact .inl h
  · exact .inl (h.trans (startRequest_ignored (.inr he)))
  · exact .inr h

/-- In ERR a move of the host other than Reset answers a state with the same `STATUS` fields. -/
theorem hostMove_err {m : HostMove} {s : State} (he : s.state = .err) (hm : m ≠ .reset) :
    ∃ t, hostMove m s = .next t ∧ t.state = .err ∧ t.ecode = s.ecode ∧ t.eslot = s.eslot := by
  cases m with
  | noMove => exact ⟨s, sequencerStep_waits (by rw [he]; decide), he, rfl, rfl⟩
  | regWrite n v =>
    rcases hostRegWrite_err (n := n) (v := v) he with h | h
    · exact ⟨s, h, he, rfl, rfl⟩
    · refine ⟨_, h, ?_⟩
      rw [regUpdate_frame]
      exact ⟨he, rfl, rfl⟩
  | regRead n => exact ⟨_, rfl, he, rfl, rfl⟩
  | bufWrite i v =>
    refine ⟨_, rfl, ?_⟩
    rw [hostBufWrite_frame]
    exact ⟨he, rfl, rfl⟩
  | bufRead i =>
    refine ⟨_, rfl, ?_⟩
    rw [hostBufRead_frame]
    exact ⟨he, rfl, rfl⟩
  | reset => exact absurd rfl hm

/-- Settles O41: a turn of the sequencer waits in ERR, and no move but Reset touches `STATUS`. -/
theorem errIsStickyUntilReset : Obligations.ErrIsStickyUntilReset := by
  unfold Obligations.ErrIsStickyUntilReset
  intro s he hreset
  rcases step_cases s with ⟨-, hstep⟩ | ⟨m, rest, hm, hstep⟩ <;> rw [hstep]
  · exact ⟨s, sequencerStep_waits (by rw [he]; decide), he, rfl, rfl⟩
  · refine hostMove_err (s := { s with host := rest }) he ?_
    rintro rfl
    exact hreset rest hm

/-! ## Stage entry, operation by operation (R162) -/

/-- What entering a stage leaves of `s`, written out for the seven operations. -/
theorem stageEntry_written_out {d : Descr} {o : Outcome} {s : State}
    (h : ∀ i, decode d = .legal i → o = .next (stageEntry i s)) :
    (∀ level, decode d = .legal (.awn level) → o = .next s) ∧
    (∀ level, decode d = .legal (.apn level) →
      o = .next { s with pinkRegs := ⟨0, 0, 0, 0, 0, 0, 0⟩ }) ∧
    (∀ gain, decode d = .legal (.scd gain) → o = .next s) ∧
    (∀ rateHz depth, decode d = .legal (.trm rateHz depth) →
      o = .next { s with phT := 0, inc := fDiv (fMul fTwoPi rateHz) (fOfInt s.srate.toNat) }) ∧
    (∀ alpha, decode d = .legal (.tel alpha) → o = .next { s with prev := 0 }) ∧
    (∀ frequencyHz, decode d = .legal (.rmd frequencyHz) →
      o = .next { s with phR := 0, inc := fDiv (fMul fTwoPi frequencyHz) (fOfInt s.srate.toNat) }) ∧
    (∀ bits, decode d = .legal (.bcr bits) → o = .next s) :=
  ⟨fun _ => h _, fun _ => h _, fun _ => h _, fun _ _ => h _, fun _ => h _, fun _ => h _, fun _ => h _⟩

/-- Settles O37: the stage end is `enter` of the next slot, which ends the run past the last one and otherwise
constructs the operation's private state. -/
theorem stageEndEntersTheNextSlot : Obligations.StageEndEntersTheNextSlot := by
  unfold Obligations.StageEndEntersTheNextSlot
  intro s hq hb hidx
  have hstep : step s = enter (s.sp.toNat + 1) s := by
    rw [step_quiet hq, sequencerStep_stageEnd hb hidx]
  have hsp : BitVec.ofNat 3 (s.sp.toNat + 1) = s.sp + 1 := by
    rw [BitVec.ofNat_add, BitVec.ofNat_toNat, BitVec.setWidth_eq]
    rfl
  refine ⟨fun hend => hstep.trans (enter_end hend), fun d hne hd => ?_⟩
  have hentry : ∀ i, decode d = .legal i →
      step s = .next (stageEntry i { s with sp := s.sp + 1, idx := 0 }) := by
    intro i hi
    rw [hstep, enter_slot hne hd hi, hsp]
  exact stageEntry_written_out hentry

/-! ## Validation (R161, R182) -/

/-- The first illegal descriptor of a list, counted from slot `k`, is the one all before which are legal. -/
theorem firstIllegal_of_first {ds : List Descr} {j k : Nat} {d : Descr} {why : IllegalKind}
    (hd : ds[j]? = some d) (hw : decode d = .illegal why)
    (hbefore : ∀ l e, l < j → ds[l]? = some e → ∃ i, decode e = .legal i) :
    firstIllegal ds k = some (illegalCode why, BitVec.ofNat 3 (k + j)) := by
  induction ds generalizing j k with
  | nil => cases hd
  | cons e ds ih =>
    unfold firstIllegal
    cases j with
    | zero =>
      obtain rfl : e = d := by simpa using hd
      simp only [hw, Nat.add_zero]
    | succ j =>
      obtain ⟨i, hi⟩ := hbefore 0 e (Nat.succ_pos j) rfl
      simp only [hi]
      rw [ih (j := j) (by simpa using hd) fun l f hl hf =>
        hbefore (l + 1) f (Nat.succ_lt_succ hl) (by simpa using hf), Nat.succ_add, Nat.add_succ]

/-- The slots validation looks at, by number (R28). -/
theorem activeSlots_getElem? {s : State} {k : Nat} (hk : k < s.plen.toNat) :
    (activeSlots s)[k]? = fetchSlot s k := by
  rw [activeSlots, List.getElem?_take_of_lt hk, fetchSlot, Vector.getElem?_toList]

theorem validate_badLen {capacity : Nat} {s : State} (h : capacity < s.len.toNat) :
    validate capacity s = some (.badLen, 0) := if_pos h

theorem validate_badPlen {capacity : Nat} {s : State} (hlen : s.len.toNat ≤ capacity)
    (h : 7 < s.plen.toNat) : validate capacity s = some (.badPlen, 0) := by
  rw [validate, if_neg (Nat.not_lt.mpr hlen), if_pos h]

/-- The lowest-numbered illegal slot below `PLEN` is reported with its kind. -/
theorem validate_illegal {capacity : Nat} {s : State} (hlen : s.len.toNat ≤ capacity)
    (hplen : s.plen.toNat ≤ 7) {k : Nat} {d : Descr} {why : IllegalKind} (hk : k < s.plen.toNat)
    (hd : fetchSlot s k = some d) (hw : decode d = .illegal why)
    (hbefore : ∀ j e, j < k → fetchSlot s j = some e → ∃ i, decode e = .legal i) :
    validate capacity s = some (illegalCode why, BitVec.ofNat 3 k) := by
  rw [validate, if_neg (Nat.not_lt.mpr hlen), if_neg (Nat.not_lt.mpr hplen),
    firstIllegal_of_first (j := k) (by rwa [activeSlots_getElem? hk]) hw, Nat.zero_add]
  intro l e hl he
  rw [activeSlots_getElem? (hl.trans hk)] at he
  exact hbefore l e hl he

/-- Settles O39: the three checks in their order, and no first fault where every slot is legal. -/
theorem validationReportsTheFirstFault : Obligations.ValidationReportsTheFirstFault := by
  unfold Obligations.ValidationReportsTheFirstFault
  intro capacity s
  refine ⟨validate_badLen, validate_badPlen, fun hlen hplen => ⟨?_, fun hlegal => ?_⟩⟩
  · intro k d why hk hd hw hbefore
    rw [validate_illegal hlen hplen hk hd hw hbefore]
    cases why <;> rfl
  · exact validate_eq_none.mpr ⟨hlen, hplen, hlegal⟩

/-! ## START (R160) -/

/-- A block that has accepted a START, before it enters a slot: BUSY with no fault recorded (R160). -/
def State.begun (s : State) (rest : List HostMove) : State :=
  { s with host := rest, ecode := .none, eslot := 0, state := .busy }

theorem beginRun_eq_enter_begun (s : State) (rest : List HostMove) :
    beginRun { s with host := rest } = enter 0 (s.begun rest) := rfl

/-- A write of `CTRL` with bit 0 set, outside BUSY, is a START request. -/
theorem step_start {s : State} {v : BitVec 72} {rest : List HostMove} (hm : s.host = .regWrite 0 v :: rest)
    (hv : v.getLsbD 0 = true) (hcan : s.state = .idle ∨ s.state = .done) :
    step s = startRequest { s with host := rest } := by
  rw [step_move hm, hostMove_start (s := { s with host := rest }) hv]
  rcases hcan with h | h <;> simp [h]

/-- An accepted START of a program that is not empty enters the operation of slot 0. -/
theorem step_start_enters {s : State} {v : BitVec 72} {rest : List HostMove} {d : Descr} {i : Instr}
    (hm : s.host = .regWrite 0 v :: rest) (hv : v.getLsbD 0 = true)
    (hcan : s.state = .idle ∨ s.state = .done) (hvalid : validate Config.nmax s = none) (hplen : s.plen ≠ 0)
    (hd : fetchSlot s 0 = some d) (hi : decode d = .legal i) :
    step s = .next (stageEntry i { s.begun rest with sp := 0, idx := 0 }) := by
  have hne : 0 ≠ (s.begun rest).plen.toNat := fun h => hplen (BitVec.eq_of_toNat_eq h.symm)
  rw [step_start hm hv hcan, startRequest_valid (s := { s with host := rest }) hcan hvalid,
    beginRun_eq_enter_begun]
  exact enter_slot hne hd hi

/-- A write of `CTRL` that requests nothing, or in BUSY or ERR, is ignored. -/
theorem step_start_ignored {s : State} {v : BitVec 72} {rest : List HostMove}
    (hm : s.host = .regWrite 0 v :: rest) (h : s.state = .busy ∨ s.state = .err ∨ v.getLsbD 0 = false) :
    step s = .next { s with host := rest } := by
  rw [step_move hm]
  show hostRegWrite 0 v { s with host := rest } = _
  unfold hostRegWrite
  by_cases hb : s.state = .busy
  · rw [if_pos hb]
  rw [if_neg hb, if_pos rfl]
  rcases h with h | h | h
  · exact absurd h hb
  · rw [startRequest_ignored (s := { s with host := rest }) (.inr h), ite_self]
  · rw [if_neg (by rw [h]; decide)]

/-- Settles O40: a START request raises the fault validation reports, or is `enter` of slot 0. -/
theorem startFaultsBeginsOrIsIgnored : Obligations.StartFaultsBeginsOrIsIgnored := by
  unfold Obligations.StartFaultsBeginsOrIsIgnored
  intro s v rest hm
  refine ⟨fun hv hcan => ⟨?fault, ?empty, ?busy, ?entry⟩, step_start_ignored hm⟩
  case fault =>
    intro code slot hfault
    rw [step_start hm hv hcan, startRequest_invalid (s := { s with host := rest }) hcan hfault, raiseFault]
  case empty =>
    intro hvalid hplen
    have hend : 0 = (s.begun rest).plen.toNat := (congrArg BitVec.toNat hplen).symm
    rw [step_start hm hv hcan, startRequest_valid (s := { s with host := rest }) hcan hvalid,
      beginRun_eq_enter_begun, enter_end hend, State.begun]
  case busy =>
    intro hvalid hplen
    have hd := fetchSlot_of_lt (s := s) (show 0 < 7 by decide)
    have hpos : 0 < s.plen.toNat := Nat.pos_of_ne_zero fun h => hplen (BitVec.eq_of_toNat_eq h)
    obtain ⟨-, -, hlegal⟩ := validate_eq_none.mp hvalid
    obtain ⟨i, hi⟩ := hlegal 0 _ hpos hd
    refine ⟨_, step_start_enters hm hv hcan hvalid hplen hd hi, ?_⟩
    simp [State.begun]
  case entry =>
    intro d hvalid hplen hd
    exact stageEntry_written_out fun i hi => step_start_enters hm hv hcan hvalid hplen hd hi

end Sys2Proof.Machine

namespace Sys2Proof.Machine

/-! ## The host loads the block (R202, R203) -/

/-- Step 3 of R203: the samples written from index `i` on stand in the buffer, and no lower word changes. -/
theorem run_writeSamples {xs : List Sample} {i : Nat} {s : State} {rest : List HostMove}
    (hm : s.host = writeSamples i xs ++ rest) (hb : s.state ≠ .busy) (hfits : i + xs.length ≤ Config.nmax) :
    ∃ b, Host.Core.run Sys2Proof.core xs.length s = .next { s with host := rest, buf := b } ∧
      (∀ j x, xs[j]? = some x → b.read (i + j) = some x) ∧ ∀ j, j < i → b.read j = s.buf.read j := by
  induction xs generalizing i s with
  | nil => exact ⟨s.buf, by rw [← show s.host = rest from hm]; rfl, nofun, fun _ _ => rfl⟩
  | cons x xs ih =>
    rw [List.length_cons] at hfits
    have hstep : step s = .next { s with
        host := writeSamples (i + 1) xs ++ rest, buf := s.buf.write i x } :=
      (step_bufWrite hm).trans (congrArg Host.Outcome.next (hostBufWrite_of_lt hb (by omega)))
    obtain ⟨b, hrun, hnew, hold⟩ := ih (s := { s with
        host := writeSamples (i + 1) xs ++ rest, buf := s.buf.write i x }) rfl hb (by omega)
    refine ⟨b, (run_succ _ hstep).trans hrun, fun j y hj => ?_, fun j hj => ?_⟩
    · cases j with
      | zero =>
        obtain rfl : x = y := by simpa using hj
        exact (hold i (Nat.lt_succ_self i)).trans (Memory.read_write_same _ _ _)
      | succ j =>
        rw [← Nat.succ_add_eq_add_succ]
        exact hnew j y hj
    · exact (hold j (by omega)).trans (Memory.read_write_ne _ _ (by omega))

/-- A write of register `8 + k` is a write of slot `k` (R24). -/
theorem regUpdate_slot (k : Nat) (d : Descr) (s : State) :
    regUpdate (8 + k) d s = { s with prog := s.prog.setIfInBounds k d } := by
  rw [regUpdate_eq, if_neg (by omega), if_neg (by omega), if_neg (by omega), if_neg (by omega),
    if_pos (by omega), Nat.add_sub_cancel_left]

/-- Step 4 of R203: the descriptors written from slot `k` on stand in the program, and no lower slot changes. -/
theorem run_writeSlots {ds : List Descr} {k : Nat} {s : State} {rest : List HostMove}
    (hm : s.host = writeSlots k ds ++ rest) (hb : s.state ≠ .busy) (hfits : k + ds.length ≤ 7) :
    ∃ p, Host.Core.run Sys2Proof.core ds.length s = .next { s with host := rest, prog := p } ∧
      (∀ j d, ds[j]? = some d → p[k + j]? = some d) ∧ ∀ j, j < k → p[j]? = s.prog[j]? := by
  induction ds generalizing k s with
  | nil => exact ⟨s.prog, by rw [← show s.host = rest from hm]; rfl, nofun, fun _ _ => rfl⟩
  | cons d ds ih =>
    rw [List.length_cons] at hfits
    have hstep : step s = .next { s with
        host := writeSlots (k + 1) ds ++ rest, prog := s.prog.setIfInBounds k d } :=
      (step_regWrite hm hb (by omega)).trans (congrArg Host.Outcome.next (regUpdate_slot k d _))
    obtain ⟨p, hrun, hnew, hold⟩ := ih (s := { s with
        host := writeSlots (k + 1) ds ++ rest, prog := s.prog.setIfInBounds k d }) rfl hb (by omega)
    refine ⟨p, (run_succ _ hstep).trans hrun, fun j e hj => ?_, fun j hj => ?_⟩
    · cases j with
      | zero =>
        obtain rfl : d = e := by simpa using hj
        exact (hold k (Nat.lt_succ_self k)).trans
          (Vector.getElem?_setIfInBounds_self_of_lt (show k < 7 by omega))
      | succ j =>
        rw [← Nat.succ_add_eq_add_succ]
        exact hnew j e hj
    · exact (hold j (by omega)).trans (Vector.getElem?_setIfInBounds_ne (by omega))

/-- A write of a register other than `CTRL`, outside BUSY, as a run of one step. -/
theorem run_regWrite {s : State} {n : Nat} {v : BitVec 72} {rest : List HostMove}
    (hm : s.host = .regWrite n v :: rest) (hb : s.state ≠ .busy) (hn : n ≠ 0) :
    Host.Core.run Sys2Proof.core 1 s = .next (regUpdate n v { s with host := rest }) :=
  run_succ 0 (step_regWrite hm hb hn)

/-- Two parts of a run, one after the other. -/
theorem run_trans {s t : State} {o : Outcome} {n m : Nat} (h : Host.Core.run Sys2Proof.core n s = .next t)
    (h' : Host.Core.run Sys2Proof.core m t = o) : Host.Core.run Sys2Proof.core (n + m) s = o :=
  (run_add n m h).trans h'

/-- Step 2 of R203: the three registers of the format. -/
theorem run_writeFormat {s : State} {len srate fmeta : BitVec 72} {rest : List HostMove}
    (hm : s.host = .regWrite 2 len :: .regWrite 3 srate :: .regWrite 4 fmeta :: rest)
    (hb : s.state ≠ .busy) :
    Host.Core.run Sys2Proof.core 3 s = .next { s with
      host := rest, len := len.setWidth 32, srate := srate.setWidth 32, fmeta := fmeta.setWidth 32 } :=
  run_trans (run_trans (run_regWrite hm hb (by decide)) (run_regWrite rfl hb (by decide)))
    (run_regWrite rfl hb (by decide))

/-- Step 4 of R203: `PLEN`, then the slots. -/
theorem run_writeProgram {s : State} {n : BitVec 72} {ds : List Descr} {rest : List HostMove}
    (hm : s.host = .regWrite 5 n :: (writeSlots 0 ds ++ rest)) (hb : s.state ≠ .busy) (hfits : ds.length ≤ 7) :
    ∃ p : Vector Descr Config.nslot, Host.Core.run Sys2Proof.core (1 + ds.length) s =
        .next { s with host := rest, plen := n.setWidth 4, prog := p } ∧
      ∀ (k : Nat) (d : Descr), ds[k]? = some d → p[k]? = some d := by
  obtain ⟨p, hrun, hslots, -⟩ := run_writeSlots (k := 0)
    (s := { s with host := writeSlots 0 ds ++ rest, plen := n.setWidth 4 }) rfl hb (by omega)
  simp only [Nat.zero_add] at hslots
  exact ⟨p, run_trans (run_regWrite hm hb (by decide)) hrun, hslots⟩

/-- Steps 3 and 4 of R203: the samples, then the program. -/
theorem run_writeSamplesAndProgram {s : State} {xs : List Sample} {n : BitVec 72} {ds : List Descr}
    {rest : List HostMove} (hm : s.host = writeSamples 0 xs ++ .regWrite 5 n :: (writeSlots 0 ds ++ rest))
    (hb : s.state ≠ .busy) (hsamples : xs.length ≤ Config.nmax) (hslots : ds.length ≤ 7) :
    ∃ (b : Memory) (p : Vector Descr Config.nslot),
      Host.Core.run Sys2Proof.core (xs.length + (1 + ds.length)) s =
        .next { s with host := rest, plen := n.setWidth 4, buf := b, prog := p } ∧
      (∀ j x, xs[j]? = some x → b.read j = some x) ∧
      ∀ (k : Nat) (d : Descr), ds[k]? = some d → p[k]? = some d := by
  obtain ⟨b, hrunSamples, hwords, -⟩ := run_writeSamples hm hb (by omega)
  obtain ⟨p, hrunProgram, hprog⟩ := run_writeProgram
    (s := { s with host := .regWrite 5 n :: (writeSlots 0 ds ++ rest), buf := b }) rfl hb hslots
  simp only [Nat.zero_add] at hwords
  exact ⟨b, p, run_trans hrunSamples hrunProgram, hwords, hprog⟩

theorem toNat_setWidth_ofNat {n w v : Nat} (hw : n < 2 ^ w) (hv : n < 2 ^ v) :
    ((BitVec.ofNat v n).setWidth w).toNat = n := by
  rw [BitVec.toNat_setWidth, BitVec.toNat_ofNat, Nat.mod_eq_of_lt hv, Nat.mod_eq_of_lt hw]

/-- Settles O60: the format, the samples and the program are written one after the other, and START is left. -/
theorem hostSequenceLoadsTheBlock : Obligations.HostSequenceLoadsTheBlock := by
  unfold Obligations.HostSequenceLoadsTheBlock
  intro s srate fmeta samples program hcan hsamples hprogram hm
  have hb : s.state ≠ .busy := by rcases hcan with h | h <;> simp [h]
  have hnmax := nmax_le
  have hmoves : s.host = .regWrite 2 (BitVec.ofNat 72 samples.length) :: .regWrite 3 (srate.setWidth 72) ::
      .regWrite 4 (fmeta.setWidth 72) :: (writeSamples 0 samples ++
        .regWrite 5 (BitVec.ofNat 72 program.length) :: (writeSlots 0 program ++ [.regWrite 0 1])) := by
    simp [hm, hostSequence]
  obtain ⟨b, p, hrun, hwords, hslots⟩ := run_writeSamplesAndProgram (s := { s with
    host := writeSamples 0 samples ++
      .regWrite 5 (BitVec.ofNat 72 program.length) :: (writeSlots 0 program ++ [.regWrite 0 1])
    len := (BitVec.ofNat 72 samples.length).setWidth 32
    srate := (srate.setWidth 72).setWidth 32, fmeta := (fmeta.setWidth 72).setWidth 32 })
    rfl hb hsamples hprogram
  have hcount : samples.length + program.length + 4 = 3 + (samples.length + (1 + program.length)) := by omega
  rw [hcount]
  refine ⟨_, run_trans (run_writeFormat hmoves hb) hrun, rfl, rfl, rfl, ?_, ?_, ?_, ?_, ?_, ?_⟩
  · exact toNat_setWidth_ofNat (by omega) (by omega)
  · exact BitVec.setWidth_setWidth_of_le _ (show 32 ≤ 72 by decide)
  · exact BitVec.setWidth_setWidth_of_le _ (show 32 ≤ 72 by decide)
  · exact toNat_setWidth_ofNat (by omega) (by omega)
  · exact fun j hj => hwords j _ (List.getElem?_eq_getElem hj)
  · exact fun k hk => hslots k _ (List.getElem?_eq_getElem hk)

end Sys2Proof.Machine

namespace Sys2Proof.Machine

/-! ## A run as a fold of its stages (R162 to R166)

With a loaded buffer no sample step stops, so a run is a function: the stages of the program one after the
other, each the entry of its slot and `LEN` sample steps. The functions below say so for every state; a word that
holds no value counts as 0 in them, which `ReadyToStart.run_eq` excludes. -/

/-- The Sample at `IDX`. -/
def inputOf (s : State) : Sample := (s.buf.read s.idx.toNat).getD 0

/-- What a sample step of operation `i` leaves. -/
def sampleEffect (i : Instr) (s : State) : State :=
  (privateOf i s (inputOf s)).finishSample (resultOf i s (inputOf s))

/-- What entering slot `k` with operation `i` leaves. -/
def slotEntered (k : Nat) (i : Instr) (s : State) : State :=
  stageEntry i { s with sp := BitVec.ofNat 3 k, idx := 0 }

/-- The block in slot `k` with operation `i`, entered from `s`, after `n` samples. -/
def inStage (k : Nat) (i : Instr) (s : State) (n : Nat) : State := (sampleEffect i)^[n] (slotEntered k i s)

/-- What the whole stage of slot `k` leaves. -/
def stageEffect (k : Nat) (i : Instr) (s : State) : State := inStage k i s s.len.toNat

/-- What the stages of the slots from `k` on leave. -/
def programEffect : Nat → List Instr → State → State
  | _, [], s => s
  | k, i :: is, s => programEffect (k + 1) is (stageEffect k i s)

theorem inputOf_of_read {s : State} {x : Sample} (hx : s.buf.read s.idx.toNat = some x) : inputOf s = x := by
  rw [inputOf, hx, Option.getD_some]

/-- The effect is the step's, where the word holds a value. -/
theorem sampleEffect_of_read {i : Instr} {s : State} {x : Sample} (hx : s.buf.read s.idx.toNat = some x) :
    sampleEffect i s = (privateOf i s x).finishSample (resultOf i s x) := by
  rw [sampleEffect, inputOf_of_read hx]

theorem inStage_zero (k : Nat) (i : Instr) (s : State) : inStage k i s 0 = slotEntered k i s := rfl

theorem inStage_succ (k : Nat) (i : Instr) (s : State) (n : Nat) :
    inStage k i s (n + 1) = sampleEffect i (inStage k i s n) := Function.iterate_succ_apply' _ _ _

/-! ### What the stages leave unchanged -/

/-- The registers of the map that no stage changes (R172 item 2). -/
structure SameRegisters (s t : State) : Prop where
  len : t.len = s.len
  srate : t.srate = s.srate
  fmeta : t.fmeta = s.fmeta
  plen : t.plen = s.plen
  prog : t.prog = s.prog

theorem SameRegisters.refl (s : State) : SameRegisters s s := ⟨rfl, rfl, rfl, rfl, rfl⟩

theorem SameRegisters.trans {s t u : State} (h : SameRegisters s t) (h' : SameRegisters t u) :
    SameRegisters s u :=
  ⟨h'.len.trans h.len, h'.srate.trans h.srate, h'.fmeta.trans h.fmeta, h'.plen.trans h.plen,
    h'.prog.trans h.prog⟩

theorem slotEntered_sameRegisters (k : Nat) (i : Instr) (s : State) : SameRegisters s (slotEntered k i s) := by
  constructor <;> simp [slotEntered]

theorem sampleEffect_sameRegisters (i : Instr) (s : State) : SameRegisters s (sampleEffect i s) := by
  constructor <;> simp [sampleEffect]

theorem inStage_sameRegisters (k : Nat) (i : Instr) (s : State) (n : Nat) :
    SameRegisters s (inStage k i s n) := by
  induction n with
  | zero => exact slotEntered_sameRegisters k i s
  | succ n ih =>
    rw [inStage_succ]
    exact ih.trans (sampleEffect_sameRegisters i _)

theorem stageEffect_sameRegisters (k : Nat) (i : Instr) (s : State) : SameRegisters s (stageEffect k i s) :=
  inStage_sameRegisters k i s _

@[simp] theorem stageEffect_len (k : Nat) (i : Instr) (s : State) : (stageEffect k i s).len = s.len :=
  (stageEffect_sameRegisters k i s).len

/-- What every stage keeps, the program keeps: the induction over the slots. -/
theorem programEffect_induction {P : State → Prop} {is : List Instr}
    (stage : ∀ k i s, i ∈ is → P s → P (stageEffect k i s)) {k : Nat} {s : State} (h : P s) :
    P (programEffect k is s) := by
  induction is generalizing k s with
  | nil => exact h
  | cons i is ih =>
    exact ih (fun k j s hj => stage k j s (List.mem_cons_of_mem i hj)) (stage k i s List.mem_cons_self h)

theorem programEffect_sameRegisters (k : Nat) (is : List Instr) (s : State) :
    SameRegisters s (programEffect k is s) :=
  programEffect_induction (P := SameRegisters s)
    (fun k i t _ h => h.trans (stageEffect_sameRegisters k i t)) (SameRegisters.refl s)

/-! ### What a stage does to the buffer -/

theorem inStage_idx (k : Nat) (i : Instr) (s : State) (n : Nat) :
    (inStage k i s n).idx = BitVec.ofNat 32 n := by
  induction n with
  | zero => simp [inStage_zero, slotEntered]
  | succ n ih => rw [inStage_succ, sampleEffect, finishSample_idx, privateOf_idx, ih, BitVec.ofNat_add]; rfl

/-- Within the buffer the index does not wrap. -/
theorem inStage_idx_toNat (k : Nat) (i : Instr) (s : State) {n : Nat} (hn : n ≤ s.len.toNat) :
    (inStage k i s n).idx.toNat = n := by
  rw [inStage_idx, BitVec.toNat_ofNat, Nat.mod_eq_of_lt (lt_of_le_of_lt hn s.len.isLt)]

/-- After `n` samples the first `n` words hold their results and the others are as they were before the stage. -/
theorem read_inStage (k : Nat) (i : Instr) (s : State) {n : Nat} (hn : n ≤ s.len.toNat) (j : Nat) :
    (inStage k i s n).buf.read j =
      if j < n then some (resultOf i (inStage k i s j) (inputOf (inStage k i s j))) else s.buf.read j := by
  induction n with
  | zero => simp [inStage_zero, slotEntered]
  | succ n ih =>
    have ih := ih (Nat.le_of_succ_le hn)
    rw [inStage_succ, sampleEffect, finishSample_buf, privateOf_buf, privateOf_idx,
      inStage_idx_toNat k i s (Nat.le_of_succ_le hn)]
    by_cases hj : j = n
    · subst hj
      rw [Memory.read_write_same, if_pos (Nat.lt_succ_self j)]
    · rw [Memory.read_write_ne _ _ hj, ih]
      exact if_congr (by omega) rfl rfl

/-- The input of sample `n` of a stage is the word that stood there before the stage. -/
theorem inputOf_inStage (k : Nat) (i : Instr) (s : State) {n : Nat} (hn : n ≤ s.len.toNat) :
    inputOf (inStage k i s n) = (s.buf.read n).getD 0 := by
  rw [inputOf, inStage_idx_toNat k i s hn, read_inStage k i s hn, if_neg (Nat.lt_irrefl n)]

/-- What a stage does to the buffer: each word below `LEN` becomes the operation's result for it. -/
theorem read_stageEffect (k : Nat) (i : Instr) (s : State) (j : Nat) :
    (stageEffect k i s).buf.read j =
      if j < s.len.toNat then some (resultOf i (inStage k i s j) ((s.buf.read j).getD 0))
      else s.buf.read j := by
  rw [stageEffect, read_inStage k i s le_rfl]
  split
  · rename_i hj
    rw [inputOf_inStage k i s hj.le]
  · rfl

theorem read_stageEffect_of_lt (k : Nat) (i : Instr) {s : State} {j : Nat} (hj : j < s.len.toNat) :
    (stageEffect k i s).buf.read j = some (resultOf i (inStage k i s j) ((s.buf.read j).getD 0)) := by
  rw [read_stageEffect, if_pos hj]

theorem read_stageEffect_of_ge (k : Nat) (i : Instr) {s : State} {j : Nat} (hj : s.len.toNat ≤ j) :
    (stageEffect k i s).buf.read j = s.buf.read j := by
  rw [read_stageEffect, if_neg (Nat.not_lt.mpr hj)]

/-! ### The run is the fold -/

theorem programOf_congr {s t : State} (hplen : t.plen = s.plen) (hprog : t.prog = s.prog) :
    programOf t = programOf s := by
  rw [programOf_eq, programOf_eq, activeSlots, activeSlots, hplen, hprog]

theorem Runnable.length_programOf {s : State} (h : Runnable s) : (programOf s).length = s.plen.toNat :=
  (programOf_get h.plenFits h.legal).1

/-- The operation of slot `k` stands at place `k` of the program. -/
theorem Runnable.programOf_getElem? {s : State} (h : Runnable s) {k : Nat} {d : Descr} {i : Instr}
    (hk : k < s.plen.toNat) (hd : fetchSlot s k = some d) (hi : decode d = .legal i) :
    (programOf s)[k]? = some i :=
  (programOf_get h.plenFits h.legal).2 k d i hk hd hi

/-- What is left of the run of a block in slot `SP` at index `IDX` leads to `fin`: the rest of the stage, then
the slots after it. -/
def RestLeadsTo (fin s : State) : Prop :=
  ∃ i, (programOf s)[s.sp.toNat]? = some i ∧
    programEffect (s.sp.toNat + 1) ((programOf s).drop (s.sp.toNat + 1))
      ((sampleEffect i)^[s.len.toNat - s.idx.toNat] s) = fin

/-- On entering a slot the whole stage and the slots after it are left. -/
theorem restLeadsTo_slotEntered {fin s : State} {k : Nat} {i : Instr} (hk : k < 7)
    (hi : (programOf s)[k]? = some i) (hfin : programEffect k ((programOf s).drop k) s = fin) :
    RestLeadsTo fin (slotEntered k i s) := by
  have hsame := slotEntered_sameRegisters k i s
  have hprogram := programOf_congr hsame.plen hsame.prog
  have hsp : (slotEntered k i s).sp.toNat = k := by
    rw [slotEntered, stageEntry_sp, ofNat_three (by omega)]
  have hidx : (slotEntered k i s).idx.toNat = 0 := by simp [slotEntered]
  refine ⟨i, by rw [hprogram, hsp, hi], ?_⟩
  rw [hprogram, hsp, hidx, hsame.len, Nat.sub_zero]
  rw [List.drop_eq_getElem?_toList_append, hi] at hfin
  exact hfin

/-- A sample step takes one sample off what is left. -/
theorem RestLeadsTo.sample {fin s : State} {i : Instr} (h : RestLeadsTo fin s)
    (hi : (programOf s)[s.sp.toNat]? = some i) (hlt : s.idx.toNat < s.len.toNat) :
    RestLeadsTo fin (sampleEffect i s) := by
  obtain ⟨j, hj, hfin⟩ := h
  obtain rfl : i = j := Option.some.inj (hi.symm.trans hj)
  have hsame := sampleEffect_sameRegisters i s
  have hsp : (sampleEffect i s).sp = s.sp := by simp [sampleEffect]
  have hidx : (sampleEffect i s).idx.toNat = s.idx.toNat + 1 := by
    rw [sampleEffect, finishSample_idx, privateOf_idx, idx_succ hlt]
  refine ⟨i, by rw [programOf_congr hsame.plen hsame.prog, hsp, hi], ?_⟩
  rw [programOf_congr hsame.plen hsame.prog, hsp, hidx, hsame.len, ← Function.iterate_succ_apply,
    show (s.len.toNat - (s.idx.toNat + 1)).succ = s.len.toNat - s.idx.toNat by omega]
  exact hfin

/-- At the end of a stage the slots after it are left. -/
theorem RestLeadsTo.stageEnd {fin s : State} (h : RestLeadsTo fin s) (hidx : s.idx = s.len) :
    programEffect (s.sp.toNat + 1) ((programOf s).drop (s.sp.toNat + 1)) s = fin := by
  obtain ⟨i, -, hfin⟩ := h
  rwa [hidx, Nat.sub_self] at hfin

/-- Where a run is: BUSY with the rest still leading to `fin`, or over with `fin` reached. -/
def OnTheWayTo (fin s : State) : Prop :=
  (s.state = .busy ∧ RestLeadsTo fin s) ∨ s = { fin with state := .done }

theorem onTheWayTo_slotEntered {fin s : State} {k : Nat} {i : Instr} (hb : s.state = .busy) (hk : k < 7)
    (hi : (programOf s)[k]? = some i) (hfin : programEffect k ((programOf s).drop k) s = fin) :
    OnTheWayTo fin (slotEntered k i s) :=
  .inl ⟨by simpa [slotEntered] using hb, restLeadsTo_slotEntered hk hi hfin⟩

theorem OnTheWayTo.step {fin s t : State} (hr : Running s) (h : OnTheWayTo fin s)
    (hs : Machine.step s = .next t) : OnTheWayTo fin t := by
  have hrest : RestLeadsTo fin s := by
    rcases h with ⟨-, h⟩ | rfl
    · exact h
    · exact absurd hr.busy (by simp)
  have hrun := hr.runnable
  rcases hr.step_cases hs with ⟨hlt, d, i, x, hd, hi, hx, rfl⟩ | ⟨hidx, hlast, rfl⟩ |
    ⟨hidx, hnext, d, i, hd, hi, rfl⟩
  · rw [← sampleEffect_of_read hx]
    exact .inl ⟨by simpa [sampleEffect] using hr.busy,
      hrest.sample (hrun.programOf_getElem? hrun.spInProgram hd hi) hlt⟩
  · right
    have hend := hrest.stageEnd hidx
    rw [List.drop_eq_nil_of_le (by rw [hrun.length_programOf]; omega), programEffect] at hend
    rw [hend]
  · have := hrun.plenFits
    exact onTheWayTo_slotEntered hr.busy (by omega) (hrun.programOf_getElem? hnext hd hi)
      (hrest.stageEnd hidx)

/-- START sets a block on the way to the effect of its whole program. -/
theorem ReadyToStart.onTheWay {s u : State} (h : ReadyToStart s)
    (hu : Machine.step { s with host := [.regWrite 0 1] } = .next u) :
    OnTheWayTo (programEffect 0 (programOf s) (s.begun [])) u := by
  obtain ⟨-, hplen, hlegal⟩ := validate_eq_none.mp h.valid
  obtain ⟨hlength, hget⟩ := programOf_get hplen hlegal
  rcases h.start_cases hu with ⟨hempty, rfl⟩ | ⟨hne, -, d, i, hd, hi, rfl⟩
  · right
    rw [List.length_eq_zero_iff.mp (hlength.trans hempty), programEffect, State.begun]
  · exact onTheWayTo_slotEntered (s := s.begun []) (k := 0) rfl (by decide)
      (hget 0 d i (Nat.pos_of_ne_zero hne) hd hi) rfl

/-- A run from a ready state ends in the effect of its program. -/
theorem ReadyToStart.run_eq {s t : State} (h : ReadyToStart s) (ht : afterStart s (runSteps s) = .next t) :
    t = { programEffect 0 (programOf s) (s.begun []) with state := .done } := by
  obtain ⟨hdone, hway⟩ := h.run_induction (fun u hu => h.onTheWay hu) (fun u v hr hw hv => hw.step hr hv) ht
  rcases hway with ⟨hb, -⟩ | heq
  · rw [hdone] at hb
    cases hb
  · exact heq

end Sys2Proof.Machine

namespace Sys2Proof.Machine

/-! ## What holds of a whole run (R166, R172) -/

/-- No step of a running block records a fault (R180). -/
theorem Running.step_keeps_fault {s t : State} (h : Running s) (hs : Machine.step s = .next t) :
    t.ecode = s.ecode ∧ t.eslot = s.eslot := by
  rcases h.step_cases hs with ⟨-, d, i, x, -, -, -, rfl⟩ | ⟨-, -, rfl⟩ | ⟨-, -, d, i, -, -, rfl⟩
  · simp
  · exact ⟨rfl, rfl⟩
  · simp

theorem afterStart_eq {s u : State} (hs : step { s with host := [.regWrite 0 1] } = .next u) (n : Nat) :
    afterStart s n = Host.Core.run Sys2Proof.core n u := by
  rw [afterStart, Nat.add_comm]
  exact run_succ n hs

/-- Settles O51: START of an empty program is over at once; otherwise each step of the running block leaves one
less of the `runSteps`, BUSY until the last. -/
theorem startedRunReachesDone : Obligations.StartedRunReachesDone := by
  unfold Obligations.StartedRunReachesDone
  intro s h
  rcases h.started with ⟨hempty, hs⟩ | ⟨d, i, u, -, -, hu, hs, hr, hsteps⟩
  · have hzero : runSteps s = 0 := by rw [runSteps, hempty, Nat.zero_mul]
    rw [hzero, afterStart_eq hs]
    exact ⟨nofun, _, rfl, rfl, rfl, rfl⟩
  · obtain ⟨hbusy, t, ht, hdone, hcode, hslot⟩ := hr.induction
      (P := fun v => v.ecode = .none ∧ v.eslot = 0)
      (fun v w hv hP hw => by
        obtain ⟨hcode, hslot⟩ := hv.step_keeps_fault hw
        rwa [hcode, hslot])
      (by simp [hu])
    rw [hsteps] at hbusy ht
    refine ⟨fun n hn => ?_, t, (afterStart_eq hs _).trans ht, hdone, hcode, hslot⟩
    obtain ⟨v, hv, hrunning, -⟩ := hbusy n hn
    exact ⟨v, (afterStart_eq hs n).trans hv, hrunning.busy⟩

/-! ### The length, the format and the words past the length (R172 items 1 and 2) -/

theorem read_programEffect_of_ge (k : Nat) (is : List Instr) {s : State} {j : Nat} (hj : s.len.toNat ≤ j) :
    (programEffect k is s).buf.read j = s.buf.read j :=
  (programEffect_induction (P := fun t => t.len = s.len ∧ t.buf.read j = s.buf.read j)
    (fun k i t _ ⟨hlen, hread⟩ =>
      ⟨(stageEffect_len k i t).trans hlen, (read_stageEffect_of_ge k i (by rwa [hlen])).trans hread⟩)
    ⟨rfl, rfl⟩).2

theorem loaded_stageEffect (k : Nat) (i : Instr) (s : State) : Loaded (stageEffect k i s) := by
  intro j hj
  rw [stageEffect_len] at hj
  exact ⟨_, read_stageEffect_of_lt k i hj⟩

theorem Loaded.programEffect {s : State} (h : Loaded s) (k : Nat) (is : List Instr) :
    Loaded (programEffect k is s) :=
  programEffect_induction (fun k i t _ _ => loaded_stageEffect k i t) h

/-- Settles O52: the run is the fold of its stages, each of which writes words below `LEN` alone. -/
theorem runKeepsLengthAndFormat : Obligations.RunKeepsLengthAndFormat := by
  unfold Obligations.RunKeepsLengthAndFormat
  intro s t h ht
  obtain rfl := h.run_eq ht
  obtain ⟨hlen, hsrate, hfmeta, hplen, hprog⟩ := programEffect_sameRegisters 0 (programOf s) (s.begun [])
  have hloaded : Loaded (s.begun []) := h.loaded
  refine ⟨hlen, hsrate, hfmeta, hplen, hprog, fun j hj => ?_, fun j hj => ?_⟩
  · exact read_programEffect_of_ge 0 (programOf s) (s := s.begun []) hj
  · refine hloaded.programEffect 0 (programOf s) j ?_
    rwa [hlen]

/-! ### The noise drawn (R172 item 4) -/

/-- A sample step draws one word for AWN and APN and none for the others (R65). -/
theorem privateOf_npos (i : Instr) (s : State) (x : Sample) :
    (privateOf i s x).npos = s.npos + if isNoise i then 1 else 0 := by
  cases i <;> rfl

theorem inStage_npos (k : Nat) (i : Instr) (s : State) (n : Nat) :
    (inStage k i s n).npos = s.npos + if isNoise i then n else 0 := by
  induction n with
  | zero => simp [inStage_zero, slotEntered]
  | succ n ih =>
    rw [inStage_succ, sampleEffect, finishSample_npos, privateOf_npos, ih, Nat.add_assoc]
    split <;> rfl

theorem programEffect_npos (k : Nat) (is : List Instr) (s : State) :
    (programEffect k is s).npos = s.npos + s.len.toNat * is.countP isNoise := by
  induction is generalizing k s with
  | nil => rfl
  | cons i is ih =>
    rw [programEffect, ih, stageEffect_len, stageEffect, inStage_npos, List.countP_cons, Nat.mul_add]
    split <;> omega

/-- Settles O53: each noise stage draws `LEN` words, and the stages add up over the program. -/
theorem runDrawsOneWordForEachNoiseSample : Obligations.RunDrawsOneWordForEachNoiseSample := by
  unfold Obligations.RunDrawsOneWordForEachNoiseSample
  intro s t h ht
  obtain rfl := h.run_eq ht
  exact programEffect_npos 0 (programOf s) (s.begun [])

/-! ### The range of the samples (R172 item 3) -/

/-- Every word below `LEN` that holds a value is in [-32767, 32767]. -/
def BufferInRange (s : State) : Prop :=
  ∀ j y, j < s.len.toNat → s.buf.read j = some y → InNormalRange y

theorem inNormalRange_resultOf {i : Instr} (hi : normalizes i = true) (s : State) (x : Sample) :
    InNormalRange (resultOf i s x) := by
  cases i with
  | bcr bits => cases hi
  | _ => exact inNormalRange_normalize _

theorem inNormalRange_zero : InNormalRange 0 := ⟨by decide, by decide⟩

/-- A normalizing operation makes the range, and the bit crusher, the one other operation, keeps it. -/
theorem inNormalRange_resultOf_of_input (i : Instr) (s : State) {x : Sample} (hx : InNormalRange x) :
    InNormalRange (resultOf i s x) := by
  cases i with
  | bcr bits => exact inNormalRange_bcrSample bits hx
  | _ => exact inNormalRange_resultOf rfl s x

/-- A stage makes the range where its operation does for every input it reads. -/
theorem bufferInRange_stageEffect (k : Nat) (i : Instr) (s : State)
    (h : ∀ j u, j < s.len.toNat → InNormalRange (resultOf i u ((s.buf.read j).getD 0))) :
    BufferInRange (stageEffect k i s) := by
  intro j y hj hy
  rw [stageEffect_len] at hj
  rw [read_stageEffect_of_lt k i hj] at hy
  obtain rfl := Option.some.inj hy
  exact h j _ hj

theorem BufferInRange.input {s : State} (h : BufferInRange s) {j : Nat} (hj : j < s.len.toNat) :
    InNormalRange ((s.buf.read j).getD 0) := by
  cases hx : s.buf.read j with
  | none => exact inNormalRange_zero
  | some x => exact h j x hj hx

theorem BufferInRange.programEffect {s : State} (h : BufferInRange s) (k : Nat) (is : List Instr) :
    BufferInRange (programEffect k is s) :=
  programEffect_induction (P := BufferInRange)
    (fun k i t _ ht => bufferInRange_stageEffect k i t fun _ u hj =>
      inNormalRange_resultOf_of_input i u (ht.input hj)) h

/-- From the first normalizing stage on the samples are in range. -/
theorem bufferInRange_programEffect {is : List Instr} (h : ∃ i ∈ is, normalizes i = true) (k : Nat)
    (s : State) : BufferInRange (programEffect k is s) := by
  induction is generalizing k s with
  | nil => obtain ⟨i, hi, -⟩ := h; cases hi
  | cons i is ih =>
    rw [programEffect]
    by_cases hi : normalizes i = true
    · exact (bufferInRange_stageEffect k i s fun _ u _ => inNormalRange_resultOf hi u _).programEffect _ _
    · refine ih ?_ _ _
      obtain ⟨j, hj, hn⟩ := h
      rcases List.mem_cons.mp hj with rfl | hj
      · exact absurd hn hi
      · exact ⟨j, hj, hn⟩

/-- Settles O54: the first normalizing stage brings every sample into the range, and every later stage keeps it
there. -/
theorem runLeavesSamplesInRange : Obligations.RunLeavesSamplesInRange := by
  unfold Obligations.RunLeavesSamplesInRange
  intro s t h ht hnorm j y hj hy
  obtain rfl := h.run_eq ht
  refine bufferInRange_programEffect hnorm 0 (s.begun []) j y ?_ hy
  rwa [(programEffect_sameRegisters 0 (programOf s) (s.begun [])).len]

/-! ### Zeros stay zeros (R172 item 6) -/

/-- Every word below `LEN` is 0. -/
def BufferOfZeros (s : State) : Prop := ∀ j, j < s.len.toNat → s.buf.read j = some 0

theorem bcrSample_zero (bits : BitVec 32) : bcrSample bits 0 = 0 :=
  (bcrSample_eq_self_iff bits 0).mpr (dvd_zero _)

/-- An operation without noise makes 0 of 0, TEL after a sample that was 0. -/
theorem resultOf_zero {i : Instr} (hi : isNoise i = false) {s : State}
    (hprev : ∀ alpha, i = .tel alpha → ZeroOrNaN s.prev) : resultOf i s 0 = 0 := by
  cases i with
  | awn level => cases hi
  | apn level => cases hi
  | scd gain => exact scdSample_zero ftanh_admissible Config.scdOrder gain
  | trm rateHz depth => exact trmSample_zero fsin depth s.phT
  | tel alpha => exact telSample_zero_of_prev (hprev alpha rfl) alpha
  | rmd frequencyHz => exact rmdSample_zero fsin s.phR
  | bcr bits => exact bcrSample_zero bits

theorem BufferOfZeros.input {s : State} (h : BufferOfZeros s) {j : Nat} (hj : j < s.len.toNat) :
    (s.buf.read j).getD 0 = 0 := by
  rw [h j hj, Option.getD_some]

/-- In a stage of TEL over zeros `PREV` is the zero of the entry or that of the sample before. -/
theorem BufferOfZeros.prev_inStage {s : State} (h : BufferOfZeros s) (k : Nat) (alpha : F32) {n : Nat}
    (hn : n ≤ s.len.toNat) : ZeroOrNaN (inStage k (.tel alpha) s n).prev := by
  cases n with
  | zero => exact zeroOrNaN_of_zero (by decide : fIsZero fZero = true)
  | succ n =>
    rw [inStage_succ, sampleEffect, finishSample_prev, privateOf_tel, inputOf_inStage k _ s (by omega),
      h.input hn]
    exact zeroOrNaN_fOfSample_zero

theorem BufferOfZeros.stageEffect {s : State} (h : BufferOfZeros s) (k : Nat) {i : Instr}
    (hi : isNoise i = false) : BufferOfZeros (stageEffect k i s) := by
  intro j hj
  rw [stageEffect_len] at hj
  rw [read_stageEffect_of_lt k i hj, h.input hj, resultOf_zero hi]
  rintro alpha rfl
  exact h.prev_inStage k alpha hj.le

/-- Settles O55: every stage without noise keeps a buffer of zeros. -/
theorem runWithoutNoiseKeepsZeros : Obligations.RunWithoutNoiseKeepsZeros := by
  unfold Obligations.RunWithoutNoiseKeepsZeros
  intro s t h ht hnoise hzeros j hj
  obtain rfl := h.run_eq ht
  have hstart : BufferOfZeros (s.begun []) := hzeros
  have hend : BufferOfZeros (programEffect 0 (programOf s) (s.begun [])) :=
    programEffect_induction (fun k i _ hi hu => hu.stageEffect k (hnoise i hi)) hstart
  refine hend j ?_
  rwa [(programEffect_sameRegisters 0 (programOf s) (s.begun [])).len]

/-! ### What a run depends on (R172 items 1 and 5) -/

/-- Two states that agree on every register operation `i` reads in a sample step. -/
def AgreeFor (i : Instr) (s s' : State) : Prop :=
  match i with
  | .awn _ => s'.npos = s.npos
  | .apn _ => s'.npos = s.npos ∧ s'.pinkRegs = s.pinkRegs
  | .scd _ => True
  | .trm _ _ => s'.phT = s.phT ∧ s'.inc = s.inc
  | .tel _ => s'.prev = s.prev
  | .rmd _ => s'.phR = s.phR ∧ s'.inc = s.inc
  | .bcr _ => True

theorem AgreeFor.resultOf {i : Instr} {s s' : State} (h : AgreeFor i s s') (x : Sample) :
    resultOf i s' x = resultOf i s x := by
  cases i with
  | awn level => exact congrArg (fun n => awnSample level x (Config.noise n)) h
  | apn level =>
    obtain ⟨hnpos, hpink⟩ := h
    simp only [Machine.resultOf, drawnWord, hnpos, hpink]
  | scd gain => rfl
  | trm rateHz depth => exact congrArg (fun ph => trmSample fsin depth ph x) h.1
  | tel alpha => exact congrArg (fun prev => telSample alpha prev x) h
  | rmd frequencyHz => exact congrArg (fun ph => rmdSample fsin ph x) h.1
  | bcr bits => rfl

/-- The next private state is a function of those registers and of the input. -/
theorem AgreeFor.sampleEffect {i : Instr} {s s' : State} (h : AgreeFor i s s') (hx : inputOf s' = inputOf s) :
    AgreeFor i (sampleEffect i s) (sampleEffect i s') := by
  cases i with
  | awn level => exact congrArg (· + 1) h
  | apn level =>
    obtain ⟨hnpos, hpink⟩ := h
    refine ⟨congrArg (· + 1) hnpos, ?_⟩
    simp only [Machine.sampleEffect, finishSample_pinkRegs, privateOf_apn, drawnWord, hnpos, hpink]
  | scd gain => trivial
  | trm rateHz depth =>
    obtain ⟨hph, hinc⟩ := h
    exact ⟨congrArg₂ advance hph hinc, hinc⟩
  | tel alpha => exact congrArg fOfSample hx
  | rmd frequencyHz =>
    obtain ⟨hph, hinc⟩ := h
    exact ⟨congrArg₂ advance hph hinc, hinc⟩
  | bcr bits => trivial

/-- Entry constructs the private state of a stage from its operands and `SRATE` alone (R162). -/
theorem agreeFor_slotEntered (k : Nat) {i : Instr} {s s' : State} (hsrate : s'.srate = s.srate)
    (hnpos : isNoise i = true → s'.npos = s.npos) : AgreeFor i (slotEntered k i s) (slotEntered k i s') := by
  cases i with
  | awn level => exact hnpos rfl
  | apn level => exact ⟨hnpos rfl, rfl⟩
  | scd gain => trivial
  | trm rateHz depth => exact ⟨rfl, congrArg (phaseStep rateHz) hsrate⟩
  | tel alpha => exact rfl
  | rmd frequencyHz => exact ⟨rfl, congrArg (phaseStep frequencyHz) hsrate⟩
  | bcr bits => trivial

/-- Two states between stages that agree on all that the program `is` can carry into the words at the indices
in `A`. -/
structure AgreeOn (A : Nat → Prop) (is : List Instr) (s s' : State) : Prop where
  len : s'.len = s.len
  srate : s'.srate = s.srate
  npos : ∀ i ∈ is, isNoise i = true → s'.npos = s.npos
  words : ∀ j, A j → s'.buf.read j = s.buf.read j

section
variable {A : Nat → Prop} (hA : ∀ j, A (j + 1) → A j) {i : Instr} {is : List Instr} {s s' : State}
  (h : AgreeOn A (i :: is) s s') (k : Nat)
include hA h

/-- A stage has read no word above its index, so up to the indices in `A` the two are in one private state. -/
theorem AgreeOn.inStage {n : Nat} (hn : A n) (hlen : n ≤ s.len.toNat) :
    AgreeFor i (inStage k i s n) (inStage k i s' n) := by
  induction n with
  | zero => exact agreeFor_slotEntered k h.srate (h.npos i List.mem_cons_self)
  | succ n ih =>
    rw [inStage_succ, inStage_succ]
    refine (ih (hA n hn) (by omega)).sampleEffect ?_
    rw [inputOf_inStage k i s' (by rw [h.len]; omega), inputOf_inStage k i s (by omega), h.words n (hA n hn)]

theorem AgreeOn.stageEffect : AgreeOn A is (stageEffect k i s) (stageEffect k i s') where
  len := by rw [stageEffect_len, stageEffect_len, h.len]
  srate := by
    rw [(stageEffect_sameRegisters k i s').srate, (stageEffect_sameRegisters k i s).srate, h.srate]
  npos j hj hnoise := by
    rw [Machine.stageEffect, Machine.stageEffect, inStage_npos, inStage_npos, h.len,
      h.npos j (List.mem_cons_of_mem i hj) hnoise]
  words j hj := by
    rw [read_stageEffect, read_stageEffect, h.len, h.words j hj]
    by_cases hlt : j < s.len.toNat
    · rw [if_pos hlt, if_pos hlt, (h.inStage hA k hj hlt.le).resultOf]
    · rw [if_neg hlt, if_neg hlt]

end

theorem AgreeOn.programEffect {A : Nat → Prop} (hA : ∀ j, A (j + 1) → A j) {is : List Instr} {s s' : State}
    (h : AgreeOn A is s s') (k : Nat) : AgreeOn A [] (programEffect k is s) (programEffect k is s') := by
  induction is generalizing k s s' with
  | nil => exact h
  | cons i is ih => exact ih (h.stageEffect hA k) (k + 1)

/-- Two runs of one program that agree on what it can carry into the words in `A` end with the same words
there. -/
theorem runs_agree {A : Nat → Prop} (hA : ∀ j, A (j + 1) → A j) {s s' t t' : State} (hs : ReadyToStart s)
    (hs' : ReadyToStart s') (hplen : s'.plen = s.plen) (hprog : s'.prog = s.prog)
    (h : AgreeOn A (programOf s) s s') (ht : afterStart s (runSteps s) = .next t)
    (ht' : afterStart s' (runSteps s') = .next t') {j : Nat} (hj : A j) :
    t'.buf.read j = t.buf.read j := by
  obtain rfl := hs.run_eq ht
  obtain rfl := hs'.run_eq ht'
  have hstart : AgreeOn A (programOf s) (s.begun []) (s'.begun []) := ⟨h.len, h.srate, h.npos, h.words⟩
  rw [programOf_congr hplen hprog]
  exact (hstart.programEffect hA 0).words j hj

/-- Settles O56: the indices up to `k`, and a noise position that is the same. -/
theorem outputDependsOnEarlierInputsOnly : Obligations.OutputDependsOnEarlierInputsOnly := by
  unfold Obligations.OutputDependsOnEarlierInputsOnly
  intro s s' t t' k hs hs' hlen hsrate hplen hprog hnpos hwords ht ht' j hj
  exact runs_agree (A := (· ≤ k)) (fun _ => Nat.le_of_succ_le) hs hs' hplen hprog
    ⟨hlen, hsrate, fun _ _ _ => hnpos, hwords⟩ ht ht' hj

/-- Settles O57: every index, and no operation that reads the noise position; nothing is drawn. -/
theorem runWithoutNoiseIgnoresTheRest : Obligations.RunWithoutNoiseIgnoresTheRest := by
  unfold Obligations.RunWithoutNoiseIgnoresTheRest
  intro s s' t t' hs hs' hlen hsrate hplen hprog hwords hquiet ht ht'
  constructor
  · have hnone : (programOf s).countP isNoise = 0 := List.countP_eq_zero.mpr fun i hi => by simp [hquiet i hi]
    rw [runDrawsOneWordForEachNoiseSample s t hs ht, hnone, Nat.mul_zero, Nat.add_zero]
  · intro j
    have hnpos : ∀ i ∈ programOf s, isNoise i = true → s'.npos = s.npos := fun i hi hnoise => by
      rw [hquiet i hi] at hnoise
      cases hnoise
    exact runs_agree (A := fun _ => True) (fun _ => id) hs hs' hplen hprog
      ⟨hlen, hsrate, hnpos, fun j _ => hwords j⟩ ht ht' trivial

end Sys2Proof.Machine
